-- ==== Sys2Proof/Word.lean ====
section
/-!
DEFINITION. The word types of the block (00_scope.md R10, 30_encoding.md R95).
-/

namespace Sys2Proof

/-- A 32-bit register word, bit 0 the least significant (00_scope.md R10; WORD_BITS = 32, R8). -/
abbrev Word := BitVec 32

/-- An 8-bit value of a byte string (30_encoding.md R95). -/
abbrev Byte := BitVec 8

end Sys2Proof
end

