-- ==== Sys2Proof/Config.lean ====
section
/-!
DEFINITION. The implementation parameters of 00_scope.md R8, the names they use, and the free values.
-/

namespace Sys2Proof

/-- The two endpoints the host exposes (00_scope.md R15, 30_encoding.md R95). -/
inductive Endpoint where
  | sig
  | led
deriving DecidableEq, Repr

/-- A channel of the selector: CH1 is INPUT_PIN1, CH2 is INPUT_PIN2 (10_state.md R50). -/
inductive Channel where
  | ch1
  | ch2
deriving DecidableEq, Repr, Inhabited

/-- The two encodings of an LED value (00_scope.md R8 LED_ENCODING, 30_encoding.md R102, R103). -/
inductive LedEncoding where
  | text
  | binary
deriving DecidableEq, Repr, Inhabited

/-- The error codes E1 to E8 (60_exceptions.md R301). -/
inductive ErrorCode where
  | mapFailure
  | registrationFailure
  | invalidSelector
  | invalidValue
  | copyFault
  | noDevice
  | accessDenied
  | notSupported
deriving DecidableEq, Repr

/-- What the host reports for an error: InvalidSelector and InvalidValue are one invalid-argument
condition, CopyFault is an I/O fault (45_host_client.md R257). -/
inductive HostErrorKind where
  | invalidArgument
  | ioFault
  | other (e : ErrorCode)
deriving DecidableEq, Repr

/-- The stored pin fields of FSEL0 to FSEL5: three bits for each pin below NUM_PINS and nothing for
the reserved bits, which a write ignores (10_state.md R33, R35). -/
structure Fsel where
  fsel0 : BitVec 30
  fsel1 : BitVec 30
  fsel2 : BitVec 30
  fsel3 : BitVec 30
  fsel4 : BitVec 30
  fsel5 : BitVec 12
deriving DecidableEq, Repr, Inhabited

/-- WORD_BITS = 32 bits is `Word`; NUM_PINS = 54 (00_scope.md R8, D4). -/
def numPins : Nat := 54

/-- LEVEL_PINS = 32: pins 0 to 31 can be sensed and driven (00_scope.md R8, D24). -/
def levelPins : Nat := 32

/-- P_WINDOW = 4096 bytes, one page (00_scope.md R8, 20_memory.md R61). PRESUMED, safe: log 19. -/
def pWindow : Nat := 4096

/-- LED_BIN_WIDTH = 4 bytes (00_scope.md R8, D6). -/
def ledBinWidth : Nat := 4

/-- LED_TEXT_MAX, the largest accepted decimal value (00_scope.md R8, D5). -/
def ledTextMax : Nat := 4294967295

/-- The configuration record of 00_scope.md R8, its fixed sizes apart. P_BASE is held as a page
number, so that P_BASE mod P_WINDOW = 0 cannot be broken. -/
structure Config where
  basePage : Nat
  inputPin1 : Nat
  inputPin2 : Nat
  outputPin : Nat
  ledEncoding : LedEncoding
  levelLoopback : Bool
  sigPath : String
  ledPath : String
deriving DecidableEq, Repr

/-- P_BASE, a multiple of P_WINDOW (00_scope.md R8, R14). -/
def Config.pBase (c : Config) : Nat := c.basePage * pWindow

/-- The configured pins are pairwise distinct and each below LEVEL_PINS (00_scope.md R9). -/
def Config.valid (c : Config) : Bool :=
  c.inputPin1 != c.inputPin2 && c.inputPin1 != c.outputPin && c.inputPin2 != c.outputPin &&
    decide (c.inputPin1 < levelPins) && decide (c.inputPin2 < levelPins) &&
    decide (c.outputPin < levelPins)

/-- The OPEN base page of P_BASE (00_scope.md R8, R14). Free value, safe: log 5. -/
opaque Config.openBasePage : Nat

/-- The OPEN LED_ENCODING (00_scope.md R8, 30_encoding.md R104). Free value, safe: log 5. -/
opaque Config.openLedEncoding : LedEncoding

/-- The OPEN host path SIG_PATH (45_host_client.md R260). Free value, safe: log 5. -/
opaque Config.openSigPath : String

/-- The OPEN host path LED_PATH (45_host_client.md R260). Free value, safe: log 5. -/
opaque Config.openLedPath : String

/-- The configuration a run from reset has: the spec's values, and free values for the OPEN ones
(00_scope.md R8; LEVEL_LOOPBACK = true is decision D21, unsafe: log 13). -/
def Config.default : Config where
  basePage := Config.openBasePage
  inputPin1 := 22
  inputPin2 := 27
  outputPin := 17
  ledEncoding := Config.openLedEncoding
  levelLoopback := true
  sigPath := Config.openSigPath
  ledPath := Config.openLedPath

/-- The OPEN parameter ERRNO: the host's number for an error (45_host_client.md R257). Free value,
safe: log 18. -/
opaque Config.errno : HostErrorKind → Int

/-- The environment's answer to draw number n once the queued answers are used up: a free value of
no law (00_scope.md R11). Free value, safe: log 2. -/
opaque Config.envDraw : Nat → Nat

/-- The scheduler's choice number n once the queued choices are used up (20_memory.md R70). Free
value, safe: log 1. -/
opaque Config.schedDraw : Nat → Nat

/-- FSEL0 to FSEL5 at power-on: a draw per field (10_state.md R57). Free value, safe: log 4. -/
opaque Config.powerOnFsel : Fsel

/-- OUTLATCH at power-on: a draw per bit (10_state.md R57). Free value, safe: log 4. -/
opaque Config.powerOnLatch : Word

/-- sel before the first startup: unspecified (10_state.md R57). Free value, safe: log 4. -/
opaque Config.powerOnSel : Channel

end Sys2Proof
end

