-- ==== Sys2Proof/Syntax.lean ====
section
/-!
DEFINITION. The operations of 30_encoding.md R92, one constructor per row, with the operands of R95.
-/

namespace Sys2Proof

/-- An operation call with its operands (30_encoding.md R92, R95). Addr, Nat, Offset, PinId and
SessionId are natural numbers; Mode is the three-bit field value of R98. -/
inductive Instr where
  /-- 0x00, 40_register_block.md R130 -/
  | map (physicalBase size : Nat)
  /-- 0x01, 40_register_block.md R131 -/
  | unmap
  /-- 0x02, 40_register_block.md R132 -/
  | readWord (off : Nat)
  /-- 0x03, 40_register_block.md R133 -/
  | writeWord (off : Nat) (v : Word)
  /-- 0x20, 41_pin_control.md R150 -/
  | setFunction (pin : Nat) (mode : BitVec 3)
  /-- 0x40, 41_pin_control.md R151 -/
  | readLevel (pin : Nat)
  /-- 0x60, 41_pin_control.md R152 -/
  | setHigh (pin : Nat)
  /-- 0x61, 41_pin_control.md R153 -/
  | setLow (pin : Nat)
  /-- 0x80, 42_channel_selector.md R180 -/
  | select (b : Byte)
  /-- 0x81, 42_channel_selector.md R181 -/
  | current
  /-- 0xA0, 43_signal_endpoint.md R195 -/
  | sigOpen
  /-- 0xA1, 43_signal_endpoint.md R196 -/
  | sigRead (session maxLen : Nat)
  /-- 0xA2, 43_signal_endpoint.md R197 -/
  | sigWrite (session : Nat) (data : List Byte)
  /-- 0xA3, 43_signal_endpoint.md R198 -/
  | sigClose (session : Nat)
  /-- 0xC0, 44_led_endpoint.md R225 -/
  | ledOpen
  /-- 0xC1, 44_led_endpoint.md R228 -/
  | ledRead (session maxLen : Nat)
  /-- 0xC2, 44_led_endpoint.md R226 -/
  | ledWrite (session : Nat) (data : List Byte)
  /-- 0xC3, 44_led_endpoint.md R227 -/
  | ledClose (session : Nat)
  /-- 0xE0, 46_lifecycle.md R270 -/
  | startup
  /-- 0xE1, 46_lifecycle.md R271 -/
  | teardown
  /-- 0xE2, 46_lifecycle.md R272 -/
  | registerEndpoint (kind : Endpoint)
  /-- 0xE3, 46_lifecycle.md R273 -/
  | deregisterEndpoint (kind : Endpoint)
deriving DecidableEq, Repr

end Sys2Proof
end

