-- ==== Sys2Proof/WellFormed.lean ====
section
/-!
DEFINITION. The legal operand values of 30_encoding.md R95. A call outside them still decodes and
runs: it meets the fault or the refusal its rule names.
-/

namespace Sys2Proof

/-- The offsets `read_word` may read: FSEL0 to FSEL5 and LEV (10_state.md R32, 40 R132). -/
def readableOffsets : List Nat := [0x00, 0x04, 0x08, 0x0C, 0x10, 0x14, 0x34]

/-- The offsets `write_word` may write: FSEL0 to FSEL5, SET and CLR (10_state.md R32, 40 R133). -/
def writableOffsets : List Nat := [0x00, 0x04, 0x08, 0x0C, 0x10, 0x14, 0x1C, 0x28]

/-- Every operand lies in the range 30_encoding.md R95 gives its type for this operation. -/
def Instr.wellFormed : Instr → Bool
  | .map base size => decide (base % pWindow = 0) && size == pWindow
  | .unmap => true
  | .readWord off => readableOffsets.contains off
  | .writeWord off _ => writableOffsets.contains off
  | .setFunction pin mode => decide (pin < numPins) && decide (mode.toNat ≤ 1)
  | .readLevel pin => decide (pin < levelPins)
  | .setHigh pin => decide (pin < levelPins)
  | .setLow pin => decide (pin < levelPins)
  | .select _ => true
  | .current => true
  | .sigOpen => true
  | .sigRead _ _ => true
  | .sigWrite _ _ => true
  | .sigClose _ => true
  | .ledOpen => true
  | .ledRead _ _ => true
  | .ledWrite _ _ => true
  | .ledClose _ => true
  | .startup => true
  | .teardown => true
  | .registerEndpoint _ => true
  | .deregisterEndpoint _ => true

end Sys2Proof
end

