-- ==== Sys2Proof/Decode.lean ====
section
/-!
DEFINITION. Call records, their decoder and encoder (30_encoding.md R90 to R96, R98, R105).
-/

namespace Sys2Proof

/-- The unit an operation belongs to, OPC[7:5] (30_encoding.md R93). -/
inductive BlockUnit where
  | registerBlock
  | pinConfigurator
  | levelSensor
  | levelDriver
  | channelSelector
  | signalEndpoint
  | ledEndpoint
  | lifecycle
deriving DecidableEq, Repr

/-- The rows of the operation table (30_encoding.md R92). -/
inductive Op where
  | map | unmap | readWord | writeWord
  | setFunction | readLevel | setHigh | setLow
  | select | current
  | sigOpen | sigRead | sigWrite | sigClose
  | ledOpen | ledRead | ledWrite | ledClose
  | startup | teardown | registerEndpoint | deregisterEndpoint
deriving DecidableEq, Repr

/-- The operand types a call record can carry (30_encoding.md R95). -/
inductive OperandType where
  | addr | nat | offset | word | pin | mode | byte | bytes | session | endpoint
deriving DecidableEq, Repr

/-- How a call names its session: by the identifier an open returned, or, in a host program, as the
name bound by the agent's call number `call` (30_encoding.md R95, R106). -/
inductive SessionRef where
  | id (s : Nat)
  | bound (call : Nat)
deriving DecidableEq, Repr

/-- A typed operand of a call record (30_encoding.md R91, R95). -/
inductive Operand where
  | addr (a : Nat)
  | nat (n : Nat)
  | offset (o : Nat)
  | word (w : Word)
  | pin (p : Nat)
  | mode (m : BitVec 3)
  | byte (b : Byte)
  | bytes (data : List Byte)
  | session (r : SessionRef)
  | endpoint (k : Endpoint)
deriving DecidableEq, Repr

/-- A call record: an 8-bit OPC and typed operands (30_encoding.md R91). -/
structure CallRecord where
  opc : BitVec 8
  operands : List Operand
deriving DecidableEq, Repr

/-- The calls of the lifecycle agent's program after its first, which the host fixes
(10_state.md R31, R58, 70_reset_and_hazards.md R350). Free value, safe: log 6. -/
opaque Config.lifecycleLater : List CallRecord

/-- Why a call record spells no call. -/
inductive DecodeError where
  /-- the OPC is not in R92's table (30_encoding.md R96) -/
  | opcode
  /-- a session operand is a name no open has bound (30_encoding.md R106) -/
  | session
  /-- the operand list does not have the shape that follows from the OPC (30_encoding.md R91) -/
  | operands
deriving DecidableEq, Repr

/-- The unit number (30_encoding.md R93). -/
def BlockUnit.code : BlockUnit → BitVec 3
  | .registerBlock => 0
  | .pinConfigurator => 1
  | .levelSensor => 2
  | .levelDriver => 3
  | .channelSelector => 4
  | .signalEndpoint => 5
  | .ledEndpoint => 6
  | .lifecycle => 7

/-- The unit of each row (30_encoding.md R92, R93). -/
def Op.unit : Op → BlockUnit
  | .map | .unmap | .readWord | .writeWord => .registerBlock
  | .setFunction => .pinConfigurator
  | .readLevel => .levelSensor
  | .setHigh | .setLow => .levelDriver
  | .select | .current => .channelSelector
  | .sigOpen | .sigRead | .sigWrite | .sigClose => .signalEndpoint
  | .ledOpen | .ledRead | .ledWrite | .ledClose => .ledEndpoint
  | .startup | .teardown | .registerEndpoint | .deregisterEndpoint => .lifecycle

/-- The operation within the unit, OPC[4:0] (30_encoding.md R92, R93). -/
def Op.index : Op → BitVec 5
  | .map => 0
  | .unmap => 1
  | .readWord => 2
  | .writeWord => 3
  | .setFunction => 0
  | .readLevel => 0
  | .setHigh => 0
  | .setLow => 1
  | .select => 0
  | .current => 1
  | .sigOpen | .ledOpen => 0
  | .sigRead | .ledRead => 1
  | .sigWrite | .ledWrite => 2
  | .sigClose | .ledClose => 3
  | .startup => 0
  | .teardown => 1
  | .registerEndpoint => 2
  | .deregisterEndpoint => 3

/-- The operation code: the unit in bits 7:5, the operation in bits 4:0 (30_encoding.md R91). -/
def Op.code (o : Op) : BitVec 8 := o.unit.code ++ o.index

/-- The rows in the table's order (30_encoding.md R92). -/
def Op.all : List Op :=
  [.map, .unmap, .readWord, .writeWord, .setFunction, .readLevel, .setHigh, .setLow,
    .select, .current, .sigOpen, .sigRead, .sigWrite, .sigClose,
    .ledOpen, .ledRead, .ledWrite, .ledClose,
    .startup, .teardown, .registerEndpoint, .deregisterEndpoint]

/-- The row an OPC selects, by all eight bits (mask 0xFF); none for a reserved code
(30_encoding.md R91, R96). -/
def Op.ofCode (c : BitVec 8) : Option Op := Op.all.find? (fun o => o.code == c)

/-- The operand list's shape, which follows from the OPC (30_encoding.md R91, R92). -/
def Op.shape : Op → List OperandType
  | .map => [.addr, .nat]
  | .unmap => []
  | .readWord => [.offset]
  | .writeWord => [.offset, .word]
  | .setFunction => [.pin, .mode]
  | .readLevel => [.pin]
  | .setHigh => [.pin]
  | .setLow => [.pin]
  | .select => [.byte]
  | .current => []
  | .sigOpen | .ledOpen => []
  | .sigRead | .ledRead => [.session, .nat]
  | .sigWrite | .ledWrite => [.session, .bytes]
  | .sigClose | .ledClose => [.session]
  | .startup | .teardown => []
  | .registerEndpoint | .deregisterEndpoint => [.endpoint]

/-- The type an operand has (30_encoding.md R95). -/
def Operand.type : Operand → OperandType
  | .addr _ => .addr
  | .nat _ => .nat
  | .offset _ => .offset
  | .word _ => .word
  | .pin _ => .pin
  | .mode _ => .mode
  | .byte _ => .byte
  | .bytes _ => .bytes
  | .session _ => .session
  | .endpoint _ => .endpoint

/-- The operand is a session name that is not bound to an identifier. -/
def Operand.isUnbound : Operand → Bool
  | .session (.bound _) => true
  | _ => false

/-- The call a row makes of its operands; none where the operands do not have the row's shape. -/
def Op.build : Op → List Operand → Option Instr
  | .map, [.addr a, .nat n] => some (.map a n)
  | .unmap, [] => some .unmap
  | .readWord, [.offset o] => some (.readWord o)
  | .writeWord, [.offset o, .word w] => some (.writeWord o w)
  | .setFunction, [.pin p, .mode m] => some (.setFunction p m)
  | .readLevel, [.pin p] => some (.readLevel p)
  | .setHigh, [.pin p] => some (.setHigh p)
  | .setLow, [.pin p] => some (.setLow p)
  | .select, [.byte b] => some (.select b)
  | .current, [] => some .current
  | .sigOpen, [] => some .sigOpen
  | .sigRead, [.session (.id s), .nat n] => some (.sigRead s n)
  | .sigWrite, [.session (.id s), .bytes d] => some (.sigWrite s d)
  | .sigClose, [.session (.id s)] => some (.sigClose s)
  | .ledOpen, [] => some .ledOpen
  | .ledRead, [.session (.id s), .nat n] => some (.ledRead s n)
  | .ledWrite, [.session (.id s), .bytes d] => some (.ledWrite s d)
  | .ledClose, [.session (.id s)] => some (.ledClose s)
  | .startup, [] => some .startup
  | .teardown, [] => some .teardown
  | .registerEndpoint, [.endpoint k] => some (.registerEndpoint k)
  | .deregisterEndpoint, [.endpoint k] => some (.deregisterEndpoint k)
  | _, _ => none

/-- Decode a call record: the operation from the OPC alone, the operands by its shape
(30_encoding.md R91, R96). A record with an unbound session name is refused for it before the shape
of its operands is looked at: an order the spec leaves open (DESIGN CHOICE, unsafe: log 26). -/
def decode (c : CallRecord) : Except DecodeError Instr :=
  match Op.ofCode c.opc with
  | none => .error .opcode
  | some o =>
    if c.operands.any Operand.isUnbound then .error .session
    else
      match o.build c.operands with
      | some i => .ok i
      | none => .error .operands

/-- The row of a call (30_encoding.md R92). -/
def Instr.op : Instr → Op
  | .map _ _ => .map
  | .unmap => .unmap
  | .readWord _ => .readWord
  | .writeWord _ _ => .writeWord
  | .setFunction _ _ => .setFunction
  | .readLevel _ => .readLevel
  | .setHigh _ => .setHigh
  | .setLow _ => .setLow
  | .select _ => .select
  | .current => .current
  | .sigOpen => .sigOpen
  | .sigRead _ _ => .sigRead
  | .sigWrite _ _ => .sigWrite
  | .sigClose _ => .sigClose
  | .ledOpen => .ledOpen
  | .ledRead _ _ => .ledRead
  | .ledWrite _ _ => .ledWrite
  | .ledClose _ => .ledClose
  | .startup => .startup
  | .teardown => .teardown
  | .registerEndpoint _ => .registerEndpoint
  | .deregisterEndpoint _ => .deregisterEndpoint

/-- The operands of a call in the order 30_encoding.md R92 lists them. -/
def Instr.operands : Instr → List Operand
  | .map a n => [.addr a, .nat n]
  | .unmap => []
  | .readWord o => [.offset o]
  | .writeWord o w => [.offset o, .word w]
  | .setFunction p m => [.pin p, .mode m]
  | .readLevel p => [.pin p]
  | .setHigh p => [.pin p]
  | .setLow p => [.pin p]
  | .select b => [.byte b]
  | .current => []
  | .sigOpen => []
  | .sigRead s n => [.session (.id s), .nat n]
  | .sigWrite s d => [.session (.id s), .bytes d]
  | .sigClose s => [.session (.id s)]
  | .ledOpen => []
  | .ledRead s n => [.session (.id s), .nat n]
  | .ledWrite s d => [.session (.id s), .bytes d]
  | .ledClose s => [.session (.id s)]
  | .startup => []
  | .teardown => []
  | .registerEndpoint k => [.endpoint k]
  | .deregisterEndpoint k => [.endpoint k]

/-- The call record of a call (30_encoding.md R91, R92). -/
def encode (i : Instr) : CallRecord := ⟨i.op.code, i.operands⟩

/-- The operand of a type whose bits are all zero; SIG is the first endpoint (log 8). -/
def OperandType.zero : OperandType → Operand
  | .addr => .addr 0
  | .nat => .nat 0
  | .offset => .offset 0
  | .word => .word 0
  | .pin => .pin 0
  | .mode => .mode 0
  | .byte => .byte 0
  | .bytes => .bytes []
  | .session => .session (.id 0)
  | .endpoint => .endpoint .sig

/-- The call record of an opcode-table word: the eight bits are the OPC and every operand is zero,
since the table gives operands no bits (log 8). None for a number of bits or a word the table's
8-bit OPC cannot hold. -/
def tableRecord (nbits w : Nat) : Option CallRecord :=
  if nbits = 8 ∧ w < 256 then
    let c := BitVec.ofNat 8 w
    some ⟨c, match Op.ofCode c with
      | some o => o.shape.map OperandType.zero
      | none => []⟩
  else none

/-- The call the decoder reads from an opcode-table word (30_encoding.md R91). -/
def decodeTableWord (nbits w : Nat) : Option Instr :=
  match tableRecord nbits w with
  | none => none
  | some c =>
    match decode c with
    | .ok i => some i
    | .error _ => none

end Sys2Proof
end

