-- ==== Sys2Proof/Machine/State.lean ====
section
/-!
DEFINITION. The state of the block and of the agents that call it (10_state.md), as plain data, and
the state at the start of a model run (10_state.md R57).
-/

namespace Sys2Proof.Machine

/-- The lifecycle phase (10_state.md R54). -/
inductive Phase where
  | absent
  | starting
  | running
  | stopping
deriving DecidableEq, Repr

/-- The fault codes F1 to F4 (60_exceptions.md R302), raised by an operation and kept in the fault
record; the machine goes on. -/
inductive FaultCode where
  | unmapped
  | badOffset
  | pinRange
  | driveNotOutput
deriving DecidableEq, Repr

/-- The refusal reasons of 60_exceptions.md R315; the refused agent stays at its call. -/
inductive RefusalReason where
  | opcode
  | internal
  | session
  | mode
  | mapping
  | config
  | lifecycle
deriving DecidableEq, Repr

/-- What an operation returns: a success value or an error (60_exceptions.md R300). A read's count
comes with its bytes, a write's with none. -/
inductive Result where
  | ok
  | handle (h : Nat)
  | session (s : Nat)
  | word (w : Word)
  | bool (b : Bool)
  | pin (p : Nat)
  | count (n : Nat) (bytes : List Byte)
  | error (e : ErrorCode)
deriving DecidableEq, Repr

/-- The direction of a register access (10_state.md R56). -/
inductive AccessKind where
  | read
  | write
deriving DecidableEq, Repr

/-- One register access in the event history (10_state.md R56). -/
structure Event where
  agent : Nat
  access : AccessKind
  offset : Nat
  value : Word
deriving DecidableEq, Repr

/-- What is left of a `set_function` after its read (41_pin_control.md R150, step 2). -/
inductive SetFunctionTask where
  | writeBack (pin : Nat) (mode : BitVec 3) (w : Word)
deriving DecidableEq, Repr

/-- What is left of a `sig.read`: the level sample of step 2, the transfer of step 3
(43_signal_endpoint.md R196). -/
inductive SigReadTask where
  | sample (session maxLen off pin : Nat)
  | copyOut (session : Nat) (bytes : List Byte)
deriving DecidableEq, Repr

/-- What is left of a `sig.write` after its transfer (43_signal_endpoint.md R197). -/
inductive SigWriteTask where
  | select (b : Byte)
deriving DecidableEq, Repr

/-- What is left of an `led.write` after its transfer: drive the value, return the count
(44_led_endpoint.md R226, step 2). -/
inductive LedWriteTask where
  | drive (v count : Nat)
deriving DecidableEq, Repr

/-- The three pins startup configures, in its order (46_lifecycle.md R270). -/
inductive ConfigSlot where
  | input1
  | input2
  | output
deriving DecidableEq, Repr

/-- What is left of a `startup` (46_lifecycle.md R270): the next atomic step. -/
inductive StartupTask where
  | map
  | readFsel (c : ConfigSlot)
  | writeFsel (c : ConfigSlot) (w : Word)
  | selectFirst
  | registerSig
  | registerLed
  | enterRunning
  | rollbackSig
  | rollbackMap
  | enterAbsent (e : ErrorCode)
deriving DecidableEq, Repr

/-- What is left of a `teardown` (46_lifecycle.md R271): the next atomic step. -/
inductive TeardownTask where
  | driveLow
  | unmap
  | deregisterSig
  | deregisterLed
  | enterAbsent
deriving DecidableEq, Repr

/-- A call in progress between two of its atomic steps (20_memory.md R70). -/
inductive Task where
  | setFunction (t : SetFunctionTask)
  | sigRead (t : SigReadTask)
  | sigWrite (t : SigWriteTask)
  | ledWrite (t : LedWriteTask)
  | startup (t : StartupTask)
  | teardown (t : TeardownTask)
deriving DecidableEq, Repr

/-- The kinds of agent that issue calls (00_scope.md R13, 30_encoding.md R94). `block` is the model's
own: it issues an internal row directly (DESIGN CHOICE, safe: log 7). -/
inductive AgentKind where
  | lifecycle
  | caller
  | block
deriving DecidableEq, Repr

/-- A caller's request to the host (45_host_client.md R255). -/
inductive HostRequest where
  | openPath (path : String)
  | read (h : SessionRef) (maxLen : Nat)
  | write (h : SessionRef) (data : List Byte)
  | close (h : SessionRef)
deriving DecidableEq, Repr

/-- An agent's host program: a finite list of calls (10_state.md R31), a list of requests the host
dispatches (45_host_client.md R255), or the command-line client with its arguments (R261). -/
inductive Program where
  | calls (l : List CallRecord)
  | requests (l : List HostRequest)
  | client (argv : List (List Byte))
deriving DecidableEq, Repr

/-- What an agent is doing: at a call boundary, inside a call, stopped by a fault (60_exceptions.md
R302), or stuck at a refused call (R303). -/
inductive AgentStatus where
  | ready
  | inCall (t : Task)
  | stopped (f : FaultCode) (info : Nat)
  | stuck (r : RefusalReason)
deriving DecidableEq, Repr

/-- An agent: its host program, the results its calls have returned, oldest first, and its status.
The call index of 10_state.md R31 is the number of results. -/
structure Agent where
  kind : AgentKind
  program : Program
  results : List Result
  status : AgentStatus
deriving DecidableEq, Repr

/-- The call index: 0 at first, one further when a call returns, whatever its result
(10_state.md R31). -/
def Agent.index (a : Agent) : Nat := a.results.length

/-- The complete state (10_state.md R30 and the fields the model adds for its own running). -/
structure State where
  /-- the configuration record; no step changes it (00_scope.md R8, log 5) -/
  cfg : Config
  /-- FSEL0 to FSEL5 (10_state.md R32, R33) -/
  fsel : Fsel
  /-- OUTLATCH (10_state.md R40) -/
  outlatch : Word
  /-- mapped, with its handle (10_state.md R49) -/
  mapping : Option Nat
  /-- sel (10_state.md R50) -/
  sel : Channel
  /-- sig_reg (10_state.md R51) -/
  sigReg : Bool
  /-- led_reg (10_state.md R51) -/
  ledReg : Bool
  /-- sessions, keys strictly rising (10_state.md R52) -/
  sessions : List (Nat × Endpoint)
  /-- the host's offsets of open signal sessions, keys strictly rising (10_state.md R53) -/
  offsets : List (Nat × Nat)
  /-- phase (10_state.md R54) -/
  phase : Phase
  /-- the fault record, a set kept strictly rising (10_state.md R55) -/
  faults : List (FaultCode × Nat)
  /-- the refusal mark (60_exceptions.md R303) -/
  refusalMark : Bool
  /-- the event history, oldest first (10_state.md R56) -/
  history : List Event
  /-- the agents (00_scope.md R13) -/
  agents : List Agent
  /-- the agent that takes the next step (20_memory.md R70; the model's own field, log 1) -/
  current : Nat
  /-- above every identifier issued so far (the model's own field, log 9) -/
  fresh : Nat
  /-- queued answers of the environment (the model's own field, log 2) -/
  env : List Nat
  /-- answers taken from the free stream (the model's own field, log 2) -/
  envTaken : Nat
  /-- queued choices of the scheduler (the model's own field, log 1) -/
  sched : List Nat
  /-- choices taken from the free stream (the model's own field, log 1) -/
  schedTaken : Nat
deriving DecidableEq, Repr

/-- Why the machine has no further step. `step` alone raises these, when no agent has an enabled
step; safe, since the spec gives no step there (10_state.md R31, R55; log 16). -/
inductive Fault where
  /-- every agent has run its program to the end, nothing was raised or refused: a final state.
  Raised by `step`; safe. -/
  | runComplete
  /-- no agent has an enabled step and a fault or a refusal is on record: not a final state
  (10_state.md R55, 60_exceptions.md R303). Raised by `step`; safe. -/
  | runNotFinal
deriving DecidableEq, Repr

/-- Why the model has no meaning for what was fetched. The spec's own refusals are next states with
the refusal mark set (60_exceptions.md R303), not these. -/
inductive Refusal where
  /-- an instruction without a meaning: no arm of `exec` answers it; safe. -/
  | notModelled (mnemonic : String)
  /-- a call record whose operands do not have the shape of its OPC, which 30_encoding.md R91 gives
  no meaning. Raised by `step`; safe (log 8). -/
  | malformedCall
  /-- an open of a host path that is neither endpoint's, which never reaches the block
  (45_host_client.md R255). Raised by `step`; safe (log 20). -/
  | foreignPath
deriving DecidableEq, Repr

/-- The start of a model run (10_state.md R57, 70_reset_and_hazards.md R350): no mapping, nothing
registered, no session, phase Absent, empty records; FSEL, OUTLATCH and sel are free values (log 4);
the lifecycle agent is at its first call, startup, and which calls follow is a free value (log 6). -/
def State.reset : State where
  cfg := Config.default
  fsel := Config.powerOnFsel
  outlatch := Config.powerOnLatch
  mapping := none
  sel := Config.powerOnSel
  sigReg := false
  ledReg := false
  sessions := []
  offsets := []
  phase := .absent
  faults := []
  refusalMark := false
  history := []
  agents := [⟨.lifecycle, .calls (encode .startup :: Config.lifecycleLater), [], .ready⟩]
  current := 0
  fresh := 0
  env := []
  envTaken := 0
  sched := []
  schedTaken := 0

end Sys2Proof.Machine
end

