-- ==== Sys2Proof/Machine/Operands.lean ====
section
/-!
DEFINITION. Every value the block computes from another: register words from pins, levels and texts
from words, LED values from bytes (30_encoding.md R97 to R104, R108).
-/

namespace Sys2Proof

/-- The pin bits FSELk holds, its reserved bits zero (10_state.md R33). -/
def Fsel.word (f : Fsel) : Nat → Word
  | 0 => f.fsel0.setWidth 32
  | 1 => f.fsel1.setWidth 32
  | 2 => f.fsel2.setWidth 32
  | 3 => f.fsel3.setWidth 32
  | 4 => f.fsel4.setWidth 32
  | 5 => f.fsel5.setWidth 32
  | _ => 0

/-- Store the pin fields of a word in FSELk; its reserved bits are ignored (10_state.md R35, R44). -/
def Fsel.store (f : Fsel) (k : Nat) (v : Word) : Fsel :=
  match k with
  | 0 => { f with fsel0 := v.setWidth 30 }
  | 1 => { f with fsel1 := v.setWidth 30 }
  | 2 => { f with fsel2 := v.setWidth 30 }
  | 3 => { f with fsel3 := v.setWidth 30 }
  | 4 => { f with fsel4 := v.setWidth 30 }
  | 5 => { f with fsel5 := v.setWidth 12 }
  | _ => f

/-- The bits of FSELk some pin below NUM_PINS owns (10_state.md R33, R35). -/
def fselPinMask (k : Nat) : Word := if k = 5 then 0x00000FFF else 0x3FFFFFFF

/-- The word index of a pin, p / 10 (10_state.md R37). -/
def fselIndex (pin : Nat) : Nat := pin / 10

/-- The byte offset of a pin's FSEL word, 4 (p / 10) (10_state.md R37). -/
def fselOffset (pin : Nat) : Nat := 4 * fselIndex pin

/-- The field shift of a pin, 3 (p mod 10) (10_state.md R37). -/
def fieldShift (pin : Nat) : Nat := 3 * (pin % 10)

/-- The field mask of a pin, 7 << s (10_state.md R37). -/
def fieldMask (pin : Nat) : Word := 7#32 <<< fieldShift pin

/-- The field of a pin in a word of its FSEL register (10_state.md R33). -/
def fieldOf (w : Word) (pin : Nat) : BitVec 3 := w.extractLsb' (fieldShift pin) 3

/-- The word `set_function` writes from the word it read (30_encoding.md R97). -/
def withField (w : Word) (pin : Nat) (mode : BitVec 3) : Word :=
  (w &&& ~~~ fieldMask pin) ||| (mode.setWidth 32 <<< fieldShift pin)

/-- The stored function-select field of a pin (10_state.md R33). -/
def Fsel.field (f : Fsel) (pin : Nat) : BitVec 3 := fieldOf (f.word (fselIndex pin)) pin

/-- INPUT, the field value 000 (10_state.md R34, 30_encoding.md R98). -/
def modeInput : BitVec 3 := 0

/-- OUTPUT, the field value 001 (10_state.md R34, 30_encoding.md R98). -/
def modeOutput : BitVec 3 := 1

/-- The word with only the bit of a pin set, 1 << p (10_state.md R41, 30_encoding.md R99). -/
def pinBit (pin : Nat) : Word := 1#32 <<< pin

/-- The word whose bits below n are given one by one. -/
def wordOfBits (f : Nat → Bool) : Nat → Word
  | 0 => 0#32
  | n + 1 => wordOfBits f n ||| (if f n then 1#32 <<< n else 0#32)

/-- The pins 0 to 31 whose function-select field is OUTPUT, one bit each (10_state.md R42). -/
def Fsel.outputPins (f : Fsel) : Word := wordOfBits (fun p => f.field p == modeOutput) 32

/-- The word FSELk reads as: stored fields, and drawn reserved bits (10_state.md R35, R44). -/
def fselReadWord (f : Fsel) (k : Nat) (drawn : Word) : Word :=
  f.word k ||| (drawn &&& ~~~ fselPinMask k)

/-- The word LEV reads as: with loopback the latch bit of every OUTPUT pin, every other bit drawn
(10_state.md R42). -/
def levReadWord (loopback : Bool) (f : Fsel) (latch drawn : Word) : Word :=
  if loopback then (latch &&& f.outputPins) ||| (drawn &&& ~~~ f.outputPins) else drawn

/-- How the block drives a physical pin (10_state.md R43). -/
inductive PinDrive where
  | high
  | low
  | notDriven
  /-- no rule gives the drive: an alternate function, or a pin without a latch bit (log 21) -/
  | unspecified
deriving DecidableEq, Repr

/-- The drive of a pin from its field and the output latch (10_state.md R43). -/
def pinDrive (f : Fsel) (latch : Word) (pin : Nat) : PinDrive :=
  if f.field pin = modeInput then .notDriven
  else if f.field pin = modeOutput ∧ pin < levelPins then
    if latch.getLsbD pin then .high else .low
  else .unspecified

/-- The channel a selector byte names: '1' or '2', by the first byte alone (30_encoding.md R100). -/
def selectorChannel (b : Byte) : Option Channel :=
  if b = 0x31 then some .ch1 else if b = 0x32 then some .ch2 else none

/-- current_pin of 10_state.md R50. -/
def currentPin (c : Config) : Channel → Nat
  | .ch1 => c.inputPin1
  | .ch2 => c.inputPin2

/-- T(L), the two bytes a level is reported as (30_encoding.md R101). -/
def levelText (level : Bool) : List Byte := [if level then 0x31 else 0x30, 0x0A]

/-- How many bytes a read returns (43_signal_endpoint.md R196). -/
def readCount (maxLen off : Nat) : Nat := if off ≥ 2 then 0 else min maxLen (2 - off)

/-- The bytes T[off .. off+n-1] a read returns (43_signal_endpoint.md R196). -/
def readBytes (level : Bool) (maxLen off : Nat) : List Byte :=
  ((levelText level).drop off).take (readCount maxLen off)

/-- Data with one final 0x0A removed (30_encoding.md R102). -/
def stripNewline (data : List Byte) : List Byte :=
  if data.getLast? = some 0x0A then data.dropLast else data

/-- The byte is an ASCII digit (30_encoding.md R102). -/
def isDigit (b : Byte) : Bool := decide (0x30 ≤ b.toNat) && decide (b.toNat ≤ 0x39)

/-- The decimal number a digit string spells, leading zeros allowed (30_encoding.md R102). -/
def decimalValue (t : List Byte) : Nat := t.foldl (fun acc b => 10 * acc + (b.toNat - 0x30)) 0

/-- The value of a Text LED write, none for InvalidValue (30_encoding.md R102). -/
def ledTextValue (data : List Byte) : Option Nat :=
  let t := stripNewline data
  if t ≠ [] ∧ t.all isDigit ∧ decimalValue t ≤ ledTextMax then some (decimalValue t) else none

/-- The value of a Binary LED write: four bytes, the first the least significant, none for
InvalidValue (30_encoding.md R103). -/
def ledBinaryValue : List Byte → Option Nat
  | b0 :: b1 :: b2 :: b3 :: _ =>
    some (b0.setWidth 32 ||| b1.setWidth 32 <<< 8 ||| b2.setWidth 32 <<< 16 |||
      b3.setWidth 32 <<< 24 : Word).toNat
  | _ => none

/-- The value of an LED write in the configured encoding (44_led_endpoint.md R226). -/
def ledValue : LedEncoding → List Byte → Option Nat
  | .text, data => ledTextValue data
  | .binary, data => ledBinaryValue data

/-- How many bytes an LED write transfers and consumes (44_led_endpoint.md R226). -/
def ledTaken : LedEncoding → Nat → Nat
  | .text, n => n
  | .binary, n => min n ledBinWidth

/-- The data of the pseudo-operations `led.on` and `led.off` (30_encoding.md R107). -/
def ledPseudoData : LedEncoding → Bool → List Byte
  | .text, on => [if on then 0x31 else 0x30]
  | .binary, on => [if on then 0x01 else 0x00, 0x00, 0x00, 0x00]

/-- `cfg_in p` (30_encoding.md R107). -/
def cfgIn (pin : Nat) : Instr := .setFunction pin modeInput

/-- `cfg_out p` (30_encoding.md R107). -/
def cfgOut (pin : Nat) : Instr := .setFunction pin modeOutput

/-- `led.on S` and `led.off S` (30_encoding.md R107). -/
def ledPseudo (enc : LedEncoding) (on : Bool) (session : Nat) : Instr :=
  .ledWrite session (ledPseudoData enc on)

/-- `sig.sel1 S` and `sig.sel2 S` (30_encoding.md R107). -/
def sigPseudo (c : Channel) (session : Nat) : Instr :=
  .sigWrite session [match c with | .ch1 => 0x31 | .ch2 => 0x32]

end Sys2Proof
end

