-- ==== Sys2Proof/Machine/Table.lean ====
section
/-!
DEFINITION. Finite maps as lists with strictly rising keys, so that equal maps are equal lists
(10_state.md R52, R53), and the fault record as a set in one order (10_state.md R55).
-/

namespace Sys2Proof.Machine

/-- The value a map holds at a key. -/
def tableGet {α : Type} : List (Nat × α) → Nat → Option α
  | [], _ => none
  | (j, v) :: l, k => if j = k then some v else tableGet l k

/-- Set a key, keeping the keys strictly rising. -/
def tableSet {α : Type} : List (Nat × α) → Nat → α → List (Nat × α)
  | [], k, v => [(k, v)]
  | (j, u) :: l, k, v =>
    if k < j then (k, v) :: (j, u) :: l
    else if k = j then (k, v) :: l
    else (j, u) :: tableSet l k v

/-- Remove a key. -/
def tableErase {α : Type} : List (Nat × α) → Nat → List (Nat × α)
  | [], _ => []
  | (j, u) :: l, k => if j = k then l else (j, u) :: tableErase l k

/-- Every key of the map is at least a bound, and the keys rise strictly. -/
def tableRising {α : Type} : Nat → List (Nat × α) → Bool
  | _, [] => true
  | b, (j, _) :: l => decide (b ≤ j) && tableRising (j + 1) l

/-- The canonical form of a map: strictly rising keys. -/
def tableWf {α : Type} (l : List (Nat × α)) : Bool := tableRising 0 l

/-- The number of a fault code, F1 to F4 (60_exceptions.md R302). -/
def FaultCode.number : FaultCode → Nat
  | .unmapped => 1
  | .badOffset => 2
  | .pinRange => 3
  | .driveNotOutput => 4

/-- The order the fault record is kept in: by code, then by info. -/
def faultBefore (x y : FaultCode × Nat) : Bool :=
  decide (x.1.number < y.1.number) || (x.1.number == y.1.number && decide (x.2 < y.2))

/-- Add to the fault record; a pair already there is not added again (10_state.md R55: a set). -/
def faultInsert : List (FaultCode × Nat) → FaultCode × Nat → List (FaultCode × Nat)
  | [], x => [x]
  | y :: l, x =>
    if faultBefore x y then x :: y :: l
    else if x = y then y :: l
    else y :: faultInsert l x

/-- The canonical form of the fault record: strictly rising. -/
def faultsWf : List (FaultCode × Nat) → Bool
  | [] => true
  | [_] => true
  | x :: y :: l => faultBefore x y && faultsWf (y :: l)

end Sys2Proof.Machine
end

