-- ==== Sys2Proof/Machine/HostInterface.lean ====
section
/-!
DEFINITION. The host's side (45_host_client.md): the calls an agent's program makes, the dispatch of
host requests, the command-line client, and what a caller gets back.
-/

namespace Sys2Proof.Machine

/-- What an agent's program asks for next. -/
inductive Fetched where
  /-- the program is at its end: the agent has exited (10_state.md R31) -/
  | exited
  /-- a call record -/
  | call (c : CallRecord)
  /-- a request on a session the host has not open (45_host_client.md R258) -/
  | noSession
  /-- an open of a path that is neither endpoint's (45_host_client.md R255) -/
  | foreignPath
deriving DecidableEq, Repr

/-- The identifier a session name stands for, given the results of the agent's earlier calls
(30_encoding.md R106). -/
def SessionRef.resolve (results : List Result) : SessionRef → Option Nat
  | .id s => some s
  | .bound k =>
    match results[k]? with
    | some (.session s) => some s
    | _ => none

/-- Replace a bound session name by its identifier; a name no open has bound stays. -/
def Operand.resolve (results : List Result) : Operand → Operand
  | .session r =>
    match SessionRef.resolve results r with
    | some s => .session (.id s)
    | none => .session r
  | o => o

/-- Replace every bound session name of a call record (30_encoding.md R106). -/
def CallRecord.resolve (results : List Result) (c : CallRecord) : CallRecord :=
  ⟨c.opc, c.operands.map (Operand.resolve results)⟩

/-- The endpoint exposed at a host path (45_host_client.md R260); the signal endpoint where both paths
are one (DESIGN CHOICE, unsafe: log 5). -/
def endpointAt (c : Config) (path : String) : Option Endpoint :=
  if path = c.sigPath then some .sig else if path = c.ledPath then some .led else none

/-- The open of an endpoint (45_host_client.md R255). -/
def openCall : Endpoint → Instr
  | .sig => .sigOpen
  | .led => .ledOpen

/-- The read of a session of an endpoint (45_host_client.md R255). -/
def readCall (s maxLen : Nat) : Endpoint → Instr
  | .sig => .sigRead s maxLen
  | .led => .ledRead s maxLen

/-- The write of a session of an endpoint, with all of the data (45_host_client.md R255). -/
def writeCall (s : Nat) (data : List Byte) : Endpoint → Instr
  | .sig => .sigWrite s data
  | .led => .ledWrite s data

/-- The close of a session of an endpoint (45_host_client.md R255). -/
def closeCall (s : Nat) : Endpoint → Instr
  | .sig => .sigClose s
  | .led => .ledClose s

/-- Dispatch a request on an open session to the session's endpoint; a request on a session that is
not open is refused (45_host_client.md R255, R258). -/
def dispatchOn (sessions : List (Nat × Endpoint)) (results : List Result) (h : SessionRef)
    (f : Nat → Endpoint → Instr) : Fetched :=
  match SessionRef.resolve results h with
  | none => .noSession
  | some s =>
    match tableGet sessions s with
    | none => .noSession
    | some k => .call (encode (f s k))

/-- The host's dispatch of a request (45_host_client.md R255). -/
def hostDispatch (c : Config) (sessions : List (Nat × Endpoint)) (results : List Result) :
    HostRequest → Fetched
  | .openPath path =>
    match endpointAt c path with
    | some k => .call (encode (openCall k))
    | none => .foreignPath
  | .read h maxLen => dispatchOn sessions results h (fun s k => readCall s maxLen k)
  | .write h data => dispatchOn sessions results h (fun s k => writeCall s data k)
  | .close h => dispatchOn sessions results h (fun s k => closeCall s k)

/-- The client's argument: exactly one, the bytes of `on` or of `off` (45_host_client.md R261). -/
def clientArgument : List (List Byte) → Option Bool
  | [arg] =>
    if arg = [0x6F, 0x6E] then some true
    else if arg = [0x6F, 0x66, 0x66] then some false
    else none
  | _ => none

/-- The client has another call to make: none for a wrong argument or after a failed open; else an
open, a write and a close (45_host_client.md R261, R262). -/
def clientHasNext (argv : List (List Byte)) (results : List Result) : Bool :=
  match clientArgument argv with
  | none => false
  | some _ =>
    match results with
    | [] => true
    | [.session _] => true
    | [.session _, _] => true
    | _ => false

/-- The client's next call: open LED_PATH, write the value once, close (45_host_client.md R262). Its
open is `led.open` even where SIG_PATH is the same path, a case the spec does not speak of
(DESIGN CHOICE, unsafe: log 5). -/
def clientNext (enc : LedEncoding) (argv : List (List Byte)) (results : List Result) : Fetched :=
  match clientArgument argv with
  | none => .exited
  | some on =>
    match results with
    | [] => .call (encode (openCall .led))
    | [.session s] => .call (encode (ledPseudo enc on s))
    | [.session s, _] => .call (encode (closeCall s .led))
    | _ => .exited

/-- The client's exit status once it has exited: 0 when the open and the write both succeeded, else
1 (45_host_client.md R261, R263; the value 1 is decision D36, log 17). -/
def clientExitStatus (argv : List (List Byte)) (results : List Result) : Option Nat :=
  if clientHasNext argv results then none
  else
    match clientArgument argv, results with
    | some _, .session _ :: .count _ _ :: _ => some 0
    | _, _ => some 1

/-- The agent's program has another call (10_state.md R31). -/
def Agent.hasNext (a : Agent) : Bool :=
  match a.program with
  | .calls l => decide (a.index < l.length)
  | .requests l => decide (a.index < l.length)
  | .client argv => clientHasNext argv a.results

/-- What the agent's program asks for at its call index (10_state.md R31). -/
def Agent.fetch (c : Config) (sessions : List (Nat × Endpoint)) (a : Agent) : Fetched :=
  match a.program with
  | .calls l =>
    match l[a.index]? with
    | some r => .call (CallRecord.resolve a.results r)
    | none => .exited
  | .requests l =>
    match l[a.index]? with
    | some r => hostDispatch c sessions a.results r
    | none => .exited
  | .client argv => clientNext c.ledEncoding argv a.results

/-- The kind of host error an error code is reported as (45_host_client.md R257). -/
def hostErrorKind : ErrorCode → HostErrorKind
  | .invalidSelector => .invalidArgument
  | .invalidValue => .invalidArgument
  | .copyFault => .ioFault
  | e => .other e

/-- The host's number for an error, through the parameter ERRNO (45_host_client.md R257). -/
def hostErrorNumber (e : ErrorCode) : Int := Config.errno (hostErrorKind e)

/-- What a caller gets: the host's number for a failure, or the block's value
(45_host_client.md R255, R257). -/
def callerGets : Result → Sum Int Result
  | .error e => .inl (hostErrorNumber e)
  | r => .inr r

end Sys2Proof.Machine
end

