-- ==== Sys2Proof/Machine/Ops.lean ====
section
/-!
DEFINITION. The named operations every meaning is built from: draws, agents and their schedule,
returns, faults and refusals, register accesses, host transfers, and the run of a call's atomic steps.
-/

namespace Sys2Proof.Machine

/-! ### Draws (00_scope.md R11, log 2) -/

/-- The environment's answer number k from here: a queued one, else one of the free stream. -/
def State.peek (s : State) (k : Nat) : Nat :=
  match s.env[k]? with
  | some v => v
  | none => Config.envDraw (s.envTaken + (k - s.env.length))

/-- The state after k answers of the environment were taken. -/
def State.skip (s : State) (k : Nat) : State :=
  { s with env := s.env.drop k, envTaken := s.envTaken + (k - s.env.length) }

/-- A draw as a Boolean. -/
def asBool (n : Nat) : Bool := n != 0

/-- A draw as a word. -/
def asWord (n : Nat) : Word := BitVec.ofNat 32 n

/-! ### Agents and their schedule (20_memory.md R70, log 1) -/

/-- The agent has an enabled step: a call in progress, or a next call (20_memory.md R70). -/
def Agent.enabled (a : Agent) : Bool :=
  match a.status with
  | .ready => a.hasNext
  | .inCall _ => true
  | .stopped _ _ => false
  | .stuck _ => false

/-- The agents with an enabled step, by number. -/
def State.enabledAgents (s : State) : List Nat :=
  (List.range s.agents.length).filter fun i => (s.agents[i]?).any Agent.enabled

/-- An agent other than the current one has an enabled step. -/
def State.othersEnabled (s : State) : Bool := s.enabledAgents.any fun i => i != s.current

/-- The scheduler's next choice: a queued one, else one of the free stream. -/
def State.schedPeek (s : State) : Nat :=
  match s.sched with
  | v :: _ => v
  | [] => Config.schedDraw s.schedTaken

/-- The state after one choice of the scheduler was taken. -/
def State.schedSkip (s : State) : State :=
  match s.sched with
  | _ :: l => { s with sched := l }
  | [] => { s with schedTaken := s.schedTaken + 1 }

/-- Between two atomic steps of a call the scheduler may turn to another agent that has an enabled
step (20_memory.md R65, R70): whether it does is free. -/
def State.preempt (s : State) : Bool × State :=
  if s.othersEnabled then (asBool s.schedPeek, s.schedSkip) else (false, s)

/-- Choose the agent that takes the next step, freely among those with an enabled one
(20_memory.md R70). -/
def State.reschedule (s : State) : State :=
  match s.enabledAgents with
  | [] => s
  | [i] => { s with current := i }
  | l => { s.schedSkip with current := l.getD (s.schedPeek % l.length) s.current }

/-- The current agent. -/
def State.agent (s : State) : Option Agent := s.agents[s.current]?

/-- Change the current agent. -/
def State.updateAgent (s : State) (f : Agent → Agent) : State :=
  { s with agents := s.agents.modify s.current f }

/-- The current agent's call returns: its result is kept and the call index advances
(10_state.md R31, 60_exceptions.md R300). -/
def State.ret (s : State) (r : Result) : State :=
  s.updateAgent fun a => { a with results := a.results ++ [r], status := .ready }

/-- The current agent's call waits at its next atomic step (20_memory.md R70). -/
def State.park (s : State) (t : Task) : State :=
  s.updateAgent fun a => { a with status := .inCall t }

/-- `raise F(info)`: the pair enters the fault record, the rest of the operation is abandoned and the
agent takes no further step; other agents go on (60_exceptions.md R302). -/
def State.raise (s : State) (f : FaultCode) (info : Nat) : State :=
  { s.updateAgent (fun a => { a with status := .stopped f info }) with
    faults := faultInsert s.faults (f, info) }

/-- `refuse(reason)`: the agent is stuck at the call and the refusal mark is set for the rest of the
run (60_exceptions.md R303). -/
def State.refuse (s : State) (r : RefusalReason) : State :=
  { s.updateAgent (fun a => { a with status := .stuck r }) with refusalMark := true }

/-! ### The reply of an atomic step and the run of a call -/

/-- How one atomic step ends: with a value, with an error, or abandoned by a fault or a refusal, in
which case it changed nothing (60_exceptions.md R300, R317, R318). -/
inductive Reply (α : Type) where
  | ok (a : α) (s : State)
  | error (e : ErrorCode) (s : State)
  | raise (f : FaultCode) (info : Nat)
  | refuse (r : RefusalReason)

/-- Apply a function to the value of a reply. -/
def Reply.map {α β : Type} (f : α → β) : Reply α → Reply β
  | .ok a s => .ok (f a) s
  | .error e s => .error e s
  | .raise c n => .raise c n
  | .refuse r => .refuse r

/-- What an atomic step of a call leads to: another atomic step, or the call's return. -/
inductive Progress (τ : Type) where
  | again (t : τ)
  | done (r : Result)

/-- The end of a call of one atomic step, taken in state s (60_exceptions.md R300 to R303). -/
def finish (s : State) : Reply Result → State
  | .ok r s' => s'.ret r
  | .error e s' => s'.ret (.error e)
  | .raise f info => s.raise f info
  | .refuse r => s.refuse r

/-- A call has at most this many atomic steps; a run cut here would only wait, parked, for the
agent's next turn. -/
def callSteps : Nat := 16

/-- Run a call from the reply of the atomic step just taken in state s: return, stop, or take its
next atomic step, unless the scheduler turns to another agent first (20_memory.md R70, R71). -/
def runCall {τ : Type} (toTask : τ → Task) (advance : τ → State → Reply (Progress τ)) :
    Nat → State → Reply (Progress τ) → State
  | _, _, .ok (.done r) s' => s'.ret r
  | _, _, .error e s' => s'.ret (.error e)
  | _, s, .raise f info => s.raise f info
  | _, s, .refuse r => s.refuse r
  | 0, _, .ok (.again t) s' => s'.park (toTask t)
  | n + 1, _, .ok (.again t) s' =>
    if s'.preempt.1 then s'.preempt.2.park (toTask t)
    else runCall toTask advance n s'.preempt.2 (advance t s'.preempt.2)

/-! ### Fresh identifiers (log 9) -/

/-- `fresh`: an identifier none issued before equals; which one is free (10_state.md R52). -/
def State.freshId (s : State) : Nat := s.fresh + s.peek 0

/-- The state after a fresh identifier was issued. -/
def State.takeFresh (s : State) : State := { s.skip 1 with fresh := s.freshId + 1 }

/-! ### Register accesses (10_state.md R42 to R48, R56) -/

/-- Append one event of the current agent to the history (10_state.md R56). -/
def State.log (s : State) (access : AccessKind) (off : Nat) (v : Word) : State :=
  { s with history := s.history ++ [⟨s.current, access, off, v⟩] }

/-- The value a MemRead of a readable register gives, from the draw of this read
(10_state.md R42, R44). -/
def State.registerValue (s : State) (off : Nat) (drawn : Word) : Word :=
  if off = 0x34 then levReadWord s.cfg.levelLoopback s.fsel s.outlatch drawn
  else fselReadWord s.fsel (off / 4) drawn

/-- The value of the MemRead taken now. -/
def State.memValue (s : State) (off : Nat) : Word := s.registerValue off (asWord (s.peek 0))

/-- The state after one MemRead: one draw, one event, nothing else (10_state.md R44, R47, R56). -/
def State.afterRead (s : State) (off : Nat) : State := (s.skip 1).log .read off (s.memValue off)

/-- The effect of a write on the registers (10_state.md R44 to R46). -/
def State.storeRegister (s : State) (off : Nat) (v : Word) : State :=
  if off = 0x1C then { s with outlatch := s.outlatch ||| v }
  else if off = 0x28 then { s with outlatch := s.outlatch &&& ~~~ v }
  else { s with fsel := s.fsel.store (off / 4) v }

/-- The state after one MemWrite: the register's effect and one event (10_state.md R44 to R46, R56). -/
def State.afterWrite (s : State) (off : Nat) (v : Word) : State :=
  (s.storeRegister off v).log .write off v

/-- `read_word`: the mapping test, the offset test, one MemRead (40_register_block.md R132). -/
def readWord (off : Nat) (s : State) : Reply Word :=
  if s.mapping.isNone then .raise .unmapped off
  else if !readableOffsets.contains off then .raise .badOffset off
  else .ok (s.memValue off) (s.afterRead off)

/-- `write_word`: the mapping test, the offset test, one MemWrite (40_register_block.md R133). -/
def writeWord (off : Nat) (v : Word) (s : State) : Reply Unit :=
  if s.mapping.isNone then .raise .unmapped off
  else if !writableOffsets.contains off then .raise .badOffset off
  else .ok () (s.afterWrite off v)

/-! ### Host transfers and sessions (20_memory.md R78, 10_state.md R52, R53) -/

/-- Whether a host transfer of n bytes succeeds: always for no bytes, else a draw
(20_memory.md R78). -/
def State.copyOk (s : State) (n : Nat) : Bool := n == 0 || asBool (s.peek 0)

/-- The state after a host transfer of n bytes (20_memory.md R78). -/
def State.afterCopy (s : State) (n : Nat) : State := if n = 0 then s else s.skip 1

/-- The session check of 43_signal_endpoint.md and 44_led_endpoint.md. -/
def State.hasSession (s : State) (id : Nat) (k : Endpoint) : Bool :=
  decide (tableGet s.sessions id = some k)

/-- The host's offset of a session, 0 where it keeps none (10_state.md R53, log 11). -/
def State.offset (s : State) (id : Nat) : Nat := (tableGet s.offsets id).getD 0

/-- The host adds the count a read returned to the offset it keeps for the session; a session closed
meanwhile has none (10_state.md R53, 45_host_client.md R255, log 11). -/
def State.advanceOffset (s : State) (id n : Nat) : State :=
  match tableGet s.offsets id with
  | some off => { s with offsets := tableSet s.offsets id (off + n) }
  | none => s

/-- Open a session with a fresh identifier (10_state.md R52). -/
def State.addSession (s : State) (k : Endpoint) : State :=
  { s.takeFresh with sessions := tableSet s.sessions s.freshId k }

/-- Close a session (10_state.md R52). -/
def State.removeSession (s : State) (id : Nat) : State :=
  { s with sessions := tableErase s.sessions id }

end Sys2Proof.Machine
end

