-- ==== Sys2Proof/Machine/Flags.lean ====
section
/-!
DEFINITION. The block has no condition flags (10_state.md R30); its only flags are the registration
flags of R51, read and written here.
-/

namespace Sys2Proof.Machine

/-- kind_reg(kind): sig_reg or led_reg (46_lifecycle.md R272). -/
def State.registered (s : State) : Endpoint → Bool
  | .sig => s.sigReg
  | .led => s.ledReg

/-- kind_reg(kind) <- b (46_lifecycle.md R272, R273). -/
def State.setRegistered (s : State) (k : Endpoint) (b : Bool) : State :=
  match k with
  | .sig => { s with sigReg := b }
  | .led => { s with ledReg := b }

end Sys2Proof.Machine
end

