-- ==== Sys2Proof/Machine/RegisterBlock.lean ====
section
/-!
DEFINITION. The RegisterBlock operations map, unmap, read_word, write_word (40_register_block.md).
-/

namespace Sys2Proof.Machine

/-- `map` (40_register_block.md R130): one atomic step. -/
def mapWindow (base size : Nat) (s : State) : Reply Nat :=
  if s.mapping.isSome then .refuse .mapping
  else if base ≠ s.cfg.pBase ∨ size ≠ pWindow then .refuse .config
  else if asBool (s.peek 0) then
    .ok (s.skip 1).freshId { (s.skip 1).takeFresh with mapping := some (s.skip 1).freshId }
  else .error .mapFailure (s.skip 1)

/-- `unmap` (40_register_block.md R131): one atomic step. -/
def unmapWindow (s : State) : Reply Unit :=
  if s.mapping.isNone then .refuse .mapping
  else .ok () { s with mapping := none }

/-- The meaning of `map` (OPC 0x00, R130). -/
def execMap (base size : Nat) (s : State) : Host.Outcome State Fault Refusal :=
  .next (finish s ((mapWindow base size s).map Result.handle))

/-- The meaning of `unmap` (OPC 0x01, R131). -/
def execUnmap (s : State) : Host.Outcome State Fault Refusal :=
  .next (finish s ((unmapWindow s).map fun _ => Result.ok))

/-- The meaning of `read_word` (OPC 0x02, R132). -/
def execReadWord (off : Nat) (s : State) : Host.Outcome State Fault Refusal :=
  .next (finish s ((readWord off s).map Result.word))

/-- The meaning of `write_word` (OPC 0x03, R133). -/
def execWriteWord (off : Nat) (v : Word) (s : State) : Host.Outcome State Fault Refusal :=
  .next (finish s ((writeWord off v s).map fun _ => Result.ok))

end Sys2Proof.Machine
end

