-- ==== Sys2Proof/Machine/PinControl.lean ====
section
/-!
DEFINITION. The PinConfigurator, LevelSensor and LevelDriver operations (41_pin_control.md).
-/

namespace Sys2Proof.Machine

/-- `set_function` up to its read of FSELk, step 1 (41_pin_control.md R150). -/
def setFunctionRead (pin : Nat) (mode : BitVec 3) (s : State) : Reply Word :=
  if mode.toNat > 1 then .refuse .mode
  else if pin ≥ numPins then .raise .pinRange pin
  else readWord (fselOffset pin) s

/-- `set_function`'s write of FSELk, step 2 (41_pin_control.md R150, 30_encoding.md R97). -/
def setFunctionWrite (pin : Nat) (mode : BitVec 3) (w : Word) (s : State) : Reply Unit :=
  writeWord (fselOffset pin) (withField w pin mode) s

/-- `set_function` after its first step (41_pin_control.md R150). -/
def setFunctionStart (pin : Nat) (mode : BitVec 3) (s : State) : Reply (Progress SetFunctionTask) :=
  (setFunctionRead pin mode s).map fun w => .again (.writeBack pin mode w)

/-- The atomic step `set_function` waits at (41_pin_control.md R150). -/
def setFunctionAdvance : SetFunctionTask → State → Reply (Progress SetFunctionTask)
  | .writeBack pin mode w, s => (setFunctionWrite pin mode w s).map fun _ => .done .ok

/-- `read_level` (41_pin_control.md R151): one MemRead of LEV. -/
def readLevel (pin : Nat) (s : State) : Reply Bool :=
  if pin ≥ levelPins then .raise .pinRange pin
  else (readWord 0x34 s).map fun w => w.getLsbD pin

/-- The tests and the one MemWrite `set_high` and `set_low` share (41_pin_control.md R152, R153). -/
def drivePin (off pin : Nat) (s : State) : Reply Unit :=
  if pin ≥ levelPins then .raise .pinRange pin
  else if s.fsel.field pin ≠ modeOutput then .raise .driveNotOutput pin
  else writeWord off (pinBit pin) s

/-- `set_high` (41_pin_control.md R152): one MemWrite of SET. -/
def setHigh (pin : Nat) (s : State) : Reply Unit := drivePin 0x1C pin s

/-- `set_low` (41_pin_control.md R153): one MemWrite of CLR. -/
def setLow (pin : Nat) (s : State) : Reply Unit := drivePin 0x28 pin s

/-- The meaning of `set_function` (OPC 0x20, R150). -/
def execSetFunction (pin : Nat) (mode : BitVec 3) (s : State) : Host.Outcome State Fault Refusal :=
  .next (runCall Task.setFunction setFunctionAdvance callSteps s (setFunctionStart pin mode s))

/-- The meaning of `read_level` (OPC 0x40, R151). -/
def execReadLevel (pin : Nat) (s : State) : Host.Outcome State Fault Refusal :=
  .next (finish s ((readLevel pin s).map Result.bool))

/-- The meaning of `set_high` (OPC 0x60, R152). -/
def execSetHigh (pin : Nat) (s : State) : Host.Outcome State Fault Refusal :=
  .next (finish s ((setHigh pin s).map fun _ => Result.ok))

/-- The meaning of `set_low` (OPC 0x61, R153). -/
def execSetLow (pin : Nat) (s : State) : Host.Outcome State Fault Refusal :=
  .next (finish s ((setLow pin s).map fun _ => Result.ok))

end Sys2Proof.Machine
end

