-- ==== Sys2Proof/Machine/ChannelSelector.lean ====
section
/-!
DEFINITION. The ChannelSelector operations select and current (42_channel_selector.md).
-/

namespace Sys2Proof.Machine

/-- `select` (42_channel_selector.md R180): test and update in one atomic step. -/
def selectChannel (b : Byte) (s : State) : Reply Nat :=
  match selectorChannel b with
  | some c => .ok (currentPin s.cfg c) { s with sel := c }
  | none => .error .invalidSelector s

/-- `current` (42_channel_selector.md R181): one atomic step. -/
def currentChannelPin (s : State) : Nat := currentPin s.cfg s.sel

/-- The meaning of `select` (OPC 0x80, R180). -/
def execSelect (b : Byte) (s : State) : Host.Outcome State Fault Refusal :=
  .next (finish s ((selectChannel b s).map Result.pin))

/-- The meaning of `current` (OPC 0x81, R181). -/
def execCurrent (s : State) : Host.Outcome State Fault Refusal :=
  .next (finish s (.ok (.pin (currentChannelPin s)) s))

end Sys2Proof.Machine
end

