-- ==== Sys2Proof/Machine/SignalEndpoint.lean ====
section
/-!
DEFINITION. The signal endpoint's operations (43_signal_endpoint.md), and the open both endpoints
share (44_led_endpoint.md: "identical open/close contract").
-/

namespace Sys2Proof.Machine

/-- The host's access check and the registration test of an open, and the new session
(43_signal_endpoint.md R195, 44_led_endpoint.md R225). -/
def openSession (k : Endpoint) (s : State) : Reply Nat :=
  if asBool (s.peek 0) then .error .accessDenied (s.skip 1)
  else if !s.registered k then .error .noDevice (s.skip 1)
  else .ok (s.skip 1).freshId ((s.skip 1).addSession k)

/-- `sig.open` (43_signal_endpoint.md R195): the host's offset of the new session is 0. -/
def sigOpen (s : State) : Reply Nat :=
  match openSession .sig s with
  | .ok id s' => .ok id { s' with offsets := tableSet s'.offsets id 0 }
  | r => r

/-- `sig.read` up to its `current`, step 1 (43_signal_endpoint.md R196). -/
def sigReadStart (id maxLen : Nat) (s : State) : Reply (Progress SigReadTask) :=
  if !s.hasSession id .sig then .refuse .session
  else .ok (.again (.sample id maxLen (s.offset id) (currentChannelPin s))) s

/-- The level sample of `sig.read`, step 2; where no byte is to be returned the call ends here, with
no transfer and the host's offset as it is (43_signal_endpoint.md R196). -/
def sigReadSample (id maxLen off pin : Nat) (s : State) : Reply (Progress SigReadTask) :=
  match readLevel pin s with
  | .ok level s' =>
    if readCount maxLen off = 0 then .ok (.done (.count 0 [])) s'
    else .ok (.again (.copyOut id (readBytes level maxLen off))) s'
  | .error e s' => .error e s'
  | .raise f info => .raise f info
  | .refuse r => .refuse r

/-- The transfer of `sig.read`, step 3, and the host's addition of the count to the offset
(43_signal_endpoint.md R196, 10_state.md R53). -/
def sigReadCopy (id : Nat) (bytes : List Byte) (s : State) : Reply (Progress SigReadTask) :=
  if s.copyOk bytes.length then
    .ok (.done (.count bytes.length bytes))
      ((s.afterCopy bytes.length).advanceOffset id bytes.length)
  else .error .copyFault (s.afterCopy bytes.length)

/-- The atomic step `sig.read` waits at (43_signal_endpoint.md R196). -/
def sigReadAdvance : SigReadTask → State → Reply (Progress SigReadTask)
  | .sample id maxLen off pin, s => sigReadSample id maxLen off pin s
  | .copyOut id bytes, s => sigReadCopy id bytes s

/-- `sig.write` up to its transfer of the first byte (43_signal_endpoint.md R197). -/
def sigWriteStart (id : Nat) (data : List Byte) (s : State) : Reply (Progress SigWriteTask) :=
  if !s.hasSession id .sig then .refuse .session
  else
    match data with
    | [] => .error .invalidSelector s
    | b :: _ =>
      if s.copyOk 1 then .ok (.again (.select b)) (s.afterCopy 1)
      else .error .copyFault (s.afterCopy 1)

/-- The selection of `sig.write`: one byte is consumed (43_signal_endpoint.md R197). -/
def sigWriteAdvance : SigWriteTask → State → Reply (Progress SigWriteTask)
  | .select b, s => (selectChannel b s).map fun _ => .done (.count 1 [])

/-- `sig.close` (43_signal_endpoint.md R198): the session and the host's offset go. -/
def sigClose (id : Nat) (s : State) : Reply Unit :=
  if !s.hasSession id .sig then .refuse .session
  else .ok () { s.removeSession id with offsets := tableErase s.offsets id }

/-- The meaning of `sig.open` (OPC 0xA0, R195). -/
def execSigOpen (s : State) : Host.Outcome State Fault Refusal :=
  .next (finish s ((sigOpen s).map Result.session))

/-- The meaning of `sig.read` (OPC 0xA1, R196). -/
def execSigRead (id maxLen : Nat) (s : State) : Host.Outcome State Fault Refusal :=
  .next (runCall Task.sigRead sigReadAdvance callSteps s (sigReadStart id maxLen s))

/-- The meaning of `sig.write` (OPC 0xA2, R197). -/
def execSigWrite (id : Nat) (data : List Byte) (s : State) : Host.Outcome State Fault Refusal :=
  .next (runCall Task.sigWrite sigWriteAdvance callSteps s (sigWriteStart id data s))

/-- The meaning of `sig.close` (OPC 0xA3, R198). -/
def execSigClose (id : Nat) (s : State) : Host.Outcome State Fault Refusal :=
  .next (finish s ((sigClose id s).map fun _ => Result.ok))

end Sys2Proof.Machine
end

