-- ==== Sys2Proof/Machine/LedEndpoint.lean ====
section
/-!
DEFINITION. The LED endpoint's operations (44_led_endpoint.md).
-/

namespace Sys2Proof.Machine

/-- `led.open` (44_led_endpoint.md R225). -/
def ledOpen (s : State) : Reply Nat := openSession .led s

/-- `led.read` (44_led_endpoint.md R228): NotSupported, nothing changes. -/
def ledRead (id : Nat) (s : State) : Reply Result :=
  if !s.hasSession id .led then .refuse .session else .error .notSupported s

/-- `led.write` up to its transfer and the decoding of the bytes transferred, step 1
(44_led_endpoint.md R226). -/
def ledWriteStart (id : Nat) (data : List Byte) (s : State) : Reply (Progress LedWriteTask) :=
  if !s.hasSession id .led then .refuse .session
  else
    let m := ledTaken s.cfg.ledEncoding data.length
    if s.copyOk m then
      match ledValue s.cfg.ledEncoding (data.take m) with
      | some v => .ok (.again (.drive v m)) (s.afterCopy m)
      | none => .error .invalidValue (s.afterCopy m)
    else .error .copyFault (s.afterCopy m)

/-- The drive of `led.write`, step 2: 0 is low, any other value high (44_led_endpoint.md R226,
30_encoding.md R104). -/
def ledWriteAdvance : LedWriteTask → State → Reply (Progress LedWriteTask)
  | .drive v m, s =>
    (if v = 0 then setLow s.cfg.outputPin s else setHigh s.cfg.outputPin s).map
      fun _ => .done (.count m [])

/-- `led.close` (44_led_endpoint.md R227): the output latch keeps its value. -/
def ledClose (id : Nat) (s : State) : Reply Unit :=
  if !s.hasSession id .led then .refuse .session else .ok () (s.removeSession id)

/-- The meaning of `led.open` (OPC 0xC0, R225). -/
def execLedOpen (s : State) : Host.Outcome State Fault Refusal :=
  .next (finish s ((ledOpen s).map Result.session))

/-- The meaning of `led.read` (OPC 0xC1, R228); the length asked for has no effect. -/
def execLedRead (id _maxLen : Nat) (s : State) : Host.Outcome State Fault Refusal :=
  .next (finish s (ledRead id s))

/-- The meaning of `led.write` (OPC 0xC2, R226). -/
def execLedWrite (id : Nat) (data : List Byte) (s : State) : Host.Outcome State Fault Refusal :=
  .next (runCall Task.ledWrite ledWriteAdvance callSteps s (ledWriteStart id data s))

/-- The meaning of `led.close` (OPC 0xC3, R227). -/
def execLedClose (id : Nat) (s : State) : Host.Outcome State Fault Refusal :=
  .next (finish s ((ledClose id s).map fun _ => Result.ok))

end Sys2Proof.Machine
end

