-- ==== Sys2Proof/Machine/Lifecycle.lean ====
section
/-!
DEFINITION. The lifecycle operations startup, teardown, register_endpoint, deregister_endpoint
(46_lifecycle.md).
-/

namespace Sys2Proof.Machine

/-- `register_endpoint` (46_lifecycle.md R272): one atomic step. -/
def registerEndpoint (k : Endpoint) (s : State) : Reply Unit :=
  if s.registered k then .refuse .lifecycle
  else if asBool (s.peek 0) then .ok () ((s.skip 1).setRegistered k true)
  else .error .registrationFailure (s.skip 1)

/-- `deregister_endpoint` (46_lifecycle.md R273): one atomic step. -/
def deregisterEndpoint (k : Endpoint) (s : State) : Reply Unit :=
  if !s.registered k then .refuse .lifecycle
  else .ok () (s.setRegistered k false)

/-- The pin a startup configures at each place of its order (46_lifecycle.md R270). -/
def slotPin (c : Config) : ConfigSlot → Nat
  | .input1 => c.inputPin1
  | .input2 => c.inputPin2
  | .output => c.outputPin

/-- The mode it gives that pin (46_lifecycle.md R270). -/
def slotMode : ConfigSlot → BitVec 3
  | .input1 => modeInput
  | .input2 => modeInput
  | .output => modeOutput

/-- What startup does after a pin's configuration (46_lifecycle.md R270). -/
def afterSlot : ConfigSlot → StartupTask
  | .input1 => .readFsel .input2
  | .input2 => .readFsel .output
  | .output => .selectFirst

/-- `startup`'s phase test and phase <- Starting (46_lifecycle.md R270). -/
def startupStart (s : State) : Reply (Progress StartupTask) :=
  if s.phase ≠ .absent then .refuse .lifecycle
  else .ok (.again .map) { s with phase := .starting }

/-- Go on to another step of a startup after a value, or roll back to another after an error. -/
def orRollback {α : Type} (r : Reply α) (go back : StartupTask) : Reply (Progress StartupTask) :=
  match r with
  | .ok _ s => .ok (.again go) s
  | .error _ s => .ok (.again back) s
  | .raise f info => .raise f info
  | .refuse r => .refuse r

/-- The atomic step `startup` waits at (46_lifecycle.md R270). -/
def startupAdvance : StartupTask → State → Reply (Progress StartupTask)
  | .map, s =>
    orRollback (mapWindow s.cfg.pBase pWindow s) (.readFsel .input1) (.enterAbsent .mapFailure)
  | .readFsel c, s =>
    (setFunctionRead (slotPin s.cfg c) (slotMode c) s).map fun w => .again (.writeFsel c w)
  | .writeFsel c w, s =>
    (setFunctionWrite (slotPin s.cfg c) (slotMode c) w s).map fun _ => .again (afterSlot c)
  | .selectFirst, s => .ok (.again .registerSig) { s with sel := .ch1 }
  | .registerSig, s => orRollback (registerEndpoint .sig s) .registerLed .rollbackMap
  | .registerLed, s => orRollback (registerEndpoint .led s) .enterRunning .rollbackSig
  | .enterRunning, s => .ok (.done .ok) { s with phase := .running }
  | .rollbackSig, s => (deregisterEndpoint .sig s).map fun _ => .again .rollbackMap
  | .rollbackMap, s => (unmapWindow s).map fun _ => .again (.enterAbsent .registrationFailure)
  | .enterAbsent e, s => .error e { s with phase := .absent }

/-- `teardown`'s phase test and phase <- Stopping (46_lifecycle.md R271). -/
def teardownStart (s : State) : Reply (Progress TeardownTask) :=
  if s.phase ≠ .running then .refuse .lifecycle
  else .ok (.again .driveLow) { s with phase := .stopping }

/-- The atomic step `teardown` waits at (46_lifecycle.md R271). -/
def teardownAdvance : TeardownTask → State → Reply (Progress TeardownTask)
  | .driveLow, s => (setLow s.cfg.outputPin s).map fun _ => .again .unmap
  | .unmap, s => (unmapWindow s).map fun _ => .again .deregisterSig
  | .deregisterSig, s => (deregisterEndpoint .sig s).map fun _ => .again .deregisterLed
  | .deregisterLed, s => (deregisterEndpoint .led s).map fun _ => .again .enterAbsent
  | .enterAbsent, s => .ok (.done .ok) { s with phase := .absent }

/-- The meaning of `startup` (OPC 0xE0, R270). -/
def execStartup (s : State) : Host.Outcome State Fault Refusal :=
  .next (runCall Task.startup startupAdvance callSteps s (startupStart s))

/-- The meaning of `teardown` (OPC 0xE1, R271). -/
def execTeardown (s : State) : Host.Outcome State Fault Refusal :=
  .next (runCall Task.teardown teardownAdvance callSteps s (teardownStart s))

/-- The meaning of `register_endpoint` (OPC 0xE2, R272). -/
def execRegisterEndpoint (k : Endpoint) (s : State) : Host.Outcome State Fault Refusal :=
  .next (finish s ((registerEndpoint k s).map fun _ => Result.ok))

/-- The meaning of `deregister_endpoint` (OPC 0xE3, R273). -/
def execDeregisterEndpoint (k : Endpoint) (s : State) : Host.Outcome State Fault Refusal :=
  .next (finish s ((deregisterEndpoint k s).map fun _ => Result.ok))

end Sys2Proof.Machine
end

