-- ==== Sys2Proof/Machine/Dispatch.lean ====
section
/-!
DEFINITION. The one match from an operation to its meaning.
-/

namespace Sys2Proof.Machine

def exec (i : Instr) (s : State) : Host.Outcome State Fault Refusal :=
  match i with
  | .map base size => Sys2Proof.Machine.execMap base size s
  | .unmap => Sys2Proof.Machine.execUnmap s
  | .readWord off => Sys2Proof.Machine.execReadWord off s
  | .writeWord off v => Sys2Proof.Machine.execWriteWord off v s
  | .setFunction pin mode => Sys2Proof.Machine.execSetFunction pin mode s
  | .readLevel pin => Sys2Proof.Machine.execReadLevel pin s
  | .setHigh pin => Sys2Proof.Machine.execSetHigh pin s
  | .setLow pin => Sys2Proof.Machine.execSetLow pin s
  | .select b => Sys2Proof.Machine.execSelect b s
  | .current => Sys2Proof.Machine.execCurrent s
  | .sigOpen => Sys2Proof.Machine.execSigOpen s
  | .sigRead session maxLen => Sys2Proof.Machine.execSigRead session maxLen s
  | .sigWrite session data => Sys2Proof.Machine.execSigWrite session data s
  | .sigClose session => Sys2Proof.Machine.execSigClose session s
  | .ledOpen => Sys2Proof.Machine.execLedOpen s
  | .ledRead session maxLen => Sys2Proof.Machine.execLedRead session maxLen s
  | .ledWrite session data => Sys2Proof.Machine.execLedWrite session data s
  | .ledClose session => Sys2Proof.Machine.execLedClose session s
  | .startup => Sys2Proof.Machine.execStartup s
  | .teardown => Sys2Proof.Machine.execTeardown s
  | .registerEndpoint kind => Sys2Proof.Machine.execRegisterEndpoint kind s
  | .deregisterEndpoint kind => Sys2Proof.Machine.execDeregisterEndpoint kind s

end Sys2Proof.Machine
end

