-- ==== Sys2Proof/Machine/Turn.lean ====
section
/-!
DEFINITION. One turn of the machine: the current agent issues its next call or goes on with the call
it is in, and the scheduler chooses the agent of the next turn (10_state.md R31, 20_memory.md R70).
-/

namespace Sys2Proof.Machine

/-- The row may be issued by an agent of this kind (30_encoding.md R94; `block` is the model's own
kind for internal rows, log 7). -/
def mayIssue (k : AgentKind) (o : Op) : Bool :=
  match o.unit, k with
  | .signalEndpoint, .caller => true
  | .ledEndpoint, .caller => true
  | .lifecycle, .lifecycle => o == .startup || o == .teardown
  | .lifecycle, .block => o == .registerEndpoint || o == .deregisterEndpoint
  | .registerBlock, .block => true
  | .pinConfigurator, .block => true
  | .levelSensor, .block => true
  | .levelDriver, .block => true
  | .channelSelector, .block => true
  | _, _ => false

/-- What becomes of the call an agent issues. -/
inductive Issued where
  /-- the call is performed -/
  | call (i : Instr)
  /-- the call is refused (60_exceptions.md R315) -/
  | refuse (r : RefusalReason)
  /-- the operands do not have the shape of the OPC (30_encoding.md R91) -/
  | malformed
  /-- an open of a path the block does not serve (45_host_client.md R255) -/
  | foreignPath
  /-- there is no further call (10_state.md R31) -/
  | exited
deriving DecidableEq, Repr

/-- Decode a call record and test who issues it (30_encoding.md R91, R94, R96). Where several refusals
apply the first of these is taken: R_OPCODE, R_SESSION for an unbound name, a malformed operand list,
R_INTERNAL, and only then a refusal of the operation itself. 60_exceptions.md R317 puts refusals first
and orders none of them: the order is the model's (DESIGN CHOICE, unsafe: log 26). -/
def judge (k : AgentKind) (c : CallRecord) : Issued :=
  match decode c with
  | .error .opcode => .refuse .opcode
  | .error .session => .refuse .session
  | .error .operands => .malformed
  | .ok i => if mayIssue k i.op then .call i else .refuse .internal

/-- The call an agent issues next; no call is performed under a configuration that breaks
00_scope.md R9 (R_CONFIG, 60_exceptions.md R315, log 15). A host request on a session that is not open
is refused with R_SESSION whatever the kind of the agent (DESIGN CHOICE, unsafe: log 26). -/
def State.issue (s : State) (a : Agent) : Issued :=
  match a.fetch s.cfg s.sessions with
  | .exited => .exited
  | .noSession => if s.cfg.valid then .refuse .session else .refuse .config
  | .foreignPath => if s.cfg.valid then .foreignPath else .refuse .config
  | .call c => if s.cfg.valid then judge a.kind c else .refuse .config

/-- Go on with a call in progress at the atomic step it waits at (20_memory.md R70, R71). -/
def resume (t : Task) (s : State) : State :=
  match t with
  | .setFunction t => runCall Task.setFunction setFunctionAdvance callSteps s (setFunctionAdvance t s)
  | .sigRead t => runCall Task.sigRead sigReadAdvance callSteps s (sigReadAdvance t s)
  | .sigWrite t => runCall Task.sigWrite sigWriteAdvance callSteps s (sigWriteAdvance t s)
  | .ledWrite t => runCall Task.ledWrite ledWriteAdvance callSteps s (ledWriteAdvance t s)
  | .startup t => runCall Task.startup startupAdvance callSteps s (startupAdvance t s)
  | .teardown t => runCall Task.teardown teardownAdvance callSteps s (teardownAdvance t s)

/-- Why there is no further step: a state with a fault or a refusal on record is not final
(10_state.md R55, 60_exceptions.md R303). -/
def State.stopReason (s : State) : Fault :=
  if s.faults = [] ∧ s.refusalMark = false then .runComplete else .runNotFinal

/-- The current agent has an enabled step. -/
def State.currentEnabled (s : State) : Bool := s.agent.any Agent.enabled

/-- Make sure the current agent has an enabled step, where any has. -/
def State.settle (s : State) : State := if s.currentEnabled then s else s.reschedule

/-- After a call's steps the scheduler chooses the next agent (20_memory.md R70). -/
def thenReschedule : Host.Outcome State Fault Refusal → Host.Outcome State Fault Refusal
  | .next s => .next s.reschedule
  | .fault f => .fault f
  | .refused r => .refused r

/-- The turn of an agent in state s. -/
def agentTurn (a : Agent) (s : State) : Host.Outcome State Fault Refusal :=
  match a.status with
  | .inCall t => .next (resume t s).reschedule
  | .ready =>
    match s.issue a with
    | .call i => thenReschedule (exec i s)
    | .refuse r => .next (s.refuse r).reschedule
    | .malformed => .refused .malformedCall
    | .foreignPath => .refused .foreignPath
    | .exited => .fault s.stopReason
  | .stopped _ _ => .fault s.stopReason
  | .stuck _ => .fault s.stopReason

/-- One turn of the machine. -/
def turn (s : State) : Host.Outcome State Fault Refusal :=
  match s.settle.agent with
  | some a => agentTurn a s.settle
  | none => .fault s.settle.stopReason

/-- A kind of agent that may issue the row (30_encoding.md R94). -/
def issuer (o : Op) : AgentKind :=
  match o with
  | .startup | .teardown => .lifecycle
  | .sigOpen | .sigRead | .sigWrite | .sigClose | .ledOpen | .ledRead | .ledWrite | .ledClose => .caller
  | _ => .block

/-- An agent at its first call, with one call record as its program. -/
def oneCallAgent (c : CallRecord) : Agent :=
  ⟨match Op.ofCode c.opc with | some o => issuer o | none => .caller, .calls [c], [], .ready⟩

/-- Add an agent and give it the next turn. -/
def State.withAgent (s : State) (a : Agent) : State :=
  { s with agents := s.agents ++ [a], current := s.agents.length }

end Sys2Proof.Machine
end

