-- ==== Sys2Proof/Machine/Step.lean ====
section
/-!
DEFINITION. One step of the machine, and how a call is placed for the next step.
-/

namespace Sys2Proof.Machine

/-- One step: one turn of the current agent (10_state.md R31, 20_memory.md R70). -/
def step (s : State) : Host.Outcome State Fault Refusal := turn s

/-- The state with the call of an opcode-table word placed as the program of a new agent of a kind
that may issue it, that agent having the next turn (log 6, log 8). -/
def State.withFetchWord (s : State) (nbits w : Nat) : State :=
  s.withAgent (oneCallAgent ((tableRecord nbits w).getD ⟨BitVec.ofNat 8 w, []⟩))

end Sys2Proof.Machine
end

