-- ==== Sys2Proof/Safety.lean ====
section
/-!
DEFINITION. What counts as a good state and a final one, and the invariants the claims are about.
-/

namespace Sys2Proof.Machine

/-- The scheduler's choice number k from here: a queued one, else one of the free stream
(20_memory.md R70, log 1). -/
def State.choice (s : State) (k : Nat) : Nat :=
  match s.sched[k]? with
  | some v => v
  | none => Config.schedDraw (s.schedTaken + (k - s.sched.length))

/-- The current call goes on at the next n places between two of its atomic steps: no other agent has
an enabled step, or the scheduler turns to none there (20_memory.md R70). -/
abbrev State.Undisturbed (s : State) (n : Nat) : Prop :=
  s.othersEnabled = true → ∀ k, k < n → asBool (s.choice k) = false

/-- The state after the scheduler's choices at n such places: one each where another agent has an
enabled step, none where the current one is alone (20_memory.md R70, log 1). -/
def State.passed (s : State) (n : Nat) : State :=
  if s.othersEnabled then
    { s with sched := s.sched.drop n, schedTaken := s.schedTaken + (n - s.sched.length) }
  else s

/-- A call between two atomic steps, the next of which is t: it waits there where another agent has an
enabled step and the scheduler turns to it, and takes the step where not (20_memory.md R65, R70). -/
def State.goOn (s : State) (t : Task) : State :=
  if s.othersEnabled = true ∧ asBool (s.choice 0) = true then (s.passed 1).park t
  else resume t (s.passed 1)

/-- Nothing was raised and nothing refused (10_state.md R55, 60_exceptions.md R303). -/
def State.clean (s : State) : Bool := s.faults.isEmpty && !s.refusalMark

/-- A final state: every agent has run its program to the end and nothing was raised or refused
(10_state.md R31, R55). -/
def State.final (s : State) : Bool :=
  s.clean && s.agents.all fun a => a.status == .ready && !a.hasNext

/-- The write of a function-select word that is still to come is one whose pin was tested before the
read (41_pin_control.md R150). -/
def Task.pinTested (c : Config) : Task → Prop
  | .setFunction (.writeBack p _ _) => p < numPins
  | .startup (.writeFsel k _) => slotPin c k < numPins
  | _ => True

/-- The maps and the fault record are in their one form, identifiers are below `fresh`, the host
keeps an offset for exactly the open signal sessions, and the pins of calls in progress were tested
(10_state.md R52, R53, R55, 41_pin_control.md R150). -/
structure State.WF (s : State) : Prop where
  sessions : tableWf s.sessions = true
  offsets : tableWf s.offsets = true
  faults : faultsWf s.faults = true
  bound : ∀ id k, tableGet s.sessions id = some k → id < s.fresh
  owned : ∀ id, (tableGet s.offsets id).isSome = true ↔ tableGet s.sessions id = some .sig
  tested : ∀ a ∈ s.agents, ∀ k, a.status = .inCall k → k.pinTested s.cfg

/-- The operation a call in progress belongs to (20_memory.md R70). -/
def Task.op : Task → Op
  | .setFunction _ => .setFunction
  | .sigRead _ => .sigRead
  | .sigWrite _ => .sigWrite
  | .ledWrite _ => .ledWrite
  | .startup _ => .startup
  | .teardown _ => .teardown

/-- The operation whose atomic steps the next step runs: that of the call the current agent issues or
goes on with; none where it issues no call that is performed (10_state.md R31, 20_memory.md R70). -/
def State.stepOp (s : State) : Option Op :=
  match s.settle.agent with
  | none => none
  | some a =>
    match a.status with
    | .inCall k => some k.op
    | .ready =>
      match s.settle.issue a with
      | .call i => some i.op
      | _ => none
    | .stopped _ _ => none
    | .stuck _ => none

/-- The configured pins have the functions startup gives them (41_pin_control.md R155). -/
def State.configured (s : State) : Prop :=
  s.fsel.field s.cfg.inputPin1 = modeInput ∧ s.fsel.field s.cfg.inputPin2 = modeInput ∧
    s.fsel.field s.cfg.outputPin = modeOutput

/-- The pins a startup has configured before it comes to a place of its order
(46_lifecycle.md R270). -/
def State.configuredBefore (s : State) : ConfigSlot → Prop
  | .input1 => True
  | .input2 => s.fsel.field s.cfg.inputPin1 = modeInput
  | .output => s.fsel.field s.cfg.inputPin1 = modeInput ∧ s.fsel.field s.cfg.inputPin2 = modeInput

/-- Mapped, with these registration flags. -/
def State.mappedWith (s : State) (sig led : Bool) : Prop :=
  s.mapping.isSome = true ∧ s.sigReg = sig ∧ s.ledReg = led

/-- Not mapped, with these registration flags. -/
def State.unmappedWith (s : State) (sig led : Bool) : Prop :=
  s.mapping = none ∧ s.sigReg = sig ∧ s.ledReg = led

/-- What holds while a startup waits at one of its atomic steps (46_lifecycle.md R270). -/
def State.startupStage (s : State) : StartupTask → Prop
  | .map => s.unmappedWith false false
  | .readFsel c => s.mappedWith false false ∧ s.configuredBefore c
  | .writeFsel c w =>
    s.mappedWith false false ∧ s.configuredBefore c ∧
      w &&& fselPinMask (fselIndex (slotPin s.cfg c)) = s.fsel.word (fselIndex (slotPin s.cfg c))
  | .selectFirst => s.mappedWith false false ∧ s.configured
  | .registerSig => s.mappedWith false false ∧ s.configured
  | .registerLed => s.mappedWith true false ∧ s.configured
  | .enterRunning => s.mappedWith true true ∧ s.configured
  | .rollbackSig => s.mappedWith true false
  | .rollbackMap => s.mappedWith false false
  | .enterAbsent _ => s.unmappedWith false false

/-- What holds while a teardown waits at one of its atomic steps (46_lifecycle.md R271). -/
def State.teardownStage (s : State) : TeardownTask → Prop
  | .driveLow => s.mappedWith true true ∧ s.configured
  | .unmap => s.mappedWith true true
  | .deregisterSig => s.unmappedWith true true
  | .deregisterLed => s.unmappedWith false true
  | .enterAbsent => s.unmappedWith false false

/-- The agent is not inside a startup or a teardown. -/
def Agent.noLifecycleTask (a : Agent) : Prop :=
  (∀ t, a.status ≠ .inCall (.startup t)) ∧ ∀ t, a.status ≠ .inCall (.teardown t)

/-- No agent but number i is inside a startup or a teardown. -/
def State.onlyAgent (s : State) (i : Nat) : Prop :=
  ∀ j a, j ≠ i → s.agents[j]? = some a → a.noLifecycleTask

/-- The phase says which lifecycle call is in progress and what holds of the mapping, the
registration flags and the configured pins (10_state.md R54, 46_lifecycle.md R270, R271). -/
def State.phaseOk (s : State) : Prop :=
  match s.phase with
  | .absent => s.unmappedWith false false ∧ ∀ a ∈ s.agents, a.noLifecycleTask
  | .starting =>
    ∃ i a t, s.agents[i]? = some a ∧ a.status = .inCall (.startup t) ∧ s.startupStage t ∧
      s.onlyAgent i
  | .running => (s.mappedWith true true ∧ s.configured) ∧ ∀ a ∈ s.agents, a.noLifecycleTask
  | .stopping =>
    ∃ i a t, s.agents[i]? = some a ∧ a.status = .inCall (.teardown t) ∧ s.teardownStage t ∧
      s.onlyAgent i

/-- An agent of the spec's own kinds, in no direct set_function, whose sampled pin is a configured
input (30_encoding.md R94, 41_pin_control.md R155, 43_signal_endpoint.md R196). -/
structure Agent.Regular (c : Config) (a : Agent) : Prop where
  kind : a.kind ≠ .block
  noSetFunction : ∀ t, a.status ≠ .inCall (.setFunction t)
  samples : ∀ id n off p, a.status = .inCall (.sigRead (.sample id n off p)) →
    p = c.inputPin1 ∨ p = c.inputPin2

/-- The block is used as the spec has it used: a valid configuration, only callers and lifecycle
agents, and a phase that says what holds (00_scope.md R9, 30_encoding.md R94, 41_pin_control.md
R155). -/
structure State.Orderly (s : State) : Prop where
  valid : s.cfg.valid = true
  agents : ∀ a ∈ s.agents, a.Regular s.cfg
  phase : s.phaseOk

end Sys2Proof.Machine
end

