-- ==== Sys2Proof/Certificates/Slice0/Obligations.lean ====
section
/-!
DEFINITION. The statements about the block, for the provers. Each is about every state and every
operand its hypotheses admit; the states include every queue of environment answers and scheduler
choices, and every configuration.
-/

open Sys2Proof Sys2Proof.Machine

/-! ### Encoding -/

/-- 30_encoding.md R92: the words of all 22 rows, written from the table, and a word of no row.
Rests on the spec's own decision D3, and the model's log entry 8. -/
def Obligations.TableWordsDecode : Prop :=
  (decodeTableWord 8 0b00000000 = some (.map 0 0) ∧
    decodeTableWord 8 0b00000001 = some .unmap ∧
    decodeTableWord 8 0b00000010 = some (.readWord 0) ∧
    decodeTableWord 8 0b00000011 = some (.writeWord 0 0)) ∧
  (decodeTableWord 8 0b00100000 = some (.setFunction 0 0) ∧
    decodeTableWord 8 0b01000000 = some (.readLevel 0) ∧
    decodeTableWord 8 0b01100000 = some (.setHigh 0) ∧
    decodeTableWord 8 0b01100001 = some (.setLow 0)) ∧
  (decodeTableWord 8 0b10000000 = some (.select 0) ∧
    decodeTableWord 8 0b10000001 = some .current) ∧
  (decodeTableWord 8 0b10100000 = some .sigOpen ∧
    decodeTableWord 8 0b10100001 = some (.sigRead 0 0) ∧
    decodeTableWord 8 0b10100010 = some (.sigWrite 0 []) ∧
    decodeTableWord 8 0b10100011 = some (.sigClose 0)) ∧
  (decodeTableWord 8 0b11000000 = some .ledOpen ∧
    decodeTableWord 8 0b11000001 = some (.ledRead 0 0) ∧
    decodeTableWord 8 0b11000010 = some (.ledWrite 0 []) ∧
    decodeTableWord 8 0b11000011 = some (.ledClose 0)) ∧
  (decodeTableWord 8 0b11100000 = some .startup ∧
    decodeTableWord 8 0b11100001 = some .teardown ∧
    decodeTableWord 8 0b11100010 = some (.registerEndpoint .sig) ∧
    decodeTableWord 8 0b11100011 = some (.deregisterEndpoint .sig)) ∧
  decodeTableWord 8 0b11100100 = none

/-- 30_encoding.md R91, R92: the decoder and the encoder agree in both directions: a record
decodes to a call exactly when it is that call's record. Rests on the spec's own decision D3,
and the model's log entries 8, 12. -/
def Obligations.DecodeExactlyInvertsEncode : Prop :=
  ∀ (c : CallRecord) (i : Instr), decode c = .ok i ↔ c = encode i

/-- 30_encoding.md R96: exactly 234 of the 256 codes are reserved, a record with a reserved code
decodes to nothing whatever its operands, and an agent that issues one is refused with R_OPCODE.
Rests on the spec's own decisions D3, D38, and the model's log entry 3. -/
def Obligations.ReservedCodesRefused : Prop :=
  ((List.range 256).filter fun n => (Op.ofCode (BitVec.ofNat 8 n)).isNone).length = 234 ∧
  (∀ (opc : BitVec 8) (ops : List Operand), (∀ i : Instr, (encode i).opc ≠ opc) →
    decode ⟨opc, ops⟩ = .error .opcode) ∧
  ∀ (s : State) (a : Agent) (c : CallRecord), s.agent = some a → a.status = .ready →
    s.cfg.valid = true → a.fetch s.cfg s.sessions = .call c →
    (∀ i : Instr, (encode i).opc ≠ c.opc) →
    step s = .next (s.refuse .opcode).reschedule

/-- 30_encoding.md R92, R93: OPC[7:5] is the number of the row's unit, OPC[4:0] of an endpoint
row is 0 open, 1 read, 2 write, 3 close, and every row has the OPC the table gives it, whatever
its operands. Rests on the spec's own decision D3. -/
def Obligations.CodeNamesUnitAndOperation : Prop :=
  (∀ i : Instr, (encode i).opc.extractLsb' 5 3 = i.op.unit.code) ∧
  (BlockUnit.registerBlock.code = 0 ∧ BlockUnit.pinConfigurator.code = 1 ∧
    BlockUnit.levelSensor.code = 2 ∧ BlockUnit.levelDriver.code = 3 ∧
    BlockUnit.channelSelector.code = 4 ∧ BlockUnit.signalEndpoint.code = 5 ∧
    BlockUnit.ledEndpoint.code = 6 ∧ BlockUnit.lifecycle.code = 7) ∧
  (∀ (id n : Nat) (d : List Byte),
    (encode .sigOpen).opc.extractLsb' 0 5 = 0 ∧ (encode .ledOpen).opc.extractLsb' 0 5 = 0 ∧
    (encode (.sigRead id n)).opc.extractLsb' 0 5 = 1 ∧
    (encode (.ledRead id n)).opc.extractLsb' 0 5 = 1 ∧
    (encode (.sigWrite id d)).opc.extractLsb' 0 5 = 2 ∧
    (encode (.ledWrite id d)).opc.extractLsb' 0 5 = 2 ∧
    (encode (.sigClose id)).opc.extractLsb' 0 5 = 3 ∧
    (encode (.ledClose id)).opc.extractLsb' 0 5 = 3) ∧
  ∀ (a n : Nat) (v : Word) (m : BitVec 3) (b : Byte) (d : List Byte) (k : Endpoint),
    ((encode (.map a n)).opc = 0x00 ∧ (encode .unmap).opc = 0x01 ∧
      (encode (.readWord a)).opc = 0x02 ∧ (encode (.writeWord a v)).opc = 0x03) ∧
    ((encode (.setFunction a m)).opc = 0x20 ∧ (encode (.readLevel a)).opc = 0x40 ∧
      (encode (.setHigh a)).opc = 0x60 ∧ (encode (.setLow a)).opc = 0x61) ∧
    ((encode (.select b)).opc = 0x80 ∧ (encode .current).opc = 0x81) ∧
    ((encode .sigOpen).opc = 0xA0 ∧ (encode (.sigRead a n)).opc = 0xA1 ∧
      (encode (.sigWrite a d)).opc = 0xA2 ∧ (encode (.sigClose a)).opc = 0xA3) ∧
    ((encode .ledOpen).opc = 0xC0 ∧ (encode (.ledRead a n)).opc = 0xC1 ∧
      (encode (.ledWrite a d)).opc = 0xC2 ∧ (encode (.ledClose a)).opc = 0xC3) ∧
    ((encode .startup).opc = 0xE0 ∧ (encode .teardown).opc = 0xE1 ∧
      (encode (.registerEndpoint k)).opc = 0xE2 ∧ (encode (.deregisterEndpoint k)).opc = 0xE3)

/-! ### Steps -/

/-- A step runs the decoded call: where the current agent stands at a call boundary and its next
record decodes to a call 30_encoding.md R94 lets it issue (a caller 0xA0 to 0xA3 and 0xC0 to
0xC3, the lifecycle agent 0xE0 and 0xE1, an agent of the model's kind block every other row),
step is exec of that call, after which the scheduler chooses the agent of the next turn
(10_state.md R31, 20_memory.md R70, 30_encoding.md R91). The scheduler's choice
(State.reschedule) changes whose turn it is and the record of choices taken alone; the agent it
chooses has an enabled step wherever any has, and each agent with an enabled step is the one
chosen for some choice at the head of the queue. Where the agent whose turn it is has no enabled
step, step is the step after such a choice. Rests on the spec's own decisions D3, D9, D12, and
the model's log entries 1, 7, 16. -/
def Obligations.StepRunsDecodedCall : Prop :=
  (∀ (s : State) (a : Agent) (c : CallRecord) (i : Instr), s.agent = some a →
    a.status = .ready → s.cfg.valid = true → a.fetch s.cfg s.sessions = .call c →
    decode c = .ok i →
    (a.kind = .caller ∧ c.opc ∈ ([0xA0, 0xA1, 0xA2, 0xA3, 0xC0, 0xC1, 0xC2, 0xC3] :
        List (BitVec 8)) ∨
      a.kind = .lifecycle ∧ c.opc ∈ ([0xE0, 0xE1] : List (BitVec 8)) ∨
      a.kind = .block ∧ c.opc ∉ ([0xA0, 0xA1, 0xA2, 0xA3, 0xC0, 0xC1, 0xC2, 0xC3, 0xE0, 0xE1] :
        List (BitVec 8))) →
    ∃ t, exec i s = .next t ∧ step s = .next t.reschedule) ∧
  ∀ s : State,
    { s.reschedule with
      current := s.current, sched := s.sched, schedTaken := s.schedTaken } = s ∧
    ((∃ a ∈ s.agents, a.enabled = true) →
      ∃ a, s.reschedule.agent = some a ∧ a.enabled = true) ∧
    (∀ (j : Nat) (a : Agent), s.agents[j]? = some a → a.enabled = true →
      ∃ n, ∀ rest, ({ s with sched := n :: rest } : State).reschedule.current = j) ∧
    ((∀ a, s.agent = some a → a.enabled = false) → step s = step s.reschedule)

/-- A call that was left between two atomic steps goes on at the atomic step it waits at when
its agent has the turn (20_memory.md R70, R71), with the effect that step's operation rule
gives: the drive of a led.write (44_led_endpoint.md R226), the select of a sig.write and the
transfer of a sig.read (43_signal_endpoint.md R196, R197, 10_state.md R53), and each atomic step
of a startup and a teardown (46_lifecycle.md R270, R271). After it the call goes on
(State.goOn): where the scheduler turns to another agent it waits at its next atomic step, and
where not it takes that step. The steps of a set_function and of a sig.read's sample have
statements of their own. A step whose test fails stops the agent as its rule says: a fault
(60_exceptions.md R311, R313, R314) or a refusal (R315), with no other change. Rests on the
spec's own decisions D12, D22, D25, D31, D35, D38, and the model's log entries 1, 3, 9, 10,
11. -/
def Obligations.StepResumesParkedCall : Prop :=
  (∀ (s : State) (a : Agent) (t : Task), s.agent = some a → a.status = .inCall t →
    step s = .next (resume t s).reschedule) ∧
  (∀ (s : State) (v m : Nat),
    let pin := s.cfg.outputPin
    let off := if v = 0 then 0x28 else 0x1C
    (pin < 32 → s.fsel.field pin = 1 → s.mapping ≠ none →
      ∃ l : Word, resume (.ledWrite (.drive v m)) s =
          (({ s with outlatch := l }.log .write off (1#32 <<< pin)).ret (.count m [])) ∧
        ∀ q, q < 32 → l.getLsbD q = if q = pin then decide (v ≠ 0) else s.outlatch.getLsbD q) ∧
    (32 ≤ pin → resume (.ledWrite (.drive v m)) s = s.raise .pinRange pin) ∧
    (pin < 32 → s.fsel.field pin ≠ 1 →
      resume (.ledWrite (.drive v m)) s = s.raise .driveNotOutput pin) ∧
    (pin < 32 → s.fsel.field pin = 1 → s.mapping = none →
      resume (.ledWrite (.drive v m)) s = s.raise .unmapped off)) ∧
  (∀ (s : State) (b : Byte),
    (b = 0x31 → resume (.sigWrite (.select b)) s = { s with sel := .ch1 }.ret (.count 1 [])) ∧
    (b = 0x32 → resume (.sigWrite (.select b)) s = { s with sel := .ch2 }.ret (.count 1 [])) ∧
    (b ≠ 0x31 → b ≠ 0x32 →
      resume (.sigWrite (.select b)) s = s.ret (.error .invalidSelector))) ∧
  (∀ (s : State) (id : Nat) (d : List Byte), d ≠ [] →
    (asBool (s.peek 0) = false →
      resume (.sigRead (.copyOut id d)) s = (s.skip 1).ret (.error .copyFault)) ∧
    (∀ off, asBool (s.peek 0) = true → tableGet s.offsets id = some off →
      resume (.sigRead (.copyOut id d)) s =
        { s.skip 1 with offsets := tableSet s.offsets id (off + d.length) }.ret
          (.count d.length d)) ∧
    (asBool (s.peek 0) = true → tableGet s.offsets id = none →
      resume (.sigRead (.copyOut id d)) s = (s.skip 1).ret (.count d.length d))) ∧
  (∀ s : State,
    (s.cfg.outputPin < 32 → s.fsel.field s.cfg.outputPin = 1 → s.mapping ≠ none →
      ∃ l : Word, resume (.teardown .driveLow) s =
          ({ s with outlatch := l }.log .write 0x28 (1#32 <<< s.cfg.outputPin)).goOn
            (.teardown .unmap) ∧
        ∀ q, q < 32 → l.getLsbD q =
          if q = s.cfg.outputPin then false else s.outlatch.getLsbD q) ∧
    (s.mapping ≠ none → resume (.teardown .unmap) s =
      { s with mapping := none }.goOn (.teardown .deregisterSig)) ∧
    (s.sigReg = true → resume (.teardown .deregisterSig) s =
      { s with sigReg := false }.goOn (.teardown .deregisterLed)) ∧
    (s.ledReg = true → resume (.teardown .deregisterLed) s =
      { s with ledReg := false }.goOn (.teardown .enterAbsent))) ∧
  (∀ s : State,
    let pin := s.cfg.outputPin
    (32 ≤ pin → resume (.teardown .driveLow) s = s.raise .pinRange pin) ∧
    (pin < 32 → s.fsel.field pin ≠ 1 →
      resume (.teardown .driveLow) s = s.raise .driveNotOutput pin) ∧
    (pin < 32 → s.fsel.field pin = 1 → s.mapping = none →
      resume (.teardown .driveLow) s = s.raise .unmapped 0x28) ∧
    (s.mapping = none → resume (.teardown .unmap) s = s.refuse .mapping) ∧
    (s.sigReg = false → resume (.teardown .deregisterSig) s = s.refuse .lifecycle) ∧
    (s.ledReg = false → resume (.teardown .deregisterLed) s = s.refuse .lifecycle)) ∧
  (∀ s : State, resume (.teardown .enterAbsent) s = { s with phase := .absent }.ret .ok) ∧
  (∀ s : State,
    (s.mapping = none → asBool (s.peek 0) = true → ∃ h, s.fresh ≤ h ∧
      resume (.startup .map) s = { s.skip 2 with mapping := some h, fresh := h + 1 }.goOn
        (.startup (.readFsel .input1))) ∧
    (s.mapping = none → asBool (s.peek 0) = false → resume (.startup .map) s =
      (s.skip 1).goOn (.startup (.enterAbsent .mapFailure))) ∧
    (∀ c : ConfigSlot,
      let pin := match c with
        | .input1 => s.cfg.inputPin1 | .input2 => s.cfg.inputPin2 | .output => s.cfg.outputPin
      s.mapping ≠ none → pin < 54 →
      (∃ w : Word, resume (.startup (.readFsel c)) s =
          ((s.skip 1).log .read (4 * (pin / 10)) w).goOn (.startup (.writeFsel c w)) ∧
        ∀ q, q < 54 → q / 10 = pin / 10 → w.extractLsb' (3 * (q % 10)) 3 = s.fsel.field q) ∧
      ∀ w : Word, ∃ f : Fsel, resume (.startup (.writeFsel c w)) s =
          ({ s with fsel := f }.log .write (4 * (pin / 10))
            ((w &&& ~~~ (7#32 <<< (3 * (pin % 10)))) |||
              ((match c with | .input1 => 0#32 | .input2 => 0#32 | .output => 1#32) <<<
                (3 * (pin % 10))))).goOn (.startup
            (match c with
              | .input1 => .readFsel .input2 | .input2 => .readFsel .output
              | .output => .selectFirst)) ∧
        ∀ q, q < 54 → f.field q =
          if q = pin then (match c with | .input1 => 0 | .input2 => 0 | .output => 1)
          else if q / 10 = pin / 10 then w.extractLsb' (3 * (q % 10)) 3
          else s.fsel.field q) ∧
    (resume (.startup .selectFirst) s =
      { s with sel := .ch1 }.goOn (.startup .registerSig)) ∧
    (s.sigReg = false → resume (.startup .registerSig) s =
      if asBool (s.peek 0) then
        { s.skip 1 with sigReg := true }.goOn (.startup .registerLed)
      else (s.skip 1).goOn (.startup .rollbackMap)) ∧
    (s.ledReg = false → resume (.startup .registerLed) s =
      if asBool (s.peek 0) then
        { s.skip 1 with ledReg := true }.goOn (.startup .enterRunning)
      else (s.skip 1).goOn (.startup .rollbackSig)) ∧
    (s.sigReg = true → resume (.startup .rollbackSig) s =
      { s with sigReg := false }.goOn (.startup .rollbackMap)) ∧
    (s.mapping ≠ none → resume (.startup .rollbackMap) s =
      { s with mapping := none }.goOn
        (.startup (.enterAbsent .registrationFailure)))) ∧
  (∀ s : State,
    (s.mapping ≠ none → resume (.startup .map) s = s.refuse .mapping) ∧
    (∀ (c : ConfigSlot) (w : Word),
      let pin := match c with
        | .input1 => s.cfg.inputPin1 | .input2 => s.cfg.inputPin2 | .output => s.cfg.outputPin
      (54 ≤ pin → resume (.startup (.readFsel c)) s = s.raise .pinRange pin) ∧
      (pin < 54 → s.mapping = none →
        resume (.startup (.readFsel c)) s = s.raise .unmapped (4 * (pin / 10)) ∧
        resume (.startup (.writeFsel c w)) s = s.raise .unmapped (4 * (pin / 10)))) ∧
    (s.sigReg = true → resume (.startup .registerSig) s = s.refuse .lifecycle) ∧
    (s.ledReg = true → resume (.startup .registerLed) s = s.refuse .lifecycle) ∧
    (s.sigReg = false → resume (.startup .rollbackSig) s = s.refuse .lifecycle) ∧
    (s.mapping = none → resume (.startup .rollbackMap) s = s.refuse .mapping)) ∧
  (∀ s : State, resume (.startup .enterRunning) s = { s with phase := .running }.ret .ok) ∧
  (∀ (s : State) (e : ErrorCode),
    resume (.startup (.enterAbsent e)) s = { s with phase := .absent }.ret (.error e)) ∧
  (∀ s : State, s.Undisturbed 3 → s.mapping ≠ none → s.sigReg = true → s.ledReg = true →
    resume (.teardown .unmap) s = { s.passed 3 with
      mapping := none, sigReg := false, ledReg := false, phase := .absent }.ret .ok) ∧
  ∀ s : State, s.Undisturbed 3 → s.sigReg = false → s.ledReg = false → asBool (s.peek 0) = true →
    asBool (s.peek 1) = true → resume (.startup .selectFirst) s = { (s.passed 3).skip 2 with
      sel := .ch1, sigReg := true, ledReg := true, phase := .running }.ret .ok

/-- 30_encoding.md R94: a caller may issue only 0xA0 to 0xA3 and 0xC0 to 0xC3, the lifecycle
agent only 0xE0 and 0xE1; any other row of the table is refused with R_INTERNAL and none of it
runs. Rests on the spec's own decisions D3, D38, and the model's log entries 3, 26. -/
def Obligations.InternalRowsRefused : Prop :=
  ∀ (s : State) (a : Agent) (i : Instr), s.agent = some a → a.status = .ready →
    s.cfg.valid = true → a.fetch s.cfg s.sessions = .call (encode i) →
    (a.kind = .caller ∧ (encode i).opc ∉ ([0xA0, 0xA1, 0xA2, 0xA3, 0xC0, 0xC1, 0xC2, 0xC3] :
        List (BitVec 8)) ∨
      a.kind = .lifecycle ∧ (encode i).opc ∉ ([0xE0, 0xE1] : List (BitVec 8))) →
    step s = .next (s.refuse .internal).reschedule

/-- 00_scope.md R9, 60_exceptions.md R315: under a configuration whose pins are not distinct or
not below LEVEL_PINS every call is refused with R_CONFIG. Rests on the spec's own decisions D8,
D24, and the model's log entries 15, 26. -/
def Obligations.InvalidConfigurationRefused : Prop :=
  ∀ (s : State) (a : Agent), s.agent = some a → a.status = .ready → a.hasNext = true →
    (s.cfg.inputPin1 = s.cfg.inputPin2 ∨ s.cfg.inputPin1 = s.cfg.outputPin ∨
      s.cfg.inputPin2 = s.cfg.outputPin ∨ 32 ≤ s.cfg.inputPin1 ∨ 32 ≤ s.cfg.inputPin2 ∨
      32 ≤ s.cfg.outputPin) →
    step s = .next (s.refuse .config).reschedule

/-- 10_state.md R31, R55, 60_exceptions.md R302, R303: step answers a fault exactly when no
agent has an enabled step, and runComplete exactly when moreover the fault record is empty and
no refusal mark is set. Under a valid configuration it answers malformedCall exactly when the
agent whose turn it is (State.settle) issues a record with a listed code, no unbound session
name and an operand list that is no operation's (30_encoding.md R91), and foreignPath exactly
when that agent opens a path that is neither endpoint's (45_host_client.md R255); under an
invalid one neither, and notModelled never. That an unbound name is refused before the shape of
the operands is looked at, and that a malformed record stops before R_INTERNAL of a row its
agent may not issue (30_encoding.md R94), is the model's choice of an order among refusals (log
entry 26). Rests on the spec's own decisions D9, D38, and the model's log entries 8, 15, 16, 20,
26. -/
def Obligations.StepStops : Prop :=
  (∀ s : State,
    ((∃ f, step s = .fault f) ↔ ∀ a ∈ s.agents, a.enabled = false) ∧
    (step s = .fault .runComplete ↔
      (∀ a ∈ s.agents, a.enabled = false) ∧ s.faults = [] ∧ s.refusalMark = false)) ∧
  (∀ s : State, step s = .refused .malformedCall ↔
    s.cfg.valid = true ∧ ∃ (a : Agent) (c : CallRecord), s.settle.agent = some a ∧
      a.status = .ready ∧ a.fetch s.cfg s.sessions = .call c ∧
      (∃ i : Instr, (encode i).opc = c.opc) ∧ (∀ k, Operand.session (.bound k) ∉ c.operands) ∧
      ∀ i : Instr, c ≠ encode i) ∧
  (∀ s : State, step s = .refused .foreignPath ↔
    s.cfg.valid = true ∧ ∃ (a : Agent) (l : List HostRequest) (p : String),
      s.settle.agent = some a ∧ a.status = .ready ∧ a.program = .requests l ∧
      l[a.index]? = some (.openPath p) ∧ p ≠ s.cfg.sigPath ∧ p ≠ s.cfg.ledPath) ∧
  ∀ (s : State) (m : String), step s ≠ .refused (.notModelled m)

/-- 10_state.md R31: a returning call advances its agent's call index by one, whatever the
result, and touches no other agent. Rests on the spec's own decision D9. -/
def Obligations.ReturnAdvancesCallIndex : Prop :=
  ∀ (s : State) (r : Result) (a : Agent), s.agent = some a →
    (∃ b, (s.ret r).agent = some b ∧ b.index = a.index + 1 ∧ b.status = .ready ∧
      b.results = a.results ++ [r] ∧ b.program = a.program ∧ b.kind = a.kind) ∧
    ∀ j, j ≠ s.current → (s.ret r).agents[j]? = s.agents[j]?

/-- 60_exceptions.md R302: a raise adds the pair to the fault record and nothing else, stops the
raising agent, which then has no enabled step, and touches no other agent. Rests on the spec's
own decision D38, and the model's log entry 3. -/
def Obligations.RaiseRecordsAndStopsAgent : Prop :=
  ∀ (s : State) (f : FaultCode) (info : Nat) (a : Agent), s.agent = some a →
    (∀ x, x ∈ (s.raise f info).faults ↔ x = (f, info) ∨ x ∈ s.faults) ∧
    (∃ b, (s.raise f info).agent = some b ∧ b = { a with status := .stopped f info } ∧
      b.enabled = false) ∧
    (∀ j, j ≠ s.current → (s.raise f info).agents[j]? = s.agents[j]?) ∧
    { s.raise f info with faults := s.faults, agents := s.agents } = s

/-- 60_exceptions.md R303: a refusal sets the refusal mark and leaves the issuing agent stuck at
that call, with no enabled step, its call index unchanged; nothing else changes. Rests on the
spec's own decision D38, and the model's log entry 3. -/
def Obligations.RefusalMarksAndSticksAgent : Prop :=
  ∀ (s : State) (r : RefusalReason) (a : Agent), s.agent = some a →
    (s.refuse r).refusalMark = true ∧
    (∃ b, (s.refuse r).agent = some b ∧ b = { a with status := .stuck r } ∧ b.enabled = false ∧
      b.index = a.index) ∧
    (∀ j, j ≠ s.current → (s.refuse r).agents[j]? = s.agents[j]?) ∧
    { s.refuse r with refusalMark := s.refusalMark, agents := s.agents } = s

/-! ### RegisterBlock -/

/-- 40_register_block.md R130: map is refused while mapped or for another base or size; else the
host's draw decides between a fresh handle and MapFailure, which changes nothing else. Rests on
the spec's own decisions D20, D40, and the model's log entries 2, 9. -/
def Obligations.MapResult : Prop :=
  ∀ (s : State) (base size : Nat),
    (s.mapping ≠ none → exec (.map base size) s = .next (s.refuse .mapping)) ∧
    (s.mapping = none → ¬ (base = s.cfg.pBase ∧ size = 4096) →
      exec (.map base size) s = .next (s.refuse .config)) ∧
    (s.mapping = none → base = s.cfg.pBase → size = 4096 →
      if asBool (s.peek 0) then
        ∃ h, s.fresh ≤ h ∧ exec (.map base size) s =
          .next ({ s.skip 2 with mapping := some h, fresh := h + 1 }.ret (.handle h))
      else exec (.map base size) s = .next ((s.skip 1).ret (.error .mapFailure)))

/-- 40_register_block.md R131: unmap (OPC 0x01) ends the mapping, changes nothing else and
cannot fail; after it every read and every write raises F_UNMAPPED; while not mapped it is
refused. -/
def Obligations.UnmapResult : Prop :=
  (encode .unmap).opc = 0x01 ∧
  ∀ s : State,
    (s.mapping ≠ none → exec .unmap s = .next ({ s with mapping := none }.ret .ok) ∧
      ∀ t, exec .unmap s = .next t → ∀ (off : Nat) (v : Word),
        exec (.readWord off) t = .next (t.raise .unmapped off) ∧
        exec (.writeWord off v) t = .next (t.raise .unmapped off)) ∧
    (s.mapping = none → exec .unmap s = .next (s.refuse .mapping))

/-- 10_state.md R44, R35: a read of FSELk gives the stored field of every pin of the word and
drawn reserved bits, and appends one event; nothing else changes. Rests on the spec's own
decisions D4, D10, and the model's log entry 2. -/
def Obligations.ReadFselResult : Prop :=
  ∀ (s : State) (k : Nat), s.mapping ≠ none → k < 6 →
    ∃ w : Word, exec (.readWord (4 * k)) s =
        .next (((s.skip 1).log .read (4 * k) w).ret (.word w)) ∧
      (∀ p, p < 54 → p / 10 = k → w.extractLsb' (3 * (p % 10)) 3 = s.fsel.field p) ∧
      ∀ i, i < 32 → (30 ≤ i ∨ k = 5 ∧ 12 ≤ i) → w.getLsbD i = (asWord (s.peek 0)).getLsbD i

/-- 10_state.md R42, R47: a read of LEV gives the output latch's bit for every OUTPUT pin when
LEVEL_LOOPBACK is true and a drawn bit for every other pin, and changes nothing but the history.
Rests on the spec's own decision D21, and the model's log entries 2, 13. -/
def Obligations.ReadLevelRegisterResult : Prop :=
  ∀ s : State, s.mapping ≠ none →
    ∃ w : Word, exec (.readWord 0x34) s =
        .next (((s.skip 1).log .read 0x34 w).ret (.word w)) ∧
      ∀ p, p < 32 → w.getLsbD p =
        if s.cfg.levelLoopback = true ∧ s.fsel.field p = 1 then s.outlatch.getLsbD p
        else (asWord (s.peek 0)).getLsbD p

/-- 40_register_block.md R132, 10_state.md R48: read_word raises F_UNMAPPED without a mapping,
and with one F_BAD_OFFSET at every offset that is no readable register, SET, CLR and misaligned
offsets among them; no event, no register change. Rests on the spec's own decisions D17, D22,
and the model's log entry 3. -/
def Obligations.ReadWordFaults : Prop :=
  ∀ (s : State) (off : Nat),
    (s.mapping = none → exec (.readWord off) s = .next (s.raise .unmapped off)) ∧
    (s.mapping ≠ none → off ∉ [0x00, 0x04, 0x08, 0x0C, 0x10, 0x14, 0x34] →
      exec (.readWord off) s = .next (s.raise .badOffset off))

/-- 10_state.md R44: a write of FSELk stores the field of every pin of the word and ignores the
reserved bits; the other words keep theirs; one event. Rests on the spec's own decisions D4,
D10. -/
def Obligations.WriteFselResult : Prop :=
  ∀ (s : State) (k : Nat) (v : Word), s.mapping ≠ none → k < 6 →
    ∃ f : Fsel, exec (.writeWord (4 * k) v) s =
        .next (({ s with fsel := f }.log .write (4 * k) v).ret .ok) ∧
      ∀ p, p < 54 →
        f.field p = if p / 10 = k then v.extractLsb' (3 * (p % 10)) 3 else s.fsel.field p

/-- 10_state.md R45, R46, R36, R38: a write of SET sets the latch bits whose written bit is 1, a
write of CLR clears them, and every other latch bit is unchanged; one event each. -/
def Obligations.WriteSetClearResult : Prop :=
  ∀ (s : State) (v : Word), s.mapping ≠ none →
    (∃ l : Word, exec (.writeWord 0x1C v) s =
        .next (({ s with outlatch := l }.log .write 0x1C v).ret .ok) ∧
      ∀ p, p < 32 → l.getLsbD p = if v.getLsbD p = true then true else s.outlatch.getLsbD p) ∧
    (∃ l : Word, exec (.writeWord 0x28 v) s =
        .next (({ s with outlatch := l }.log .write 0x28 v).ret .ok) ∧
      ∀ p, p < 32 → l.getLsbD p = if v.getLsbD p = true then false else s.outlatch.getLsbD p)

/-- 40_register_block.md R133, 10_state.md R48: write_word raises F_UNMAPPED without a mapping,
and with one F_BAD_OFFSET at every offset that is no writable register, LEV among them. Rests on
the spec's own decisions D17, D22, and the model's log entry 3. -/
def Obligations.WriteWordFaults : Prop :=
  ∀ (s : State) (off : Nat) (v : Word),
    (s.mapping = none → exec (.writeWord off v) s = .next (s.raise .unmapped off)) ∧
    (s.mapping ≠ none → off ∉ [0x00, 0x04, 0x08, 0x0C, 0x10, 0x14, 0x1C, 0x28] →
      exec (.writeWord off v) s = .next (s.raise .badOffset off))

/-- 20_memory.md R66: writing the same value twice in a row to a register leaves the register
state that writing it once leaves. Rests on the spec derives it from its rules on FSELk, SET and
CLR, and the spec's own decisions D4, D10. -/
def Obligations.RepeatedWriteIsIdempotent : Prop :=
  ∀ (s t u : State) (off : Nat) (v : Word),
    off ∈ [0x00, 0x04, 0x08, 0x0C, 0x10, 0x14, 0x1C, 0x28] → s.mapping ≠ none →
    exec (.writeWord off v) s = .next t → exec (.writeWord off v) t = .next u →
    u.fsel = t.fsel ∧ u.outlatch = t.outlatch

/-! ### Pin configuration, level sensing and level driving -/

/-- 41_pin_control.md R150, 30_encoding.md R97: undisturbed, set_function reads FSELk, writes
the word with the pin's field replaced, and leaves the field of every other pin as it was; two
events. Rests on the spec's own decisions D4, D37, and the model's log entries 1, 2. -/
def Obligations.SetFunctionResult : Prop :=
  ∀ (s : State) (pin : Nat) (mode : BitVec 3), s.Undisturbed 1 → s.mapping ≠ none → pin < 54 →
    mode.toNat ≤ 1 →
    ∃ (f : Fsel) (w w' : Word), exec (.setFunction pin mode) s =
        .next ((({ (s.passed 1).skip 1 with fsel := f }.log .read (4 * (pin / 10)) w).log .write
          (4 * (pin / 10)) w').ret .ok) ∧
      (∀ q, q < 54 → f.field q = if q = pin then mode else s.fsel.field q) ∧
      w' = (w &&& ~~~ (7#32 <<< (3 * (pin % 10)))) ||| (mode.setWidth 32 <<< (3 * (pin % 10))) ∧
      ∀ q, q < 54 → q / 10 = pin / 10 → w.extractLsb' (3 * (q % 10)) 3 = s.fsel.field q

/-- 41_pin_control.md R150, 60_exceptions.md R317: set_function is refused for a mode 2 to 7
before anything else, then faults for a pin of 54 or more, then for a missing mapping. Rests on
the spec's own decisions D4, D17, D22, and the model's log entry 3. -/
def Obligations.SetFunctionStops : Prop :=
  ∀ (s : State) (pin : Nat) (mode : BitVec 3),
    (2 ≤ mode.toNat → exec (.setFunction pin mode) s = .next (s.refuse .mode)) ∧
    (mode.toNat ≤ 1 → 54 ≤ pin →
      exec (.setFunction pin mode) s = .next (s.raise .pinRange pin)) ∧
    (mode.toNat ≤ 1 → pin < 54 → s.mapping = none →
      exec (.setFunction pin mode) s = .next (s.raise .unmapped (4 * (pin / 10))))

/-- 20_memory.md R65: where the scheduler turns to another agent after set_function's read, the
call waits with the word it read and FSEL still holds what it held. Rests on the spec's own
decisions D12, D37, and the model's log entries 1, 10. -/
def Obligations.SetFunctionCanBeInterrupted : Prop :=
  ∀ (s : State) (pin : Nat) (mode : BitVec 3), s.othersEnabled = true →
    asBool (s.choice 0) = true → s.mapping ≠ none → pin < 54 → mode.toNat ≤ 1 →
    ∃ w : Word, exec (.setFunction pin mode) s =
        .next ((((s.skip 1).log .read (4 * (pin / 10)) w).passed 1).park
          (.setFunction (.writeBack pin mode w))) ∧
      ∀ q, q < 54 → q / 10 = pin / 10 → w.extractLsb' (3 * (q % 10)) 3 = s.fsel.field q

/-- 20_memory.md R72, 41_pin_control.md R150, 10_state.md R56: a set_function that goes on after
another agent wrote the same FSEL word writes the word it read with the pin's field replaced, so
every other pin of the word gets the field it had at the read: the other write is lost. It
records that one write and returns, and nothing else changes; where the mapping has ended
meanwhile it raises F_UNMAPPED (60_exceptions.md R311). Rests on the spec's own decisions D12,
D22, D37, and the model's log entry 10. -/
def Obligations.WriteBackLosesTheOtherWrite : Prop :=
  ∀ (s : State) (a : Agent) (pin : Nat) (mode : BitVec 3) (w : Word), s.agent = some a →
    a.status = .inCall (.setFunction (.writeBack pin mode w)) → pin < 54 →
    (s.mapping ≠ none →
      ∃ f : Fsel, step s = .next (({ s with fsel := f }.log .write (4 * (pin / 10))
          ((w &&& ~~~ (7#32 <<< (3 * (pin % 10)))) |||
            (mode.setWidth 32 <<< (3 * (pin % 10))))).ret .ok).reschedule ∧
        ∀ q, q < 54 → f.field q =
          if q = pin then mode
          else if q / 10 = pin / 10 then w.extractLsb' (3 * (q % 10)) 3
          else s.fsel.field q) ∧
    (s.mapping = none → step s = .next (s.raise .unmapped (4 * (pin / 10))).reschedule)

/-- 41_pin_control.md R151: read_level of a pin below 32 reads LEV once and returns the pin's
bit. Rests on the spec's own decisions D21, D24, and the model's log entries 2, 13. -/
def Obligations.ReadLevelResult : Prop :=
  ∀ (s : State) (pin : Nat), s.mapping ≠ none → pin < 32 →
    ∃ w : Word, exec (.readLevel pin) s =
        .next (((s.skip 1).log .read 0x34 w).ret (.bool (w.getLsbD pin))) ∧
      ∀ p, p < 32 → w.getLsbD p =
        if s.cfg.levelLoopback = true ∧ s.fsel.field p = 1 then s.outlatch.getLsbD p
        else (asWord (s.peek 0)).getLsbD p

/-- 41_pin_control.md R152, 20_memory.md R75: set_high of an OUTPUT pin sets its latch bit by
one write of SET and leaves every other latch bit alone. Rests on the spec's own decisions D23,
D24. -/
def Obligations.SetHighResult : Prop :=
  ∀ (s : State) (pin : Nat), s.mapping ≠ none → pin < 32 → s.fsel.field pin = 1 →
    ∃ l : Word, exec (.setHigh pin) s =
        .next (({ s with outlatch := l }.log .write 0x1C (1#32 <<< pin)).ret .ok) ∧
      ∀ q, q < 32 → l.getLsbD q = if q = pin then true else s.outlatch.getLsbD q

/-- 41_pin_control.md R153, 20_memory.md R75: set_low of an OUTPUT pin clears its latch bit by
one write of CLR and leaves every other latch bit alone. Rests on the spec's own decisions D23,
D24. -/
def Obligations.SetLowResult : Prop :=
  ∀ (s : State) (pin : Nat), s.mapping ≠ none → pin < 32 → s.fsel.field pin = 1 →
    ∃ l : Word, exec (.setLow pin) s =
        .next (({ s with outlatch := l }.log .write 0x28 (1#32 <<< pin)).ret .ok) ∧
      ∀ q, q < 32 → l.getLsbD q = if q = pin then false else s.outlatch.getLsbD q

/-- 60_exceptions.md R317, R313, R314: read_level, set_high and set_low fault for a pin of 32 or
more first; a drive then faults where the pin's field is not OUTPUT, then for a missing mapping.
Rests on the spec's own decisions D17, D22, D23, D24, and the model's log entry 3. -/
def Obligations.LevelFaults : Prop :=
  ∀ (s : State) (pin : Nat),
    (32 ≤ pin → exec (.readLevel pin) s = .next (s.raise .pinRange pin) ∧
      exec (.setHigh pin) s = .next (s.raise .pinRange pin) ∧
      exec (.setLow pin) s = .next (s.raise .pinRange pin)) ∧
    (pin < 32 → s.fsel.field pin ≠ 1 →
      exec (.setHigh pin) s = .next (s.raise .driveNotOutput pin) ∧
      exec (.setLow pin) s = .next (s.raise .driveNotOutput pin)) ∧
    (pin < 32 → s.fsel.field pin = 1 → s.mapping = none →
      exec (.setHigh pin) s = .next (s.raise .unmapped 0x1C) ∧
      exec (.setLow pin) s = .next (s.raise .unmapped 0x28)) ∧
    (pin < 32 → s.mapping = none → exec (.readLevel pin) s = .next (s.raise .unmapped 0x34))

/-- 10_state.md R42, 41_pin_control.md R151 to R153: with loopback, the level of an OUTPUT pin
read right after set_high is true and right after set_low is false, and the pin is driven so
(R43). Rests on the spec's own decisions D21, D24, and the model's log entry 13. -/
def Obligations.DrivenLevelReadsBack : Prop :=
  ∀ (s : State) (pin : Nat), s.cfg.levelLoopback = true → s.mapping ≠ none → pin < 32 →
    s.fsel.field pin = 1 →
    (∃ (t : State) (w : Word), exec (.setHigh pin) s = .next t ∧
      pinDrive t.fsel t.outlatch pin = .high ∧ w.getLsbD pin = true ∧
      exec (.readLevel pin) t = .next (((t.skip 1).log .read 0x34 w).ret (.bool true))) ∧
    (∃ (t : State) (w : Word), exec (.setLow pin) s = .next t ∧
      pinDrive t.fsel t.outlatch pin = .low ∧ w.getLsbD pin = false ∧
      exec (.readLevel pin) t = .next (((t.skip 1).log .read 0x34 w).ret (.bool false)))

/-! ### ChannelSelector -/

/-- 42_channel_selector.md R180 to R182 (OPC 0x80, 0x81): select of 0x31 and 0x32 moves the
selection to channel 1 and 2 from either state and returns the channel's pin; any other byte is
InvalidSelector and changes nothing; current returns the pin of the selected channel and changes
nothing. -/
def Obligations.SelectAndCurrentResult : Prop :=
  ∀ (s : State) (b : Byte),
    (encode (.select b)).opc = 0x80 ∧ (encode .current).opc = 0x81 ∧
    (b = 0x31 → exec (.select b) s = .next ({ s with sel := .ch1 }.ret (.pin s.cfg.inputPin1))) ∧
    (b = 0x32 → exec (.select b) s = .next ({ s with sel := .ch2 }.ret (.pin s.cfg.inputPin2))) ∧
    (b ≠ 0x31 → b ≠ 0x32 → exec (.select b) s = .next (s.ret (.error .invalidSelector))) ∧
    (s.sel = .ch1 → exec .current s = .next (s.ret (.pin s.cfg.inputPin1))) ∧
    (s.sel = .ch2 → exec .current s = .next (s.ret (.pin s.cfg.inputPin2)))

/-! ### Signal endpoint -/

/-- 43_signal_endpoint.md R195, 60_exceptions.md R317: an open is AccessDenied where the host
denies it, else NoDevice where the endpoint is not registered, else it adds a session with
offset 0 under an identifier at or above the bound fresh, which no session of a state meeting
State.WF has. Rests on the spec's own decisions D17, D18, D25, D29, and the model's log entries
2, 9. -/
def Obligations.SigOpenResult : Prop :=
  ∀ s : State,
    (asBool (s.peek 0) = true →
      exec .sigOpen s = .next ((s.skip 1).ret (.error .accessDenied))) ∧
    (asBool (s.peek 0) = false → s.sigReg = false →
      exec .sigOpen s = .next ((s.skip 1).ret (.error .noDevice))) ∧
    (asBool (s.peek 0) = false → s.sigReg = true →
      ∃ id, s.fresh ≤ id ∧ (s.WF → tableGet s.sessions id = none) ∧ exec .sigOpen s =
        .next ({ s.skip 2 with
          fresh := id + 1
          sessions := tableSet s.sessions id .sig
          offsets := tableSet s.offsets id 0 }.ret (.session id)))

/-- 43_signal_endpoint.md R196: undisturbed, a sig.read samples LEV once at the selected pin and
returns min(max_len, 2 - off) bytes of the level's text, none at offset 2 and beyond; a
successful transfer advances the offset by the count; CopyFault leaves it. Where the scheduler
turns to another agent after the sample (20_memory.md R70), the call waits at its transfer with
those bytes. Where no mapping is live at the sample it raises F_UNMAPPED (60_exceptions.md R311,
R317). Rests on the spec's own decisions D12, D17, D21, D22, D25, D27, D35, and the model's log
entries 1, 2, 3, 10, 11, 13. -/
def Obligations.SigReadResult : Prop :=
  (∀ (s : State) (id maxLen off : Nat), s.cfg.valid = true → s.mapping ≠ none →
    tableGet s.sessions id = some .sig → tableGet s.offsets id = some off →
    ∃ (w : Word) (u : State), u = (s.skip 1).log .read 0x34 w ∧
      (∀ p, p < 32 → w.getLsbD p =
        if s.cfg.levelLoopback = true ∧ s.fsel.field p = 1 then s.outlatch.getLsbD p
        else (asWord (s.peek 0)).getLsbD p) ∧
      let n := if off ≥ 2 then 0 else min maxLen (2 - off)
      let pin := match s.sel with | .ch1 => s.cfg.inputPin1 | .ch2 => s.cfg.inputPin2
      let text : List Byte := [if w.getLsbD pin then 0x31 else 0x30, 0x0A]
      (n = 0 → s.Undisturbed 1 → exec (.sigRead id maxLen) s =
        .next ((u.passed 1).ret (.count 0 []))) ∧
      (n ≠ 0 → s.Undisturbed 2 → asBool (s.peek 1) = true → exec (.sigRead id maxLen) s =
        .next (({ (u.passed 2).skip 1 with offsets := tableSet s.offsets id (off + n) } : State).ret
          (.count n ((text.drop off).take n)))) ∧
      (n ≠ 0 → s.Undisturbed 2 → asBool (s.peek 1) = false → exec (.sigRead id maxLen) s =
        .next (((u.passed 2).skip 1).ret (.error .copyFault))) ∧
      (n ≠ 0 → s.Undisturbed 1 → s.othersEnabled = true → asBool (s.choice 1) = true →
        exec (.sigRead id maxLen) s =
          .next ((u.passed 2).park (.sigRead (.copyOut id ((text.drop off).take n)))))) ∧
  ∀ (s : State) (id maxLen off : Nat), s.Undisturbed 1 → s.cfg.valid = true → s.mapping = none →
    tableGet s.sessions id = some .sig → tableGet s.offsets id = some off →
    exec (.sigRead id maxLen) s = .next ((s.passed 1).raise .unmapped 0x34)

/-- 43_signal_endpoint.md R196, 70_reset_and_hazards.md R359: a sig.read interrupted after its
current step reports the pin that step saw, whatever sel has become meanwhile: the bytes its
offset at the start and its length ask for, whose count is added to the offset the host keeps by
then. Where the scheduler turns to another agent after the sample too, the call waits at its
transfer with those bytes. Where the mapping has ended meanwhile (70_reset_and_hazards.md R360)
the sample raises F_UNMAPPED, and a pin out of range F_PIN_RANGE. Rests on the spec's own
decisions D12, D21, D22, D25, D35, and the model's log entries 1, 3, 10, 11, 13. -/
def Obligations.InterruptedReadKeepsItsPin : Prop :=
  (∀ (s : State) (id maxLen off : Nat), s.othersEnabled = true → asBool (s.choice 0) = true →
    tableGet s.sessions id = some .sig → tableGet s.offsets id = some off →
    exec (.sigRead id maxLen) s = .next ((s.passed 1).park (.sigRead (.sample id maxLen off
      (match s.sel with | .ch1 => s.cfg.inputPin1 | .ch2 => s.cfg.inputPin2))))) ∧
  (∀ (s : State) (a : Agent) (id maxLen off pin : Nat), s.agent = some a →
    a.status = .inCall (.sigRead (.sample id maxLen off pin)) → s.mapping ≠ none →
    pin < 32 →
    ∃ (w : Word) (u : State), u = (s.skip 1).log .read 0x34 w ∧
      (∀ p, p < 32 → w.getLsbD p =
        if s.cfg.levelLoopback = true ∧ s.fsel.field p = 1 then s.outlatch.getLsbD p
        else (asWord (s.peek 0)).getLsbD p) ∧
      let n := if off ≥ 2 then 0 else min maxLen (2 - off)
      let text : List Byte := [if w.getLsbD pin then 0x31 else 0x30, 0x0A]
      (n = 0 → step s = .next (u.ret (.count 0 [])).reschedule) ∧
      (n ≠ 0 → s.Undisturbed 1 → asBool (s.peek 1) = false →
        step s = .next (((u.passed 1).skip 1).ret (.error .copyFault)).reschedule) ∧
      (∀ kept, n ≠ 0 → s.Undisturbed 1 → asBool (s.peek 1) = true →
        tableGet s.offsets id = some kept → step s = .next (({ (u.passed 1).skip 1 with
          offsets := tableSet s.offsets id (kept + n) } : State).ret
            (.count n ((text.drop off).take n))).reschedule) ∧
      (n ≠ 0 → s.Undisturbed 1 → asBool (s.peek 1) = true → tableGet s.offsets id = none →
        step s = .next
          (((u.passed 1).skip 1).ret (.count n ((text.drop off).take n))).reschedule) ∧
      (n ≠ 0 → s.othersEnabled = true → asBool (s.choice 0) = true → step s = .next
        ((u.passed 1).park (.sigRead (.copyOut id ((text.drop off).take n)))).reschedule)) ∧
  ∀ (s : State) (a : Agent) (id maxLen off pin : Nat), s.agent = some a →
    a.status = .inCall (.sigRead (.sample id maxLen off pin)) →
    (32 ≤ pin → step s = .next (s.raise .pinRange pin).reschedule) ∧
    (pin < 32 → s.mapping = none → step s = .next (s.raise .unmapped 0x34).reschedule)

/-- 43_signal_endpoint.md R197: a sig.write consults its first byte alone: CopyFault where the
transfer fails; else, undisturbed, the selection the byte names and the count 1, else
InvalidSelector; empty data are InvalidSelector without a transfer. Where the scheduler turns to
another agent after the transfer (20_memory.md R70), the call waits at its select with that
byte. Rests on the spec's own decisions D12, D17, D26, D27, and the model's log entries 1, 2,
10. -/
def Obligations.SigWriteResult : Prop :=
  ∀ (s : State) (id : Nat) (b : Byte) (rest : List Byte), tableGet s.sessions id = some .sig →
    (exec (.sigWrite id []) s = .next (s.ret (.error .invalidSelector))) ∧
    (asBool (s.peek 0) = false →
      exec (.sigWrite id (b :: rest)) s = .next ((s.skip 1).ret (.error .copyFault))) ∧
    (asBool (s.peek 0) = true → s.othersEnabled = true → asBool (s.choice 0) = true →
      exec (.sigWrite id (b :: rest)) s =
        .next (((s.passed 1).skip 1).park (.sigWrite (.select b)))) ∧
    (asBool (s.peek 0) = true → s.Undisturbed 1 →
      (b = 0x31 → exec (.sigWrite id (b :: rest)) s =
        .next ({ (s.passed 1).skip 1 with sel := .ch1 }.ret (.count 1 []))) ∧
      (b = 0x32 → exec (.sigWrite id (b :: rest)) s =
        .next ({ (s.passed 1).skip 1 with sel := .ch2 }.ret (.count 1 []))) ∧
      (b ≠ 0x31 → b ≠ 0x32 → exec (.sigWrite id (b :: rest)) s =
        .next (((s.passed 1).skip 1).ret (.error .invalidSelector))))

/-- 43_signal_endpoint.md R198, 44_led_endpoint.md R227: a close (OPC 0xA3, 0xC3) of a session
that exists and is the endpoint's removes it, and for a signal session the host's offset;
nothing else changes: the output latch, the selection, the mapping and every other session stay.
Any other close is refused. -/
def Obligations.CloseResult : Prop :=
  ∀ (s : State) (id : Nat),
    (encode (.sigClose id)).opc = 0xA3 ∧ (encode (.ledClose id)).opc = 0xC3 ∧
    (tableGet s.sessions id = some .sig → exec (.sigClose id) s =
      .next ({ s with sessions := tableErase s.sessions id
                      offsets := tableErase s.offsets id }.ret .ok)) ∧
    (tableGet s.sessions id = some .led → exec (.ledClose id) s =
      .next ({ s with sessions := tableErase s.sessions id }.ret .ok)) ∧
    (tableGet s.sessions id ≠ some .sig → exec (.sigClose id) s = .next (s.refuse .session)) ∧
    (tableGet s.sessions id ≠ some .led → exec (.ledClose id) s = .next (s.refuse .session)) ∧
    (tableWf s.sessions = true → tableGet (tableErase s.sessions id) id = none ∧
      ∀ j, j ≠ id → tableGet (tableErase s.sessions id) j = tableGet s.sessions j) ∧
    (tableWf s.offsets = true → tableGet (tableErase s.offsets id) id = none ∧
      ∀ j, j ≠ id → tableGet (tableErase s.offsets id) j = tableGet s.offsets j)

/-- 43_signal_endpoint.md R199, 44_led_endpoint.md R229, 60_exceptions.md R315: a read or write
on a session that does not exist or belongs to the other endpoint is refused with R_SESSION.
Rests on the spec's own decisions D29, D38, and the model's log entry 3. -/
def Obligations.WrongSessionRefused : Prop :=
  ∀ (s : State) (id n : Nat) (d : List Byte),
    (tableGet s.sessions id ≠ some .sig →
      exec (.sigRead id n) s = .next (s.refuse .session) ∧
      exec (.sigWrite id d) s = .next (s.refuse .session)) ∧
    (tableGet s.sessions id ≠ some .led →
      exec (.ledRead id n) s = .next (s.refuse .session) ∧
      exec (.ledWrite id d) s = .next (s.refuse .session))

/-- 43_signal_endpoint.md R200, 70_reset_and_hazards.md R357: undisturbed and with transfers
that succeed, a read of at least two bytes at offset 0 gives both bytes of one level, and the
next read of the session gives no byte, whatever was selected meanwhile. Rests on the spec's own
decisions D25, D27, D41, and the model's log entries 1, 2, 11. -/
def Obligations.EndOfDataAfterOneRead : Prop :=
  ∀ (s : State) (id m m' : Nat) (c : Channel), s.Undisturbed 3 → s.cfg.valid = true →
    s.mapping ≠ none → tableGet s.sessions id = some .sig → tableGet s.offsets id = some 0 → 2 ≤ m →
    asBool (s.peek 1) = true →
    ∃ (t : State) (d : Byte), (d = 0x30 ∨ d = 0x31) ∧
      exec (.sigRead id m) s = .next (t.ret (.count 2 [d, 0x0A])) ∧
      tableGet t.offsets id = some 2 ∧ t.agents = s.agents ∧
      ∃ u : State, exec (.sigRead id m') { t.ret (.count 2 [d, 0x0A]) with sel := c } =
          .next (u.ret (.count 0 [])) ∧
        tableGet u.offsets id = some 2 ∧ u.agents = (t.ret (.count 2 [d, 0x0A])).agents

/-! ### LED endpoint -/

/-- 44_led_endpoint.md R225: an open of the LED endpoint is AccessDenied where the host denies
it, else NoDevice where the endpoint is not registered, else it adds an LED session under an
identifier no session of a state meeting State.WF has, and no offset. Rests on the spec's own
decisions D17, D18, D29, and the model's log entries 2, 9. -/
def Obligations.LedOpenResult : Prop :=
  ∀ s : State,
    (asBool (s.peek 0) = true →
      exec .ledOpen s = .next ((s.skip 1).ret (.error .accessDenied))) ∧
    (asBool (s.peek 0) = false → s.ledReg = false →
      exec .ledOpen s = .next ((s.skip 1).ret (.error .noDevice))) ∧
    (asBool (s.peek 0) = false → s.ledReg = true →
      ∃ id, s.fresh ≤ id ∧ (s.WF → tableGet s.sessions id = none) ∧ exec .ledOpen s =
        .next ({ s.skip 2 with
          fresh := id + 1
          sessions := tableSet s.sessions id .led }.ret (.session id)))

/-- 44_led_endpoint.md R226, 30_encoding.md R104: undisturbed, an accepted value 0 drives
OUTPUT_PIN low by one write of CLR and any other value high by one write of SET; the count is
the bytes transferred, and no other latch bit changes. Where the scheduler turns to another
agent after the transfer (20_memory.md R70), the call waits at its drive with that value and
count; where not, it takes that drive, faults included. Rests on the spec's own decisions D5,
D6, D7, D12, D27, and the model's log entries 1, 2, 10. -/
def Obligations.LedWriteDrives : Prop :=
  ∀ (s : State) (id v : Nat) (d : List Byte), tableGet s.sessions id = some .led →
    asBool (s.peek 0) = true →
    let m := match s.cfg.ledEncoding with | .text => d.length | .binary => min d.length 4
    ledValue s.cfg.ledEncoding (d.take m) = some v →
    (s.othersEnabled = true → asBool (s.choice 0) = true → exec (.ledWrite id d) s =
      .next (((s.passed 1).skip 1).park (.ledWrite (.drive v m)))) ∧
    (s.Undisturbed 1 → exec (.ledWrite id d) s =
      .next (resume (.ledWrite (.drive v m)) ((s.passed 1).skip 1))) ∧
    (s.Undisturbed 1 → s.cfg.valid = true → s.mapping ≠ none →
      s.fsel.field s.cfg.outputPin = 1 →
      ∃ l : Word, exec (.ledWrite id d) s =
          .next (({ (s.passed 1).skip 1 with outlatch := l }.log .write
            (if v = 0 then 0x28 else 0x1C) (1#32 <<< s.cfg.outputPin)).ret (.count m [])) ∧
        ∀ q, q < 32 → l.getLsbD q =
          if q = s.cfg.outputPin then decide (v ≠ 0) else s.outlatch.getLsbD q)

/-- 44_led_endpoint.md R226, 60_exceptions.md R317: a failed transfer is CopyFault whatever the
data, then rejected data are InvalidValue; neither changes a register or the history. Rests on
the spec's own decisions D5, D6, D7, D17, D27, and the model's log entry 2. -/
def Obligations.LedWriteErrors : Prop :=
  ∀ (s : State) (id : Nat) (d : List Byte), tableGet s.sessions id = some .led →
    let m := match s.cfg.ledEncoding with | .text => d.length | .binary => min d.length 4
    (m ≠ 0 → asBool (s.peek 0) = false →
      exec (.ledWrite id d) s = .next ((s.skip 1).ret (.error .copyFault))) ∧
    (m ≠ 0 → asBool (s.peek 0) = true → ledValue s.cfg.ledEncoding (d.take m) = none →
      exec (.ledWrite id d) s = .next ((s.skip 1).ret (.error .invalidValue))) ∧
    (m = 0 → exec (.ledWrite id d) s = .next (s.ret (.error .invalidValue)))

/-- 30_encoding.md R102, 44_led_endpoint.md R226: with LED_ENCODING Text the decoder gives every
number up to 4294967295 from its decimal digits, with or without one final newline and with
leading zeros, and rejects a larger number, a byte that is no digit (a newline before the last
byte among them) and an empty text. Rests on the spec's own decision D5. -/
def Obligations.LedTextGrammar : Prop :=
  (∀ (n z : Nat) (t : List Byte),
    t = List.replicate z 0x30 ++ (Nat.toDigits 10 n).map (fun c => BitVec.ofNat 8 c.toNat) →
    ledValue .text t = (if n ≤ 4294967295 then some n else none) ∧
      ledValue .text (t ++ [0x0A]) = (if n ≤ 4294967295 then some n else none)) ∧
  (∀ (t u : List Byte) (b c : Byte), ¬ (0x30 ≤ b.toNat ∧ b.toNat ≤ 0x39) →
    ledValue .text (t ++ b :: u ++ [c]) = none) ∧
  (∀ (t : List Byte) (b : Byte), b ≠ 0x0A → ¬ (0x30 ≤ b.toNat ∧ b.toNat ≤ 0x39) →
    ledValue .text (t ++ [b]) = none) ∧
  ledValue .text [] = none ∧ ledValue .text [0x0A] = none

/-- 30_encoding.md R103, 44_led_endpoint.md R226: with LED_ENCODING Binary the decoder takes
four bytes, the first the least significant, every pattern in range and bytes after the fourth
unread; fewer are rejected. Rests on the spec's own decision D6. -/
def Obligations.LedBinaryValueIsLittleEndian : Prop :=
  (∀ (b0 b1 b2 b3 : Byte) (rest : List Byte), ledValue .binary (b0 :: b1 :: b2 :: b3 :: rest) =
    some (b0.toNat + 256 * b1.toNat + 65536 * b2.toNat + 16777216 * b3.toNat)) ∧
  ∀ d : List Byte, d.length < 4 → ledValue .binary d = none

/-- 44_led_endpoint.md R228: a read of an LED session returns NotSupported; no state changes.
Rests on the spec's own decision D28. -/
def Obligations.LedReadNotSupported : Prop :=
  ∀ (s : State) (id n : Nat), tableGet s.sessions id = some .led →
    exec (.ledRead id n) s = .next (s.ret (.error .notSupported))

/-! ### Lifecycle -/

/-- 46_lifecycle.md R270, 70_reset_and_hazards.md R351: a startup from Absent makes the phase
Starting and then waits at its map where the scheduler turns to another agent (20_memory.md
R70), and goes on with it where not. Undisturbed and with every draw successful, it ends Running
with a mapping, CH1 selected, both endpoints registered, the three configured fields set and
every other field, the output latch and the sessions as before, in six accesses in the given
order, each read giving the fields of its word as they then are. Rests on the spec's own
decisions D12, D31, D32, and the model's log entries 1, 2, 9, 10. -/
def Obligations.StartupSucceeds : Prop :=
  (∀ s : State, s.phase = .absent → exec .startup s =
    .next ({ s with phase := .starting }.goOn (.startup .map))) ∧
  ∀ s : State, s.Undisturbed 11 → s.cfg.valid = true → s.phase = .absent → s.mapping = none →
    s.sigReg = false → s.ledReg = false → asBool (s.peek 0) = true → asBool (s.peek 5) = true →
    asBool (s.peek 6) = true →
    ∃ (f : Fsel) (w1 w2 w3 : Word) (h : Nat), exec .startup s =
        .next ({ (s.passed 11).skip 7 with
          phase := .running
          mapping := some h
          fresh := h + 1
          sel := .ch1
          sigReg := true
          ledReg := true
          fsel := f
          history := s.history ++ ([
             ⟨s.current, .read, 4 * (s.cfg.inputPin1 / 10), w1⟩,
             ⟨s.current, .write, 4 * (s.cfg.inputPin1 / 10), withField w1 s.cfg.inputPin1 0⟩,
             ⟨s.current, .read, 4 * (s.cfg.inputPin2 / 10), w2⟩,
             ⟨s.current, .write, 4 * (s.cfg.inputPin2 / 10), withField w2 s.cfg.inputPin2 0⟩,
             ⟨s.current, .read, 4 * (s.cfg.outputPin / 10), w3⟩,
             ⟨s.current, .write, 4 * (s.cfg.outputPin / 10), withField w3 s.cfg.outputPin 1⟩] :
               List Event)
          }.ret .ok) ∧
      s.fresh ≤ h ∧
      (∀ q, q < 54 → q / 10 = s.cfg.inputPin1 / 10 →
        w1.extractLsb' (3 * (q % 10)) 3 = s.fsel.field q) ∧
      (∀ q, q < 54 → q / 10 = s.cfg.inputPin2 / 10 → w2.extractLsb' (3 * (q % 10)) 3 =
        if q = s.cfg.inputPin1 then 0 else s.fsel.field q) ∧
      (∀ q, q < 54 → q / 10 = s.cfg.outputPin / 10 → w3.extractLsb' (3 * (q % 10)) 3 =
        if q = s.cfg.inputPin1 ∨ q = s.cfg.inputPin2 then 0 else s.fsel.field q) ∧
      ∀ p, p < 54 → f.field p =
        if p = s.cfg.inputPin1 ∨ p = s.cfg.inputPin2 then 0
        else if p = s.cfg.outputPin then 1 else s.fsel.field p

/-- 46_lifecycle.md R270, R274: undisturbed, a startup whose mapping or one of whose
registrations fails returns that error with nothing leaked: not mapped, nothing registered,
phase Absent; the output latch is not written, and the configured fields are not restored. Rests
on the spec's own decisions D31, D39, and the model's log entries 1, 2, 24. -/
def Obligations.FailedStartupLeaksNothing : Prop :=
  ∀ s : State, s.cfg.valid = true → s.phase = .absent → s.mapping = none →
    s.sigReg = false → s.ledReg = false →
    (s.Undisturbed 2 → asBool (s.peek 0) = false →
      exec .startup s = .next (((s.passed 2).skip 1).ret (.error .mapFailure))) ∧
    (asBool (s.peek 0) = true →
      (s.Undisturbed 11 ∧ asBool (s.peek 5) = false ∨
        s.Undisturbed 13 ∧ asBool (s.peek 5) = true ∧ asBool (s.peek 6) = false) →
      ∃ t : State, exec .startup s = .next (t.ret (.error .registrationFailure)) ∧
        t.phase = .absent ∧ t.mapping = none ∧ t.sigReg = false ∧ t.ledReg = false ∧
        t.sel = .ch1 ∧ t.outlatch = s.outlatch ∧ t.sessions = s.sessions ∧
        t.offsets = s.offsets ∧ t.cfg = s.cfg ∧ t.faults = s.faults ∧
        t.refusalMark = s.refusalMark ∧ t.agents = s.agents ∧ t.current = s.current ∧
        t.history.length = s.history.length + 6 ∧
        ∀ p, p < 54 → t.fsel.field p =
          if p = s.cfg.inputPin1 ∨ p = s.cfg.inputPin2 then 0
          else if p = s.cfg.outputPin then 1 else s.fsel.field p)

/-- 46_lifecycle.md R271: a teardown from Running makes the phase Stopping and then waits at its
drive where the scheduler turns to another agent (20_memory.md R70, the spec's decision D30),
and goes on with it where not. Undisturbed, a teardown of a Running, configured block drives
OUTPUT_PIN low by one write of CLR, unmaps, deregisters both endpoints and ends Absent; sessions
stay open and the fields are not restored. Rests on the spec's own decisions D12, D30, D39, and
the model's log entries 1, 10. -/
def Obligations.TeardownResult : Prop :=
  (∀ s : State, s.phase = .running → exec .teardown s =
    .next ({ s with phase := .stopping }.goOn (.teardown .driveLow))) ∧
  ∀ s : State, s.Undisturbed 5 → s.phase = .running → s.mapping ≠ none → s.sigReg = true →
    s.ledReg = true → s.cfg.outputPin < 32 → s.fsel.field s.cfg.outputPin = 1 →
    ∃ l : Word, exec .teardown s =
        .next (({ s.passed 5 with
          phase := .absent
          mapping := none
          sigReg := false
          ledReg := false
          outlatch := l }.log .write 0x28 (1#32 <<< s.cfg.outputPin)).ret .ok) ∧
      ∀ q, q < 32 → l.getLsbD q = if q = s.cfg.outputPin then false else s.outlatch.getLsbD q

/-- 46_lifecycle.md R270, R271, 60_exceptions.md R315: a startup out of phase Absent and a
teardown out of phase Running are refused with R_LIFECYCLE before any of their steps. Rests on
the spec's own decisions D31, D38, and the model's log entry 3. -/
def Obligations.LifecycleOutOfPhaseRefused : Prop :=
  ∀ s : State,
    (s.phase ≠ .absent → exec .startup s = .next (s.refuse .lifecycle)) ∧
    (s.phase ≠ .running → exec .teardown s = .next (s.refuse .lifecycle))

/-- 46_lifecycle.md R272, R273: register_endpoint sets one registration flag where the host's
draw succeeds and fails with RegistrationFailure where not; deregister_endpoint clears one; the
wrong state of the flag is refused with R_LIFECYCLE. Rests on the spec's own decisions D29, D38,
and the model's log entry 2. -/
def Obligations.RegistrationResult : Prop :=
  ∀ (s : State) (k : Endpoint),
    (s.registered k = true →
      exec (.registerEndpoint k) s = .next (s.refuse .lifecycle) ∧
      exec (.deregisterEndpoint k) s = .next
        ((match k with
          | .sig => { s with sigReg := false }
          | .led => { s with ledReg := false }).ret .ok)) ∧
    (s.registered k = false →
      exec (.deregisterEndpoint k) s = .next (s.refuse .lifecycle) ∧
      (asBool (s.peek 0) = true → exec (.registerEndpoint k) s = .next
        ((match k with
          | .sig => { s.skip 1 with sigReg := true }
          | .led => { s.skip 1 with ledReg := true }).ret .ok)) ∧
      (asBool (s.peek 0) = false → exec (.registerEndpoint k) s =
        .next ((s.skip 1).ret (.error .registrationFailure))))

/-! ### Reset -/

/-- 10_state.md R57, 70_reset_and_hazards.md R350: at the start of a run nothing is mapped,
nothing registered, no session and no offset exists, phase is Absent and the records are empty;
the lifecycle agent is at its first call, which is startup, and the first step runs it. Rests on
the spec's own decisions D9, D34, and the model's log entry 6. -/
def Obligations.ResetValues : Prop :=
  State.reset.mapping = none ∧ State.reset.sigReg = false ∧ State.reset.ledReg = false ∧
  State.reset.sessions = [] ∧ State.reset.offsets = [] ∧ State.reset.phase = .absent ∧
  State.reset.faults = [] ∧ State.reset.history = [] ∧
  (∃ a, State.reset.agents = [a] ∧ a.kind = .lifecycle ∧ a.index = 0 ∧ a.status = .ready ∧
    a.fetch State.reset.cfg State.reset.sessions = .call (encode .startup)) ∧
  ∃ t, exec .startup State.reset = .next t ∧ step State.reset = .next t.reschedule

/-! ### The whole machine -/

/-- Every step keeps the maps and the fault record in their one form, identifiers below fresh,
one host offset for exactly the open signal sessions, and the pins of calls in progress tested
(10_state.md R52, R53, R55, 41_pin_control.md R150). Rests on the spec's own decision D25, and
the model's log entries 9, 22. -/
def Obligations.StepKeepsTables : Prop :=
  ∀ s t : State, s.WF → step s = .next t → t.WF

/-- The reset state has its maps in their one form and is orderly. Rests on the model's log
entries 6, 9, 22. -/
def Obligations.ResetIsOrderly : Prop := State.reset.WF ∧ State.reset.Orderly

/-- 10_state.md R55, R56, 60_exceptions.md R303: along every step the history only grows at its
end, the fault record loses nothing, the refusal mark stays set; and no step changes the
configuration. Rests on the spec's own decision D38, and the model's log entry 5. -/
def Obligations.RecordsOnlyGrow : Prop :=
  ∀ s t : State, step s = .next t →
    (∃ l, t.history = s.history ++ l) ∧ (∀ x ∈ s.faults, x ∈ t.faults) ∧
    (s.refusalMark = true → t.refusalMark = true) ∧ t.cfg = s.cfg

/-- 41_pin_control.md R155, 46_lifecycle.md R275: every step from an orderly state leads to an
orderly state: in particular in every Running state the configured pins have the functions
startup gave them, a mapping is live and both endpoints are registered. Rests on the spec's own
decisions D12, D31, and the model's log entries 7, 10. -/
def Obligations.StepKeepsOrder : Prop :=
  ∀ s t : State, s.Orderly → step s = .next t → t.Orderly

/-- 60_exceptions.md R311, R313, R314: no step from an orderly Running state raises a fault: no
call there meets an unmapped window, a bad offset, a pin out of range or a pin that is not an
output. Rests on the spec's own decisions D22, D23, D24, D31, and the model's log entries 7,
10. -/
def Obligations.RunningRaisesNoFault : Prop :=
  ∀ s t : State, s.Orderly → s.phase = .running → step s = .next t → t.faults = s.faults

/-- 41_pin_control.md R155, 10_state.md R44: no operation but write_word, set_function and
startup changes a function-select field, and no step but one that issues or goes on with such a
call. Rests on the spec's own decisions D4, D10, and the model's log entry 7. -/
def Obligations.FieldsOnlyWrittenBy : Prop :=
  (∀ (i : Instr) (s t : State), exec i s = .next t → t.fsel ≠ s.fsel →
    (∃ off v, i = .writeWord off v) ∨ (∃ p m, i = .setFunction p m) ∨ i = .startup) ∧
  ∀ s t : State, step s = .next t → t.fsel ≠ s.fsel →
    s.stepOp ∈ [some .writeWord, some .setFunction, some .startup]

/-- 10_state.md R40, R56: the output latch is changed only by write_word, set_high, set_low,
led.write and teardown, issued or gone on with, and whatever changes it records a write of SET
or CLR in the same step. The step clause has State.WF as its premise, since a call in progress
with a pin never tested is no call of a run. Rests on the spec's own decision D21, and the
model's log entries 7, 10. -/
def Obligations.LatchOnlyWrittenBy : Prop :=
  (∀ (i : Instr) (s t : State), exec i s = .next t → t.outlatch ≠ s.outlatch →
    ((∃ off v, i = .writeWord off v ∧ (off = 0x1C ∨ off = 0x28)) ∨ (∃ p, i = .setHigh p) ∨
      (∃ p, i = .setLow p) ∨ (∃ id d, i = .ledWrite id d) ∨ i = .teardown) ∧
    ∃ (l : List Event) (e : Event), t.history = s.history ++ l ∧ e ∈ l ∧ e.access = .write ∧
      (e.offset = 0x1C ∨ e.offset = 0x28)) ∧
  ∀ s t : State, s.WF → step s = .next t → t.outlatch ≠ s.outlatch →
    s.stepOp ∈ [some .writeWord, some .setHigh, some .setLow, some .ledWrite, some .teardown] ∧
    ∃ (l : List Event) (e : Event), t.history = s.history ++ l ∧ e ∈ l ∧ e.access = .write ∧
      (e.offset = 0x1C ∨ e.offset = 0x28)

/-- 10_state.md R49, R50, R51, R52, R53, R54: only startup and teardown change the phase, only
they, map and unmap the mapping, only they, register_endpoint and deregister_endpoint the
registration flags, only select, sig.write and startup the selection, only the opens and closes
the sessions, only sig.open, sig.read and sig.close the host's offsets; and so for every step
that issues or goes on with a call. Rests on the spec's own decisions D25, D29, D31, and the
model's log entry 7. -/
def Obligations.InstanceStateOnlyWrittenBy : Prop :=
  (∀ (i : Instr) (s t : State), exec i s = .next t →
    (t.phase ≠ s.phase → i = .startup ∨ i = .teardown) ∧
    (t.mapping ≠ s.mapping →
      i = .startup ∨ i = .teardown ∨ i = .unmap ∨ ∃ b n, i = .map b n) ∧
    (t.sigReg ≠ s.sigReg ∨ t.ledReg ≠ s.ledReg →
      i = .startup ∨ i = .teardown ∨ (∃ k, i = .registerEndpoint k) ∨
        ∃ k, i = .deregisterEndpoint k) ∧
    (t.sel ≠ s.sel → i = .startup ∨ (∃ b, i = .select b) ∨ ∃ id d, i = .sigWrite id d) ∧
    (t.sessions ≠ s.sessions → i = .sigOpen ∨ i = .ledOpen ∨ (∃ id, i = .sigClose id) ∨
      ∃ id, i = .ledClose id) ∧
    (t.offsets ≠ s.offsets → i = .sigOpen ∨ (∃ id n, i = .sigRead id n) ∨
      ∃ id, i = .sigClose id)) ∧
  ∀ s t : State, step s = .next t →
    (t.phase ≠ s.phase → s.stepOp ∈ [some .startup, some .teardown]) ∧
    (t.mapping ≠ s.mapping →
      s.stepOp ∈ [some .startup, some .teardown, some .unmap, some .map]) ∧
    (t.sigReg ≠ s.sigReg ∨ t.ledReg ≠ s.ledReg → s.stepOp ∈
      [some .startup, some .teardown, some .registerEndpoint, some .deregisterEndpoint]) ∧
    (t.sel ≠ s.sel → s.stepOp ∈ [some .startup, some .select, some .sigWrite]) ∧
    (t.sessions ≠ s.sessions →
      s.stepOp ∈ [some .sigOpen, some .ledOpen, some .sigClose, some .ledClose]) ∧
    (t.offsets ≠ s.offsets → s.stepOp ∈ [some .sigOpen, some .sigRead, some .sigClose])

/-! ### The host's side -/

/-- 45_host_client.md R255, R258, R260, 30_encoding.md R106: an open of SIG_PATH is sig.open, of
LED_PATH, where that is another path, led.open, and of any other path is not the block's; a
request on an open session, named by its identifier or by the call whose open returned it, is
dispatched to the session's own endpoint with all its data; a request on a session that is not
open, or on a name no open has bound, is refused with R_SESSION. Rests on the spec's own
decision D29, and the model's log entries 5, 12, 20, 26. -/
def Obligations.HostDispatch : Prop :=
  (∀ (c : Config) (tbl : List (Nat × Endpoint)) (rs : List Result) (p : String),
    (p = c.sigPath → hostDispatch c tbl rs (.openPath p) = .call (encode .sigOpen)) ∧
    (p = c.ledPath → p ≠ c.sigPath →
      hostDispatch c tbl rs (.openPath p) = .call (encode .ledOpen)) ∧
    (p ≠ c.sigPath → p ≠ c.ledPath → hostDispatch c tbl rs (.openPath p) = .foreignPath)) ∧
  (∀ (c : Config) (tbl : List (Nat × Endpoint)) (rs : List Result) (h : SessionRef) (id n : Nat)
      (d : List Byte),
    h = .id id ∨ (∃ k, h = .bound k ∧ rs[k]? = some (.session id)) →
    (tableGet tbl id = some .sig →
      hostDispatch c tbl rs (.read h n) = .call (encode (.sigRead id n)) ∧
      hostDispatch c tbl rs (.write h d) = .call (encode (.sigWrite id d)) ∧
      hostDispatch c tbl rs (.close h) = .call (encode (.sigClose id))) ∧
    (tableGet tbl id = some .led →
      hostDispatch c tbl rs (.read h n) = .call (encode (.ledRead id n)) ∧
      hostDispatch c tbl rs (.write h d) = .call (encode (.ledWrite id d)) ∧
      hostDispatch c tbl rs (.close h) = .call (encode (.ledClose id))) ∧
    (tableGet tbl id = none →
      hostDispatch c tbl rs (.read h n) = .noSession ∧
      hostDispatch c tbl rs (.write h d) = .noSession ∧
      hostDispatch c tbl rs (.close h) = .noSession)) ∧
  (∀ (c : Config) (tbl : List (Nat × Endpoint)) (rs : List Result) (k n : Nat) (d : List Byte),
    (∀ id, rs[k]? ≠ some (.session id)) →
    hostDispatch c tbl rs (.read (.bound k) n) = .noSession ∧
    hostDispatch c tbl rs (.write (.bound k) d) = .noSession ∧
    hostDispatch c tbl rs (.close (.bound k)) = .noSession) ∧
  ∀ (s : State) (a : Agent), s.agent = some a → a.status = .ready → s.cfg.valid = true →
    (a.fetch s.cfg s.sessions = .noSession → step s = .next (s.refuse .session).reschedule) ∧
    (a.fetch s.cfg s.sessions = .foreignPath → step s = .refused .foreignPath)

/-- 45_host_client.md R261 to R263: the client makes no call unless its one argument is `on` or
`off`; with such an argument it opens, writes once and closes; and it exits with 0 exactly when
it had such an argument and its open and its write succeeded. Its open is led.open even where
SIG_PATH and LED_PATH are one path, which is the model's choice (log entry 5). Rests on the
spec's own decision D36, and the model's log entries 5, 17. -/
def Obligations.ClientExitsWithSuccess : Prop :=
  (∀ (enc : LedEncoding) (argv : List (List Byte)) (rs : List Result),
    argv ≠ [[0x6F, 0x6E]] → argv ≠ [[0x6F, 0x66, 0x66]] →
    clientNext enc argv rs = .exited ∧ clientExitStatus argv rs = some 1) ∧
  (∀ (argv : List (List Byte)) (rs : List Result), clientExitStatus argv rs = some 0 →
    (argv = [[0x6F, 0x6E]] ∨ argv = [[0x6F, 0x66, 0x66]]) ∧
      ∃ id n bs rest, rs = .session id :: .count n bs :: rest) ∧
  ∀ (enc : LedEncoding) (id n : Nat) (bs : List Byte) (e : ErrorCode) (r : Result)
      (rest : List Result), ∀ on : Bool,
    let argv : List (List Byte) := if on then [[0x6F, 0x6E]] else [[0x6F, 0x66, 0x66]]
    clientNext enc argv [] = .call (encode .ledOpen) ∧
    clientNext enc argv [.session id] = .call (encode (.ledWrite id
      (match enc with
        | .text => [if on then 0x31 else 0x30]
        | .binary => [if on then 0x01 else 0x00, 0x00, 0x00, 0x00]))) ∧
    clientNext enc argv [.session id, r] = .call (encode (.ledClose id)) ∧
    clientExitStatus argv (.session id :: .count n bs :: r :: rest) = some 0 ∧
    clientExitStatus argv (.error e :: rest) = some 1 ∧
    clientExitStatus argv (.session id :: .error e :: r :: rest) = some 1
end

