-- ==== Sys2Proof/Laws/Fields.lean ====
section
/-!
SUPPORT. The function-select words and the level word field by field and bit by bit
(10_state.md R33, R35, R42, R44, 30_encoding.md R97).
-/

namespace Sys2Proof

/-- A stored FSEL word holds the pin bits of the word written and nothing in its reserved bits. -/
theorem word_store_same (f : Fsel) (k : Nat) (v : Word) (hk : k < 6) :
    (f.store k v).word k = v &&& fselPinMask k := by
  have h30 : (v.setWidth 30).setWidth 32 = v &&& 0x3FFFFFFF#32 := by
    ext i hi
    have : (0x3FFFFFFF#32).getLsbD i = decide (i < 30) := by
      interval_cases i <;> rfl
    simp [← BitVec.getLsbD_eq_getElem, this, Bool.and_comm]
    omega
  have h12 : (v.setWidth 12).setWidth 32 = v &&& 0x00000FFF#32 := by
    ext i hi
    have : (0x00000FFF#32).getLsbD i = decide (i < 12) := by
      interval_cases i <;> rfl
    simp [← BitVec.getLsbD_eq_getElem, this, Bool.and_comm]
    omega
  interval_cases k <;> simp [Fsel.store, Fsel.word, fselPinMask, h30, h12]

/-- A write of one FSEL word leaves the others alone. -/
theorem word_store_other (f : Fsel) (k j : Nat) (v : Word) (h : j ≠ k) :
    (f.store k v).word j = f.word j := by
  unfold Fsel.store
  split <;> first | rfl | (unfold Fsel.word; split <;> first | rfl | omega)

/-- Storing a word twice is storing it once (20_memory.md R66). -/
theorem store_store (f : Fsel) (k : Nat) (v : Word) : (f.store k v).store k v = f.store k v :=
  match k with
  | 0 | 1 | 2 | 3 | 4 | 5 => rfl
  | _ + 6 => rfl

/-- A stored FSEL word has no reserved bit. -/
theorem word_and_mask (f : Fsel) (k : Nat) : f.word k &&& fselPinMask k = f.word k := by
  have h30 : ∀ x : BitVec 30, x.setWidth 32 &&& 0x3FFFFFFF#32 = x.setWidth 32 := by
    intro x
    ext i hi
    have : (0x3FFFFFFF#32).getLsbD i = decide (i < 30) := by
      interval_cases i <;> rfl
    simp only [← BitVec.getLsbD_eq_getElem, BitVec.getLsbD_and, BitVec.getLsbD_setWidth, this]
    by_cases h : i < 30
    · simp [h]
    · simp [h, BitVec.getLsbD_of_ge x i (by omega)]
  have h12 : ∀ x : BitVec 12, x.setWidth 32 &&& 0x00000FFF#32 = x.setWidth 32 := by
    intro x
    ext i hi
    have : (0x00000FFF#32).getLsbD i = decide (i < 12) := by
      interval_cases i <;> rfl
    simp only [← BitVec.getLsbD_eq_getElem, BitVec.getLsbD_and, BitVec.getLsbD_setWidth, this]
    by_cases h : i < 12
    · simp [h]
    · simp [h, BitVec.getLsbD_of_ge x i (by omega)]
  unfold Fsel.word fselPinMask
  split <;> simp [h30, h12]

/-- The reserved bits drawn at a read are all that a read adds to the stored word. -/
theorem fselReadWord_and_mask (f : Fsel) (k : Nat) (d : Word) :
    fselReadWord f k d &&& fselPinMask k = f.word k := by
  have h : (d &&& ~~~ fselPinMask k) &&& fselPinMask k = 0#32 := by
    ext i hi
    simp only [BitVec.getElem_and, BitVec.getElem_not, BitVec.getElem_zero]
    cases d[i] <;> cases (fselPinMask k)[i] <;> rfl
  have h2 : fselReadWord f k d &&& fselPinMask k =
      (f.word k &&& fselPinMask k) ||| ((d &&& ~~~ fselPinMask k) &&& fselPinMask k) := by
    ext i hi
    simp [fselReadWord, Bool.and_or_distrib_right]
  rw [h2, h, word_and_mask]
  simp

/-- The pin mask covers the field of every pin of its word. -/
theorem fieldOf_and_mask (w : Word) (p : Nat) (hp : p < numPins) :
    fieldOf (w &&& fselPinMask (fselIndex p)) p = fieldOf w p := by
  unfold numPins at hp
  have hm : ∀ i, i < 3 → (fselPinMask (fselIndex p)).getLsbD (fieldShift p + i) = true := by
    intro i hi
    interval_cases p <;> interval_cases i <;> rfl
  unfold fieldOf
  ext i hi
  simp [hm i hi]

/-- The field of a pin in the word its FSEL register reads as is the stored field. -/
theorem fieldOf_fselReadWord (f : Fsel) (p : Nat) (d : Word) (hp : p < numPins) :
    fieldOf (fselReadWord f (fselIndex p) d) p = f.field p := by
  rw [← fieldOf_and_mask _ _ hp, fselReadWord_and_mask]
  rfl

/-- The field of a pin after one FSEL word is written (10_state.md R44). -/
theorem field_store (f : Fsel) (k p : Nat) (v : Word) (hp : p < numPins) :
    (f.store k v).field p = if fselIndex p = k then fieldOf v p else f.field p := by
  have hk : fselIndex p < 6 := by
    unfold numPins at hp
    unfold fselIndex
    omega
  split
  · next h =>
    subst h
    unfold Fsel.field
    rw [word_store_same _ _ _ hk, fieldOf_and_mask _ _ hp]
  · next h =>
    unfold Fsel.field
    rw [word_store_other _ _ _ _ h]

/-- The mask of a pin's field, bit by bit. -/
theorem getLsbD_fieldMask (p i : Nat) (hi : i < 32) :
    (fieldMask p).getLsbD i = (decide (fieldShift p ≤ i) && decide (i < fieldShift p + 3)) := by
  have hp : fieldShift p ≤ 27 := by
    unfold fieldShift
    omega
  have h7 : ∀ j, (7#32).getLsbD j = decide (j < 3) := by
    intro j
    by_cases hj : j < 3
    · interval_cases j <;> rfl
    · have h : (7#32).getLsbD j = (3#2 ++ 1#1 : BitVec 3).getLsbD j := by
        by_cases hj2 : j < 32
        · interval_cases j <;> first | omega | rfl
        · rw [BitVec.getLsbD_of_ge _ _ (by omega), BitVec.getLsbD_of_ge _ _ (by omega)]
      rw [h, BitVec.getLsbD_of_ge _ _ (by omega)]
      simp [hj]
  unfold fieldMask
  simp only [BitVec.getLsbD_shiftLeft, h7, hi, decide_true, Bool.true_and]
  by_cases h : fieldShift p ≤ i
  · simp [h, Nat.not_lt.mpr h]
    omega
  · simp [h, Nat.lt_of_not_le h]

/-- The word set_function writes has the mode in the pin's field (30_encoding.md R97). -/
theorem fieldOf_withField_same (w : Word) (p : Nat) (m : BitVec 3) :
    fieldOf (withField w p m) p = m := by
  have hp : fieldShift p ≤ 27 := by
    unfold fieldShift
    omega
  unfold fieldOf withField
  ext i hi
  rw [← BitVec.getLsbD_eq_getElem, ← BitVec.getLsbD_eq_getElem]
  have h1 : fieldShift p + i < 32 := by omega
  simp only [BitVec.getLsbD_extractLsb', hi, BitVec.getLsbD_or, BitVec.getLsbD_and,
    BitVec.getLsbD_not, getLsbD_fieldMask p _ h1, BitVec.getLsbD_shiftLeft,
    BitVec.getLsbD_setWidth, h1, decide_true]
  have h2 : fieldShift p + i - fieldShift p < 32 := by omega
  simp [hi]
  intro _
  omega

/-- Every other bit of the word set_function writes equals the bit read (30_encoding.md R97). -/
theorem getLsbD_withField_other (w : Word) (p i : Nat) (m : BitVec 3) (hi : i < 32)
    (h : ¬ (fieldShift p ≤ i ∧ i < fieldShift p + 3)) :
    (withField w p m).getLsbD i = w.getLsbD i := by
  unfold withField
  simp only [BitVec.getLsbD_or, BitVec.getLsbD_and, BitVec.getLsbD_not, getLsbD_fieldMask p i hi,
    BitVec.getLsbD_shiftLeft, BitVec.getLsbD_setWidth, hi, decide_true, Bool.true_and]
  by_cases h1 : fieldShift p ≤ i
  · have h2 : ¬ i < fieldShift p + 3 := fun h2 => h ⟨h1, h2⟩
    simp only [h2, decide_false, Bool.and_false, Bool.not_false, Bool.and_true]
    rw [BitVec.getLsbD_of_ge m _ (by omega)]
    simp
  · simp [h1, Nat.lt_of_not_le h1]

/-- The field of another pin of the same word is the field read (30_encoding.md R97). -/
theorem fieldOf_withField_other (w : Word) (p q : Nat) (m : BitVec 3)
    (h : fselIndex q = fselIndex p) (hne : q ≠ p) :
    fieldOf (withField w p m) q = fieldOf w q := by
  have hq : fieldShift q ≤ 27 := by
    unfold fieldShift
    omega
  have hdis : fieldShift q + 3 ≤ fieldShift p ∨ fieldShift p + 3 ≤ fieldShift q := by
    unfold fselIndex at h
    unfold fieldShift
    omega
  unfold fieldOf
  ext i hi
  rw [← BitVec.getLsbD_eq_getElem, ← BitVec.getLsbD_eq_getElem]
  simp only [BitVec.getLsbD_extractLsb', hi, decide_true, Bool.true_and]
  exact getLsbD_withField_other w p _ m (by omega) (by omega)

/-- The fields after set_function's write-back of the word it read (41_pin_control.md R150). -/
theorem field_store_withField (f : Fsel) (p q : Nat) (m : BitVec 3) (d : Word) (hp : p < numPins)
    (hq : q < numPins) :
    (f.store (fselIndex p) (withField (fselReadWord f (fselIndex p) d) p m)).field q =
      if q = p then m else f.field q := by
  rw [field_store _ _ _ _ hq]
  by_cases h : q = p
  · subst h
    simp [fieldOf_withField_same]
  · simp only [h, if_false]
    split
    · next hk =>
      rw [fieldOf_withField_other _ _ _ _ hk h, ← hk, fieldOf_fselReadWord _ _ _ hq]
    · rfl

/-- A word given bit by bit holds those bits. -/
theorem getLsbD_wordOfBits (f : Nat → Bool) (n i : Nat) (h : n ≤ 32) :
    (wordOfBits f n).getLsbD i = (decide (i < n) && f i) := by
  induction n with
  | zero => simp [wordOfBits]
  | succ n ih =>
    rw [wordOfBits, BitVec.getLsbD_or, ih (by omega)]
    by_cases hi : i = n
    · subst hi
      cases hf : f i
      · simp
      · simp
        omega
    · have hz : (if f n then 1#32 <<< n else 0#32).getLsbD i = false := by
        split
        · simp
          omega
        · simp
      have hlt : (i < n + 1) ↔ i < n := by omega
      rw [hz]
      simp [hlt]

/-- Bit p of the OUTPUT pins says whether the field of p is OUTPUT (10_state.md R42). -/
theorem getLsbD_outputPins (f : Fsel) (p : Nat) (hp : p < 32) :
    f.outputPins.getLsbD p = (f.field p == modeOutput) := by
  unfold Fsel.outputPins
  rw [getLsbD_wordOfBits _ _ _ (le_refl 32)]
  simp [hp]

/-- LEV bit by bit: the latch bit of an OUTPUT pin with loopback, else the drawn bit
(10_state.md R42). -/
theorem getLsbD_levReadWord (l : Bool) (f : Fsel) (latch d : Word) (p : Nat) (hp : p < 32) :
    (levReadWord l f latch d).getLsbD p =
      if l = true ∧ f.field p = modeOutput then latch.getLsbD p else d.getLsbD p := by
  unfold levReadWord
  cases l
  · simp
  · by_cases h : f.field p = modeOutput
    · simp [getLsbD_outputPins f p hp, h]
    · have h2 : f.outputPins.getLsbD p = false := by simp [getLsbD_outputPins f p hp, h]
      simp only [if_true, BitVec.getLsbD_or, BitVec.getLsbD_and, BitVec.getLsbD_not, h2, hp, h]
      simp

/-- The bit of a pin below 32 is set in its word and no other bit is (30_encoding.md R99). -/
theorem getLsbD_pinBit (p i : Nat) (hi : i < 32) : (pinBit p).getLsbD i = decide (i = p) := by
  unfold pinBit
  rw [BitVec.getLsbD_shiftLeft]
  by_cases h : i = p
  · simp [h]
    omega
  · by_cases h2 : i < p
    · simp [h, h2]
    · have h3 : (1#32).getLsbD (i - p) = decide (i - p = 0) := by
        rw [BitVec.getLsbD_one]
        simp
      rw [h3]
      simp [h]
      omega

end Sys2Proof
end

