-- ==== Sys2Proof/Laws/State.lean ====
section
/-!
SUPPORT. One lemma per field of State per named update: what the update leaves unchanged, so that no
later proof unfolds a record update.
-/

namespace Sys2Proof.Machine

variable (s : State)

/-! Taking draws changes the environment's queue and count alone. -/

@[simp] theorem skip_cfg (k : Nat) : (s.skip k).cfg = s.cfg := rfl
@[simp] theorem skip_fsel (k : Nat) : (s.skip k).fsel = s.fsel := rfl
@[simp] theorem skip_outlatch (k : Nat) : (s.skip k).outlatch = s.outlatch := rfl
@[simp] theorem skip_mapping (k : Nat) : (s.skip k).mapping = s.mapping := rfl
@[simp] theorem skip_sel (k : Nat) : (s.skip k).sel = s.sel := rfl
@[simp] theorem skip_sigReg (k : Nat) : (s.skip k).sigReg = s.sigReg := rfl
@[simp] theorem skip_ledReg (k : Nat) : (s.skip k).ledReg = s.ledReg := rfl
@[simp] theorem skip_sessions (k : Nat) : (s.skip k).sessions = s.sessions := rfl
@[simp] theorem skip_offsets (k : Nat) : (s.skip k).offsets = s.offsets := rfl
@[simp] theorem skip_phase (k : Nat) : (s.skip k).phase = s.phase := rfl
@[simp] theorem skip_faults (k : Nat) : (s.skip k).faults = s.faults := rfl
@[simp] theorem skip_refusalMark (k : Nat) : (s.skip k).refusalMark = s.refusalMark := rfl
@[simp] theorem skip_history (k : Nat) : (s.skip k).history = s.history := rfl
@[simp] theorem skip_agents (k : Nat) : (s.skip k).agents = s.agents := rfl
@[simp] theorem skip_current (k : Nat) : (s.skip k).current = s.current := rfl
@[simp] theorem skip_fresh (k : Nat) : (s.skip k).fresh = s.fresh := rfl
@[simp] theorem skip_sched (k : Nat) : (s.skip k).sched = s.sched := rfl
@[simp] theorem skip_schedTaken (k : Nat) : (s.skip k).schedTaken = s.schedTaken := rfl

/-! Changing the current agent changes the agents alone. -/

@[simp] theorem updateAgent_cfg (f : Agent → Agent) : (s.updateAgent f).cfg = s.cfg := rfl
@[simp] theorem updateAgent_fsel (f : Agent → Agent) : (s.updateAgent f).fsel = s.fsel := rfl
@[simp] theorem updateAgent_outlatch (f : Agent → Agent) :
    (s.updateAgent f).outlatch = s.outlatch := rfl
@[simp] theorem updateAgent_mapping (f : Agent → Agent) :
    (s.updateAgent f).mapping = s.mapping := rfl
@[simp] theorem updateAgent_sel (f : Agent → Agent) : (s.updateAgent f).sel = s.sel := rfl
@[simp] theorem updateAgent_sigReg (f : Agent → Agent) : (s.updateAgent f).sigReg = s.sigReg := rfl
@[simp] theorem updateAgent_ledReg (f : Agent → Agent) : (s.updateAgent f).ledReg = s.ledReg := rfl
@[simp] theorem updateAgent_sessions (f : Agent → Agent) :
    (s.updateAgent f).sessions = s.sessions := rfl
@[simp] theorem updateAgent_offsets (f : Agent → Agent) :
    (s.updateAgent f).offsets = s.offsets := rfl
@[simp] theorem updateAgent_phase (f : Agent → Agent) : (s.updateAgent f).phase = s.phase := rfl
@[simp] theorem updateAgent_faults (f : Agent → Agent) : (s.updateAgent f).faults = s.faults := rfl
@[simp] theorem updateAgent_refusalMark (f : Agent → Agent) :
    (s.updateAgent f).refusalMark = s.refusalMark := rfl
@[simp] theorem updateAgent_history (f : Agent → Agent) :
    (s.updateAgent f).history = s.history := rfl
@[simp] theorem updateAgent_current (f : Agent → Agent) :
    (s.updateAgent f).current = s.current := rfl
@[simp] theorem updateAgent_fresh (f : Agent → Agent) : (s.updateAgent f).fresh = s.fresh := rfl
@[simp] theorem updateAgent_env (f : Agent → Agent) : (s.updateAgent f).env = s.env := rfl
@[simp] theorem updateAgent_envTaken (f : Agent → Agent) :
    (s.updateAgent f).envTaken = s.envTaken := rfl
@[simp] theorem updateAgent_sched (f : Agent → Agent) : (s.updateAgent f).sched = s.sched := rfl
@[simp] theorem updateAgent_schedTaken (f : Agent → Agent) :
    (s.updateAgent f).schedTaken = s.schedTaken := rfl

/-! A return changes the agents alone. -/

@[simp] theorem ret_cfg (r : Result) : (s.ret r).cfg = s.cfg := rfl
@[simp] theorem ret_fsel (r : Result) : (s.ret r).fsel = s.fsel := rfl
@[simp] theorem ret_outlatch (r : Result) : (s.ret r).outlatch = s.outlatch := rfl
@[simp] theorem ret_mapping (r : Result) : (s.ret r).mapping = s.mapping := rfl
@[simp] theorem ret_sel (r : Result) : (s.ret r).sel = s.sel := rfl
@[simp] theorem ret_sigReg (r : Result) : (s.ret r).sigReg = s.sigReg := rfl
@[simp] theorem ret_ledReg (r : Result) : (s.ret r).ledReg = s.ledReg := rfl
@[simp] theorem ret_sessions (r : Result) : (s.ret r).sessions = s.sessions := rfl
@[simp] theorem ret_offsets (r : Result) : (s.ret r).offsets = s.offsets := rfl
@[simp] theorem ret_phase (r : Result) : (s.ret r).phase = s.phase := rfl
@[simp] theorem ret_faults (r : Result) : (s.ret r).faults = s.faults := rfl
@[simp] theorem ret_refusalMark (r : Result) : (s.ret r).refusalMark = s.refusalMark := rfl
@[simp] theorem ret_history (r : Result) : (s.ret r).history = s.history := rfl
@[simp] theorem ret_current (r : Result) : (s.ret r).current = s.current := rfl
@[simp] theorem ret_fresh (r : Result) : (s.ret r).fresh = s.fresh := rfl
@[simp] theorem ret_env (r : Result) : (s.ret r).env = s.env := rfl
@[simp] theorem ret_envTaken (r : Result) : (s.ret r).envTaken = s.envTaken := rfl
@[simp] theorem ret_sched (r : Result) : (s.ret r).sched = s.sched := rfl
@[simp] theorem ret_schedTaken (r : Result) : (s.ret r).schedTaken = s.schedTaken := rfl

/-! Parking a call changes the agents alone. -/

@[simp] theorem park_cfg (t : Task) : (s.park t).cfg = s.cfg := rfl
@[simp] theorem park_fsel (t : Task) : (s.park t).fsel = s.fsel := rfl
@[simp] theorem park_outlatch (t : Task) : (s.park t).outlatch = s.outlatch := rfl
@[simp] theorem park_mapping (t : Task) : (s.park t).mapping = s.mapping := rfl
@[simp] theorem park_sel (t : Task) : (s.park t).sel = s.sel := rfl
@[simp] theorem park_sigReg (t : Task) : (s.park t).sigReg = s.sigReg := rfl
@[simp] theorem park_ledReg (t : Task) : (s.park t).ledReg = s.ledReg := rfl
@[simp] theorem park_sessions (t : Task) : (s.park t).sessions = s.sessions := rfl
@[simp] theorem park_offsets (t : Task) : (s.park t).offsets = s.offsets := rfl
@[simp] theorem park_phase (t : Task) : (s.park t).phase = s.phase := rfl
@[simp] theorem park_faults (t : Task) : (s.park t).faults = s.faults := rfl
@[simp] theorem park_refusalMark (t : Task) : (s.park t).refusalMark = s.refusalMark := rfl
@[simp] theorem park_history (t : Task) : (s.park t).history = s.history := rfl
@[simp] theorem park_current (t : Task) : (s.park t).current = s.current := rfl
@[simp] theorem park_fresh (t : Task) : (s.park t).fresh = s.fresh := rfl
@[simp] theorem park_env (t : Task) : (s.park t).env = s.env := rfl
@[simp] theorem park_envTaken (t : Task) : (s.park t).envTaken = s.envTaken := rfl
@[simp] theorem park_sched (t : Task) : (s.park t).sched = s.sched := rfl
@[simp] theorem park_schedTaken (t : Task) : (s.park t).schedTaken = s.schedTaken := rfl

/-! A fault changes the agents and the fault record alone. -/

@[simp] theorem raise_cfg (f : FaultCode) (n : Nat) : (s.raise f n).cfg = s.cfg := rfl
@[simp] theorem raise_fsel (f : FaultCode) (n : Nat) : (s.raise f n).fsel = s.fsel := rfl
@[simp] theorem raise_outlatch (f : FaultCode) (n : Nat) :
    (s.raise f n).outlatch = s.outlatch := rfl
@[simp] theorem raise_mapping (f : FaultCode) (n : Nat) : (s.raise f n).mapping = s.mapping := rfl
@[simp] theorem raise_sel (f : FaultCode) (n : Nat) : (s.raise f n).sel = s.sel := rfl
@[simp] theorem raise_sigReg (f : FaultCode) (n : Nat) : (s.raise f n).sigReg = s.sigReg := rfl
@[simp] theorem raise_ledReg (f : FaultCode) (n : Nat) : (s.raise f n).ledReg = s.ledReg := rfl
@[simp] theorem raise_sessions (f : FaultCode) (n : Nat) :
    (s.raise f n).sessions = s.sessions := rfl
@[simp] theorem raise_offsets (f : FaultCode) (n : Nat) : (s.raise f n).offsets = s.offsets := rfl
@[simp] theorem raise_phase (f : FaultCode) (n : Nat) : (s.raise f n).phase = s.phase := rfl
@[simp] theorem raise_refusalMark (f : FaultCode) (n : Nat) :
    (s.raise f n).refusalMark = s.refusalMark := rfl
@[simp] theorem raise_history (f : FaultCode) (n : Nat) : (s.raise f n).history = s.history := rfl
@[simp] theorem raise_current (f : FaultCode) (n : Nat) : (s.raise f n).current = s.current := rfl
@[simp] theorem raise_fresh (f : FaultCode) (n : Nat) : (s.raise f n).fresh = s.fresh := rfl
@[simp] theorem raise_env (f : FaultCode) (n : Nat) : (s.raise f n).env = s.env := rfl
@[simp] theorem raise_envTaken (f : FaultCode) (n : Nat) :
    (s.raise f n).envTaken = s.envTaken := rfl
@[simp] theorem raise_sched (f : FaultCode) (n : Nat) : (s.raise f n).sched = s.sched := rfl
@[simp] theorem raise_schedTaken (f : FaultCode) (n : Nat) :
    (s.raise f n).schedTaken = s.schedTaken := rfl

/-! A refusal changes the agents and the refusal mark alone. -/

@[simp] theorem refuse_cfg (r : RefusalReason) : (s.refuse r).cfg = s.cfg := rfl
@[simp] theorem refuse_fsel (r : RefusalReason) : (s.refuse r).fsel = s.fsel := rfl
@[simp] theorem refuse_outlatch (r : RefusalReason) : (s.refuse r).outlatch = s.outlatch := rfl
@[simp] theorem refuse_mapping (r : RefusalReason) : (s.refuse r).mapping = s.mapping := rfl
@[simp] theorem refuse_sel (r : RefusalReason) : (s.refuse r).sel = s.sel := rfl
@[simp] theorem refuse_sigReg (r : RefusalReason) : (s.refuse r).sigReg = s.sigReg := rfl
@[simp] theorem refuse_ledReg (r : RefusalReason) : (s.refuse r).ledReg = s.ledReg := rfl
@[simp] theorem refuse_sessions (r : RefusalReason) : (s.refuse r).sessions = s.sessions := rfl
@[simp] theorem refuse_offsets (r : RefusalReason) : (s.refuse r).offsets = s.offsets := rfl
@[simp] theorem refuse_phase (r : RefusalReason) : (s.refuse r).phase = s.phase := rfl
@[simp] theorem refuse_faults (r : RefusalReason) : (s.refuse r).faults = s.faults := rfl
@[simp] theorem refuse_history (r : RefusalReason) : (s.refuse r).history = s.history := rfl
@[simp] theorem refuse_current (r : RefusalReason) : (s.refuse r).current = s.current := rfl
@[simp] theorem refuse_fresh (r : RefusalReason) : (s.refuse r).fresh = s.fresh := rfl
@[simp] theorem refuse_env (r : RefusalReason) : (s.refuse r).env = s.env := rfl
@[simp] theorem refuse_envTaken (r : RefusalReason) : (s.refuse r).envTaken = s.envTaken := rfl
@[simp] theorem refuse_sched (r : RefusalReason) : (s.refuse r).sched = s.sched := rfl
@[simp] theorem refuse_schedTaken (r : RefusalReason) :
    (s.refuse r).schedTaken = s.schedTaken := rfl

/-! An event changes the history alone. -/

@[simp] theorem log_cfg (a : AccessKind) (off : Nat) (v : Word) : (s.log a off v).cfg = s.cfg := rfl
@[simp] theorem log_fsel (a : AccessKind) (off : Nat) (v : Word) :
    (s.log a off v).fsel = s.fsel := rfl
@[simp] theorem log_outlatch (a : AccessKind) (off : Nat) (v : Word) :
    (s.log a off v).outlatch = s.outlatch := rfl
@[simp] theorem log_mapping (a : AccessKind) (off : Nat) (v : Word) :
    (s.log a off v).mapping = s.mapping := rfl
@[simp] theorem log_sel (a : AccessKind) (off : Nat) (v : Word) : (s.log a off v).sel = s.sel := rfl
@[simp] theorem log_sigReg (a : AccessKind) (off : Nat) (v : Word) :
    (s.log a off v).sigReg = s.sigReg := rfl
@[simp] theorem log_ledReg (a : AccessKind) (off : Nat) (v : Word) :
    (s.log a off v).ledReg = s.ledReg := rfl
@[simp] theorem log_sessions (a : AccessKind) (off : Nat) (v : Word) :
    (s.log a off v).sessions = s.sessions := rfl
@[simp] theorem log_offsets (a : AccessKind) (off : Nat) (v : Word) :
    (s.log a off v).offsets = s.offsets := rfl
@[simp] theorem log_phase (a : AccessKind) (off : Nat) (v : Word) :
    (s.log a off v).phase = s.phase := rfl
@[simp] theorem log_faults (a : AccessKind) (off : Nat) (v : Word) :
    (s.log a off v).faults = s.faults := rfl
@[simp] theorem log_refusalMark (a : AccessKind) (off : Nat) (v : Word) :
    (s.log a off v).refusalMark = s.refusalMark := rfl
@[simp] theorem log_agents (a : AccessKind) (off : Nat) (v : Word) :
    (s.log a off v).agents = s.agents := rfl
@[simp] theorem log_current (a : AccessKind) (off : Nat) (v : Word) :
    (s.log a off v).current = s.current := rfl
@[simp] theorem log_fresh (a : AccessKind) (off : Nat) (v : Word) :
    (s.log a off v).fresh = s.fresh := rfl
@[simp] theorem log_env (a : AccessKind) (off : Nat) (v : Word) : (s.log a off v).env = s.env := rfl
@[simp] theorem log_envTaken (a : AccessKind) (off : Nat) (v : Word) :
    (s.log a off v).envTaken = s.envTaken := rfl
@[simp] theorem log_sched (a : AccessKind) (off : Nat) (v : Word) :
    (s.log a off v).sched = s.sched := rfl
@[simp] theorem log_schedTaken (a : AccessKind) (off : Nat) (v : Word) :
    (s.log a off v).schedTaken = s.schedTaken := rfl

/-! Issuing an identifier takes one draw and moves the bound. -/

@[simp] theorem takeFresh_cfg : s.takeFresh.cfg = s.cfg := rfl
@[simp] theorem takeFresh_fsel : s.takeFresh.fsel = s.fsel := rfl
@[simp] theorem takeFresh_outlatch : s.takeFresh.outlatch = s.outlatch := rfl
@[simp] theorem takeFresh_mapping : s.takeFresh.mapping = s.mapping := rfl
@[simp] theorem takeFresh_sel : s.takeFresh.sel = s.sel := rfl
@[simp] theorem takeFresh_sigReg : s.takeFresh.sigReg = s.sigReg := rfl
@[simp] theorem takeFresh_ledReg : s.takeFresh.ledReg = s.ledReg := rfl
@[simp] theorem takeFresh_sessions : s.takeFresh.sessions = s.sessions := rfl
@[simp] theorem takeFresh_offsets : s.takeFresh.offsets = s.offsets := rfl
@[simp] theorem takeFresh_phase : s.takeFresh.phase = s.phase := rfl
@[simp] theorem takeFresh_faults : s.takeFresh.faults = s.faults := rfl
@[simp] theorem takeFresh_refusalMark : s.takeFresh.refusalMark = s.refusalMark := rfl
@[simp] theorem takeFresh_history : s.takeFresh.history = s.history := rfl
@[simp] theorem takeFresh_agents : s.takeFresh.agents = s.agents := rfl
@[simp] theorem takeFresh_current : s.takeFresh.current = s.current := rfl
@[simp] theorem takeFresh_sched : s.takeFresh.sched = s.sched := rfl
@[simp] theorem takeFresh_schedTaken : s.takeFresh.schedTaken = s.schedTaken := rfl

/-! A MemRead takes one draw and appends one event (10_state.md R47). -/

@[simp] theorem afterRead_cfg (off : Nat) : (s.afterRead off).cfg = s.cfg := rfl
@[simp] theorem afterRead_fsel (off : Nat) : (s.afterRead off).fsel = s.fsel := rfl
@[simp] theorem afterRead_outlatch (off : Nat) : (s.afterRead off).outlatch = s.outlatch := rfl
@[simp] theorem afterRead_mapping (off : Nat) : (s.afterRead off).mapping = s.mapping := rfl
@[simp] theorem afterRead_sel (off : Nat) : (s.afterRead off).sel = s.sel := rfl
@[simp] theorem afterRead_sigReg (off : Nat) : (s.afterRead off).sigReg = s.sigReg := rfl
@[simp] theorem afterRead_ledReg (off : Nat) : (s.afterRead off).ledReg = s.ledReg := rfl
@[simp] theorem afterRead_sessions (off : Nat) : (s.afterRead off).sessions = s.sessions := rfl
@[simp] theorem afterRead_offsets (off : Nat) : (s.afterRead off).offsets = s.offsets := rfl
@[simp] theorem afterRead_phase (off : Nat) : (s.afterRead off).phase = s.phase := rfl
@[simp] theorem afterRead_faults (off : Nat) : (s.afterRead off).faults = s.faults := rfl
@[simp] theorem afterRead_refusalMark (off : Nat) :
    (s.afterRead off).refusalMark = s.refusalMark := rfl
@[simp] theorem afterRead_agents (off : Nat) : (s.afterRead off).agents = s.agents := rfl
@[simp] theorem afterRead_current (off : Nat) : (s.afterRead off).current = s.current := rfl
@[simp] theorem afterRead_fresh (off : Nat) : (s.afterRead off).fresh = s.fresh := rfl
@[simp] theorem afterRead_sched (off : Nat) : (s.afterRead off).sched = s.sched := rfl
@[simp] theorem afterRead_schedTaken (off : Nat) :
    (s.afterRead off).schedTaken = s.schedTaken := rfl

/-! Closing changes the sessions alone. -/

@[simp] theorem removeSession_cfg (id : Nat) : (s.removeSession id).cfg = s.cfg := rfl
@[simp] theorem removeSession_fsel (id : Nat) : (s.removeSession id).fsel = s.fsel := rfl
@[simp] theorem removeSession_outlatch (id : Nat) :
    (s.removeSession id).outlatch = s.outlatch := rfl
@[simp] theorem removeSession_mapping (id : Nat) : (s.removeSession id).mapping = s.mapping := rfl
@[simp] theorem removeSession_sel (id : Nat) : (s.removeSession id).sel = s.sel := rfl
@[simp] theorem removeSession_sigReg (id : Nat) : (s.removeSession id).sigReg = s.sigReg := rfl
@[simp] theorem removeSession_ledReg (id : Nat) : (s.removeSession id).ledReg = s.ledReg := rfl
@[simp] theorem removeSession_offsets (id : Nat) : (s.removeSession id).offsets = s.offsets := rfl
@[simp] theorem removeSession_phase (id : Nat) : (s.removeSession id).phase = s.phase := rfl
@[simp] theorem removeSession_faults (id : Nat) : (s.removeSession id).faults = s.faults := rfl
@[simp] theorem removeSession_refusalMark (id : Nat) :
    (s.removeSession id).refusalMark = s.refusalMark := rfl
@[simp] theorem removeSession_history (id : Nat) : (s.removeSession id).history = s.history := rfl
@[simp] theorem removeSession_agents (id : Nat) : (s.removeSession id).agents = s.agents := rfl
@[simp] theorem removeSession_current (id : Nat) : (s.removeSession id).current = s.current := rfl
@[simp] theorem removeSession_fresh (id : Nat) : (s.removeSession id).fresh = s.fresh := rfl
@[simp] theorem removeSession_env (id : Nat) : (s.removeSession id).env = s.env := rfl
@[simp] theorem removeSession_envTaken (id : Nat) :
    (s.removeSession id).envTaken = s.envTaken := rfl
@[simp] theorem removeSession_sched (id : Nat) : (s.removeSession id).sched = s.sched := rfl
@[simp] theorem removeSession_schedTaken (id : Nat) :
    (s.removeSession id).schedTaken = s.schedTaken := rfl

/-! Opening issues an identifier and changes the sessions. -/

@[simp] theorem addSession_cfg (k : Endpoint) : (s.addSession k).cfg = s.cfg := rfl
@[simp] theorem addSession_fsel (k : Endpoint) : (s.addSession k).fsel = s.fsel := rfl
@[simp] theorem addSession_outlatch (k : Endpoint) : (s.addSession k).outlatch = s.outlatch := rfl
@[simp] theorem addSession_mapping (k : Endpoint) : (s.addSession k).mapping = s.mapping := rfl
@[simp] theorem addSession_sel (k : Endpoint) : (s.addSession k).sel = s.sel := rfl
@[simp] theorem addSession_sigReg (k : Endpoint) : (s.addSession k).sigReg = s.sigReg := rfl
@[simp] theorem addSession_ledReg (k : Endpoint) : (s.addSession k).ledReg = s.ledReg := rfl
@[simp] theorem addSession_offsets (k : Endpoint) : (s.addSession k).offsets = s.offsets := rfl
@[simp] theorem addSession_phase (k : Endpoint) : (s.addSession k).phase = s.phase := rfl
@[simp] theorem addSession_faults (k : Endpoint) : (s.addSession k).faults = s.faults := rfl
@[simp] theorem addSession_refusalMark (k : Endpoint) :
    (s.addSession k).refusalMark = s.refusalMark := rfl
@[simp] theorem addSession_history (k : Endpoint) : (s.addSession k).history = s.history := rfl
@[simp] theorem addSession_agents (k : Endpoint) : (s.addSession k).agents = s.agents := rfl
@[simp] theorem addSession_current (k : Endpoint) : (s.addSession k).current = s.current := rfl
@[simp] theorem addSession_sched (k : Endpoint) : (s.addSession k).sched = s.sched := rfl
@[simp] theorem addSession_schedTaken (k : Endpoint) :
    (s.addSession k).schedTaken = s.schedTaken := rfl

/-! A scheduler's choice changes its queue and count alone. -/

@[simp] theorem schedSkip_cfg : s.schedSkip.cfg = s.cfg := by unfold State.schedSkip; split <;> rfl
@[simp] theorem schedSkip_fsel :
    s.schedSkip.fsel = s.fsel := by unfold State.schedSkip; split <;> rfl
@[simp] theorem schedSkip_outlatch :
    s.schedSkip.outlatch = s.outlatch := by unfold State.schedSkip; split <;> rfl
@[simp] theorem schedSkip_mapping :
    s.schedSkip.mapping = s.mapping := by unfold State.schedSkip; split <;> rfl
@[simp] theorem schedSkip_sel : s.schedSkip.sel = s.sel := by unfold State.schedSkip; split <;> rfl
@[simp] theorem schedSkip_sigReg :
    s.schedSkip.sigReg = s.sigReg := by unfold State.schedSkip; split <;> rfl
@[simp] theorem schedSkip_ledReg :
    s.schedSkip.ledReg = s.ledReg := by unfold State.schedSkip; split <;> rfl
@[simp] theorem schedSkip_sessions :
    s.schedSkip.sessions = s.sessions := by unfold State.schedSkip; split <;> rfl
@[simp] theorem schedSkip_offsets :
    s.schedSkip.offsets = s.offsets := by unfold State.schedSkip; split <;> rfl
@[simp] theorem schedSkip_phase :
    s.schedSkip.phase = s.phase := by unfold State.schedSkip; split <;> rfl
@[simp] theorem schedSkip_faults :
    s.schedSkip.faults = s.faults := by unfold State.schedSkip; split <;> rfl
@[simp] theorem schedSkip_refusalMark :
    s.schedSkip.refusalMark = s.refusalMark := by unfold State.schedSkip; split <;> rfl
@[simp] theorem schedSkip_history :
    s.schedSkip.history = s.history := by unfold State.schedSkip; split <;> rfl
@[simp] theorem schedSkip_agents :
    s.schedSkip.agents = s.agents := by unfold State.schedSkip; split <;> rfl
@[simp] theorem schedSkip_current :
    s.schedSkip.current = s.current := by unfold State.schedSkip; split <;> rfl
@[simp] theorem schedSkip_fresh :
    s.schedSkip.fresh = s.fresh := by unfold State.schedSkip; split <;> rfl
@[simp] theorem schedSkip_env : s.schedSkip.env = s.env := by unfold State.schedSkip; split <;> rfl
@[simp] theorem schedSkip_envTaken :
    s.schedSkip.envTaken = s.envTaken := by unfold State.schedSkip; split <;> rfl

/-! A register write changes FSEL and the output latch alone. -/

@[simp] theorem storeRegister_cfg (off : Nat) (v : Word) :
    (s.storeRegister off v).cfg = s.cfg := by unfold State.storeRegister; split_ifs <;> rfl
@[simp] theorem storeRegister_mapping (off : Nat) (v : Word) :
    (s.storeRegister off v).mapping = s.mapping := by unfold State.storeRegister; split_ifs <;> rfl
@[simp] theorem storeRegister_sel (off : Nat) (v : Word) :
    (s.storeRegister off v).sel = s.sel := by unfold State.storeRegister; split_ifs <;> rfl
@[simp] theorem storeRegister_sigReg (off : Nat) (v : Word) :
    (s.storeRegister off v).sigReg = s.sigReg := by unfold State.storeRegister; split_ifs <;> rfl
@[simp] theorem storeRegister_ledReg (off : Nat) (v : Word) :
    (s.storeRegister off v).ledReg = s.ledReg := by unfold State.storeRegister; split_ifs <;> rfl
@[simp] theorem storeRegister_sessions (off : Nat) (v : Word) :
    (s.storeRegister off v).sessions = s.sessions := by unfold State.storeRegister; split_ifs <;> rfl
@[simp] theorem storeRegister_offsets (off : Nat) (v : Word) :
    (s.storeRegister off v).offsets = s.offsets := by unfold State.storeRegister; split_ifs <;> rfl
@[simp] theorem storeRegister_phase (off : Nat) (v : Word) :
    (s.storeRegister off v).phase = s.phase := by unfold State.storeRegister; split_ifs <;> rfl
@[simp] theorem storeRegister_faults (off : Nat) (v : Word) :
    (s.storeRegister off v).faults = s.faults := by unfold State.storeRegister; split_ifs <;> rfl
@[simp] theorem storeRegister_refusalMark (off : Nat) (v : Word) :
    (s.storeRegister off v).refusalMark = s.refusalMark := by unfold State.storeRegister; split_ifs <;> rfl
@[simp] theorem storeRegister_history (off : Nat) (v : Word) :
    (s.storeRegister off v).history = s.history := by unfold State.storeRegister; split_ifs <;> rfl
@[simp] theorem storeRegister_agents (off : Nat) (v : Word) :
    (s.storeRegister off v).agents = s.agents := by unfold State.storeRegister; split_ifs <;> rfl
@[simp] theorem storeRegister_current (off : Nat) (v : Word) :
    (s.storeRegister off v).current = s.current := by unfold State.storeRegister; split_ifs <;> rfl
@[simp] theorem storeRegister_fresh (off : Nat) (v : Word) :
    (s.storeRegister off v).fresh = s.fresh := by unfold State.storeRegister; split_ifs <;> rfl
@[simp] theorem storeRegister_env (off : Nat) (v : Word) :
    (s.storeRegister off v).env = s.env := by unfold State.storeRegister; split_ifs <;> rfl
@[simp] theorem storeRegister_envTaken (off : Nat) (v : Word) :
    (s.storeRegister off v).envTaken = s.envTaken := by unfold State.storeRegister; split_ifs <;> rfl
@[simp] theorem storeRegister_sched (off : Nat) (v : Word) :
    (s.storeRegister off v).sched = s.sched := by unfold State.storeRegister; split_ifs <;> rfl
@[simp] theorem storeRegister_schedTaken (off : Nat) (v : Word) :
    (s.storeRegister off v).schedTaken = s.schedTaken := by unfold State.storeRegister; split_ifs <;> rfl

/-! A MemWrite changes FSEL, the output latch and the history alone. -/

@[simp] theorem afterWrite_cfg (off : Nat) (v : Word) :
    (s.afterWrite off v).cfg = s.cfg := by simp [State.afterWrite]
@[simp] theorem afterWrite_mapping (off : Nat) (v : Word) :
    (s.afterWrite off v).mapping = s.mapping := by simp [State.afterWrite]
@[simp] theorem afterWrite_sel (off : Nat) (v : Word) :
    (s.afterWrite off v).sel = s.sel := by simp [State.afterWrite]
@[simp] theorem afterWrite_sigReg (off : Nat) (v : Word) :
    (s.afterWrite off v).sigReg = s.sigReg := by simp [State.afterWrite]
@[simp] theorem afterWrite_ledReg (off : Nat) (v : Word) :
    (s.afterWrite off v).ledReg = s.ledReg := by simp [State.afterWrite]
@[simp] theorem afterWrite_sessions (off : Nat) (v : Word) :
    (s.afterWrite off v).sessions = s.sessions := by simp [State.afterWrite]
@[simp] theorem afterWrite_offsets (off : Nat) (v : Word) :
    (s.afterWrite off v).offsets = s.offsets := by simp [State.afterWrite]
@[simp] theorem afterWrite_phase (off : Nat) (v : Word) :
    (s.afterWrite off v).phase = s.phase := by simp [State.afterWrite]
@[simp] theorem afterWrite_faults (off : Nat) (v : Word) :
    (s.afterWrite off v).faults = s.faults := by simp [State.afterWrite]
@[simp] theorem afterWrite_refusalMark (off : Nat) (v : Word) :
    (s.afterWrite off v).refusalMark = s.refusalMark := by simp [State.afterWrite]
@[simp] theorem afterWrite_agents (off : Nat) (v : Word) :
    (s.afterWrite off v).agents = s.agents := by simp [State.afterWrite]
@[simp] theorem afterWrite_current (off : Nat) (v : Word) :
    (s.afterWrite off v).current = s.current := by simp [State.afterWrite]
@[simp] theorem afterWrite_fresh (off : Nat) (v : Word) :
    (s.afterWrite off v).fresh = s.fresh := by simp [State.afterWrite]
@[simp] theorem afterWrite_env (off : Nat) (v : Word) :
    (s.afterWrite off v).env = s.env := by simp [State.afterWrite]
@[simp] theorem afterWrite_envTaken (off : Nat) (v : Word) :
    (s.afterWrite off v).envTaken = s.envTaken := by simp [State.afterWrite]
@[simp] theorem afterWrite_sched (off : Nat) (v : Word) :
    (s.afterWrite off v).sched = s.sched := by simp [State.afterWrite]
@[simp] theorem afterWrite_schedTaken (off : Nat) (v : Word) :
    (s.afterWrite off v).schedTaken = s.schedTaken := by simp [State.afterWrite]

/-! A host transfer takes at most one draw. -/

@[simp] theorem afterCopy_cfg (n : Nat) :
    (s.afterCopy n).cfg = s.cfg := by unfold State.afterCopy; split <;> rfl
@[simp] theorem afterCopy_fsel (n : Nat) :
    (s.afterCopy n).fsel = s.fsel := by unfold State.afterCopy; split <;> rfl
@[simp] theorem afterCopy_outlatch (n : Nat) :
    (s.afterCopy n).outlatch = s.outlatch := by unfold State.afterCopy; split <;> rfl
@[simp] theorem afterCopy_mapping (n : Nat) :
    (s.afterCopy n).mapping = s.mapping := by unfold State.afterCopy; split <;> rfl
@[simp] theorem afterCopy_sel (n : Nat) :
    (s.afterCopy n).sel = s.sel := by unfold State.afterCopy; split <;> rfl
@[simp] theorem afterCopy_sigReg (n : Nat) :
    (s.afterCopy n).sigReg = s.sigReg := by unfold State.afterCopy; split <;> rfl
@[simp] theorem afterCopy_ledReg (n : Nat) :
    (s.afterCopy n).ledReg = s.ledReg := by unfold State.afterCopy; split <;> rfl
@[simp] theorem afterCopy_sessions (n : Nat) :
    (s.afterCopy n).sessions = s.sessions := by unfold State.afterCopy; split <;> rfl
@[simp] theorem afterCopy_offsets (n : Nat) :
    (s.afterCopy n).offsets = s.offsets := by unfold State.afterCopy; split <;> rfl
@[simp] theorem afterCopy_phase (n : Nat) :
    (s.afterCopy n).phase = s.phase := by unfold State.afterCopy; split <;> rfl
@[simp] theorem afterCopy_faults (n : Nat) :
    (s.afterCopy n).faults = s.faults := by unfold State.afterCopy; split <;> rfl
@[simp] theorem afterCopy_refusalMark (n : Nat) :
    (s.afterCopy n).refusalMark = s.refusalMark := by unfold State.afterCopy; split <;> rfl
@[simp] theorem afterCopy_history (n : Nat) :
    (s.afterCopy n).history = s.history := by unfold State.afterCopy; split <;> rfl
@[simp] theorem afterCopy_agents (n : Nat) :
    (s.afterCopy n).agents = s.agents := by unfold State.afterCopy; split <;> rfl
@[simp] theorem afterCopy_current (n : Nat) :
    (s.afterCopy n).current = s.current := by unfold State.afterCopy; split <;> rfl
@[simp] theorem afterCopy_fresh (n : Nat) :
    (s.afterCopy n).fresh = s.fresh := by unfold State.afterCopy; split <;> rfl
@[simp] theorem afterCopy_sched (n : Nat) :
    (s.afterCopy n).sched = s.sched := by unfold State.afterCopy; split <;> rfl
@[simp] theorem afterCopy_schedTaken (n : Nat) :
    (s.afterCopy n).schedTaken = s.schedTaken := by unfold State.afterCopy; split <;> rfl

/-! Advancing a host offset changes the offsets alone. -/

@[simp] theorem advanceOffset_cfg (id n : Nat) :
    (s.advanceOffset id n).cfg = s.cfg := by unfold State.advanceOffset; split <;> rfl
@[simp] theorem advanceOffset_fsel (id n : Nat) :
    (s.advanceOffset id n).fsel = s.fsel := by unfold State.advanceOffset; split <;> rfl
@[simp] theorem advanceOffset_outlatch (id n : Nat) :
    (s.advanceOffset id n).outlatch = s.outlatch := by unfold State.advanceOffset; split <;> rfl
@[simp] theorem advanceOffset_mapping (id n : Nat) :
    (s.advanceOffset id n).mapping = s.mapping := by unfold State.advanceOffset; split <;> rfl
@[simp] theorem advanceOffset_sel (id n : Nat) :
    (s.advanceOffset id n).sel = s.sel := by unfold State.advanceOffset; split <;> rfl
@[simp] theorem advanceOffset_sigReg (id n : Nat) :
    (s.advanceOffset id n).sigReg = s.sigReg := by unfold State.advanceOffset; split <;> rfl
@[simp] theorem advanceOffset_ledReg (id n : Nat) :
    (s.advanceOffset id n).ledReg = s.ledReg := by unfold State.advanceOffset; split <;> rfl
@[simp] theorem advanceOffset_sessions (id n : Nat) :
    (s.advanceOffset id n).sessions = s.sessions := by unfold State.advanceOffset; split <;> rfl
@[simp] theorem advanceOffset_phase (id n : Nat) :
    (s.advanceOffset id n).phase = s.phase := by unfold State.advanceOffset; split <;> rfl
@[simp] theorem advanceOffset_faults (id n : Nat) :
    (s.advanceOffset id n).faults = s.faults := by unfold State.advanceOffset; split <;> rfl
@[simp] theorem advanceOffset_refusalMark (id n : Nat) :
    (s.advanceOffset id n).refusalMark = s.refusalMark := by unfold State.advanceOffset; split <;> rfl
@[simp] theorem advanceOffset_history (id n : Nat) :
    (s.advanceOffset id n).history = s.history := by unfold State.advanceOffset; split <;> rfl
@[simp] theorem advanceOffset_agents (id n : Nat) :
    (s.advanceOffset id n).agents = s.agents := by unfold State.advanceOffset; split <;> rfl
@[simp] theorem advanceOffset_current (id n : Nat) :
    (s.advanceOffset id n).current = s.current := by unfold State.advanceOffset; split <;> rfl
@[simp] theorem advanceOffset_fresh (id n : Nat) :
    (s.advanceOffset id n).fresh = s.fresh := by unfold State.advanceOffset; split <;> rfl
@[simp] theorem advanceOffset_env (id n : Nat) :
    (s.advanceOffset id n).env = s.env := by unfold State.advanceOffset; split <;> rfl
@[simp] theorem advanceOffset_envTaken (id n : Nat) :
    (s.advanceOffset id n).envTaken = s.envTaken := by unfold State.advanceOffset; split <;> rfl
@[simp] theorem advanceOffset_sched (id n : Nat) :
    (s.advanceOffset id n).sched = s.sched := by unfold State.advanceOffset; split <;> rfl
@[simp] theorem advanceOffset_schedTaken (id n : Nat) :
    (s.advanceOffset id n).schedTaken = s.schedTaken := by unfold State.advanceOffset; split <;> rfl

/-! Registration changes the two registration flags alone. -/

@[simp] theorem setRegistered_cfg (k : Endpoint) (b : Bool) :
    (s.setRegistered k b).cfg = s.cfg := by cases k <;> rfl
@[simp] theorem setRegistered_fsel (k : Endpoint) (b : Bool) :
    (s.setRegistered k b).fsel = s.fsel := by cases k <;> rfl
@[simp] theorem setRegistered_outlatch (k : Endpoint) (b : Bool) :
    (s.setRegistered k b).outlatch = s.outlatch := by cases k <;> rfl
@[simp] theorem setRegistered_mapping (k : Endpoint) (b : Bool) :
    (s.setRegistered k b).mapping = s.mapping := by cases k <;> rfl
@[simp] theorem setRegistered_sel (k : Endpoint) (b : Bool) :
    (s.setRegistered k b).sel = s.sel := by cases k <;> rfl
@[simp] theorem setRegistered_sessions (k : Endpoint) (b : Bool) :
    (s.setRegistered k b).sessions = s.sessions := by cases k <;> rfl
@[simp] theorem setRegistered_offsets (k : Endpoint) (b : Bool) :
    (s.setRegistered k b).offsets = s.offsets := by cases k <;> rfl
@[simp] theorem setRegistered_phase (k : Endpoint) (b : Bool) :
    (s.setRegistered k b).phase = s.phase := by cases k <;> rfl
@[simp] theorem setRegistered_faults (k : Endpoint) (b : Bool) :
    (s.setRegistered k b).faults = s.faults := by cases k <;> rfl
@[simp] theorem setRegistered_refusalMark (k : Endpoint) (b : Bool) :
    (s.setRegistered k b).refusalMark = s.refusalMark := by cases k <;> rfl
@[simp] theorem setRegistered_history (k : Endpoint) (b : Bool) :
    (s.setRegistered k b).history = s.history := by cases k <;> rfl
@[simp] theorem setRegistered_agents (k : Endpoint) (b : Bool) :
    (s.setRegistered k b).agents = s.agents := by cases k <;> rfl
@[simp] theorem setRegistered_current (k : Endpoint) (b : Bool) :
    (s.setRegistered k b).current = s.current := by cases k <;> rfl
@[simp] theorem setRegistered_fresh (k : Endpoint) (b : Bool) :
    (s.setRegistered k b).fresh = s.fresh := by cases k <;> rfl
@[simp] theorem setRegistered_env (k : Endpoint) (b : Bool) :
    (s.setRegistered k b).env = s.env := by cases k <;> rfl
@[simp] theorem setRegistered_envTaken (k : Endpoint) (b : Bool) :
    (s.setRegistered k b).envTaken = s.envTaken := by cases k <;> rfl
@[simp] theorem setRegistered_sched (k : Endpoint) (b : Bool) :
    (s.setRegistered k b).sched = s.sched := by cases k <;> rfl
@[simp] theorem setRegistered_schedTaken (k : Endpoint) (b : Bool) :
    (s.setRegistered k b).schedTaken = s.schedTaken := by cases k <;> rfl

/-! Choosing the next agent changes the schedule alone. -/

@[simp] theorem reschedule_cfg :
    s.reschedule.cfg = s.cfg := by unfold State.reschedule; split <;> simp
@[simp] theorem reschedule_fsel :
    s.reschedule.fsel = s.fsel := by unfold State.reschedule; split <;> simp
@[simp] theorem reschedule_outlatch :
    s.reschedule.outlatch = s.outlatch := by unfold State.reschedule; split <;> simp
@[simp] theorem reschedule_mapping :
    s.reschedule.mapping = s.mapping := by unfold State.reschedule; split <;> simp
@[simp] theorem reschedule_sel :
    s.reschedule.sel = s.sel := by unfold State.reschedule; split <;> simp
@[simp] theorem reschedule_sigReg :
    s.reschedule.sigReg = s.sigReg := by unfold State.reschedule; split <;> simp
@[simp] theorem reschedule_ledReg :
    s.reschedule.ledReg = s.ledReg := by unfold State.reschedule; split <;> simp
@[simp] theorem reschedule_sessions :
    s.reschedule.sessions = s.sessions := by unfold State.reschedule; split <;> simp
@[simp] theorem reschedule_offsets :
    s.reschedule.offsets = s.offsets := by unfold State.reschedule; split <;> simp
@[simp] theorem reschedule_phase :
    s.reschedule.phase = s.phase := by unfold State.reschedule; split <;> simp
@[simp] theorem reschedule_faults :
    s.reschedule.faults = s.faults := by unfold State.reschedule; split <;> simp
@[simp] theorem reschedule_refusalMark :
    s.reschedule.refusalMark = s.refusalMark := by unfold State.reschedule; split <;> simp
@[simp] theorem reschedule_history :
    s.reschedule.history = s.history := by unfold State.reschedule; split <;> simp
@[simp] theorem reschedule_agents :
    s.reschedule.agents = s.agents := by unfold State.reschedule; split <;> simp
@[simp] theorem reschedule_fresh :
    s.reschedule.fresh = s.fresh := by unfold State.reschedule; split <;> simp
@[simp] theorem reschedule_env :
    s.reschedule.env = s.env := by unfold State.reschedule; split <;> simp
@[simp] theorem reschedule_envTaken :
    s.reschedule.envTaken = s.envTaken := by unfold State.reschedule; split <;> simp

/-! The fields an update does change, where one term says what they become. -/

@[simp] theorem log_history (a : AccessKind) (off : Nat) (v : Word) :
    (s.log a off v).history = s.history ++ [⟨s.current, a, off, v⟩] := rfl
@[simp] theorem afterRead_history (off : Nat) :
    (s.afterRead off).history = s.history ++ [⟨s.current, .read, off, s.memValue off⟩] := rfl
@[simp] theorem afterWrite_history (off : Nat) (v : Word) :
    (s.afterWrite off v).history = s.history ++ [⟨s.current, .write, off, v⟩] := by
  simp [State.afterWrite]
@[simp] theorem afterWrite_fsel (off : Nat) (v : Word) :
    (s.afterWrite off v).fsel = (s.storeRegister off v).fsel := rfl
@[simp] theorem afterWrite_outlatch (off : Nat) (v : Word) :
    (s.afterWrite off v).outlatch = (s.storeRegister off v).outlatch := rfl
@[simp] theorem raise_faults (f : FaultCode) (n : Nat) :
    (s.raise f n).faults = faultInsert s.faults (f, n) := rfl
@[simp] theorem refuse_refusalMark (r : RefusalReason) : (s.refuse r).refusalMark = true := rfl
@[simp] theorem takeFresh_fresh : s.takeFresh.fresh = s.freshId + 1 := rfl
@[simp] theorem removeSession_sessions (id : Nat) :
    (s.removeSession id).sessions = tableErase s.sessions id := rfl
@[simp] theorem addSession_sessions (k : Endpoint) :
    (s.addSession k).sessions = tableSet s.sessions s.freshId k := rfl
@[simp] theorem addSession_fresh (k : Endpoint) : (s.addSession k).fresh = s.freshId + 1 := rfl
@[simp] theorem registered_setRegistered (k : Endpoint) (b : Bool) :
    (s.setRegistered k b).registered k = b := by cases k <;> rfl

/-- Draws seen past k taken ones. -/
@[simp] theorem peek_skip (k j : Nat) : (s.skip k).peek j = s.peek (k + j) := by
  by_cases h : k + j < s.env.length
  · simp [State.peek, State.skip, List.getElem?_drop, List.getElem?_eq_getElem h]
  · have h1 : s.env[k + j]? = none := List.getElem?_eq_none (by omega)
    simp only [State.peek, State.skip, List.getElem?_drop, List.length_drop, h1]
    congr 1
    omega

/-- Taking k draws and then j is taking k + j. -/
@[simp] theorem skip_skip (k j : Nat) : (s.skip k).skip j = s.skip (k + j) := by
  simp only [State.skip, List.drop_drop, List.length_drop]
  congr 1
  omega

/-- A draw looks at the environment's queue and count alone. -/
theorem peek_congr {s t : State} (h1 : s.env = t.env) (h2 : s.envTaken = t.envTaken) (k : Nat) :
    s.peek k = t.peek k := by
  simp [State.peek, h1, h2]

/-- Whether others are enabled depends on the agents and the current one alone. -/
theorem othersEnabled_congr {s t : State} (h1 : s.agents = t.agents) (h2 : s.current = t.current) :
    s.othersEnabled = t.othersEnabled := by
  simp [State.othersEnabled, State.enabledAgents, h1, h2]

end Sys2Proof.Machine
end

