-- ==== Sys2Proof/Laws/Tables.lean ====
section
/-!
SUPPORT. Maps with strictly rising keys and the fault record: what a get sees after a set or an
erase, and that every operation keeps the one form (10_state.md R52, R53, R55).
-/

namespace Sys2Proof.Machine

variable {α : Type}

/-- A set is seen at its key. -/
@[simp] theorem tableGet_set_same (l : List (Nat × α)) (k : Nat) (v : α) :
    tableGet (tableSet l k v) k = some v := by
  induction l with
  | nil => simp [tableSet, tableGet]
  | cons e l ih =>
    obtain ⟨j, u⟩ := e
    unfold tableSet
    split_ifs with h1 h2
    · simp [tableGet]
    · simp [tableGet]
    · simp [tableGet, Ne.symm h2, ih]

/-- A set is not seen at another key. -/
theorem tableGet_set_other (l : List (Nat × α)) (k j : Nat) (v : α) (h : j ≠ k) :
    tableGet (tableSet l k v) j = tableGet l j := by
  induction l with
  | nil => simp [tableSet, tableGet, Ne.symm h]
  | cons e l ih =>
    obtain ⟨i, u⟩ := e
    unfold tableSet
    split_ifs with h1 h2
    · simp [tableGet, Ne.symm h]
    · subst h2
      simp [tableGet, Ne.symm h]
    · simp [tableGet, ih]

/-- Nothing is below the bound of a rising map. -/
theorem tableGet_below (l : List (Nat × α)) (b k : Nat) (h : tableRising b l = true) (hk : k < b) :
    tableGet l k = none := by
  induction l generalizing b with
  | nil => rfl
  | cons e l ih =>
    obtain ⟨j, u⟩ := e
    simp only [tableRising, Bool.and_eq_true, decide_eq_true_eq] at h
    have hj : j ≠ k := by omega
    simp [tableGet, hj, ih (j + 1) h.2 (by omega)]

/-- A lower bound serves as well. -/
theorem tableRising_mono (l : List (Nat × α)) (b c : Nat) (h : tableRising b l = true)
    (hc : c ≤ b) : tableRising c l = true := by
  cases l with
  | nil => rfl
  | cons e l =>
    obtain ⟨j, u⟩ := e
    simp only [tableRising, Bool.and_eq_true, decide_eq_true_eq] at h ⊢
    exact ⟨by omega, h.2⟩

/-- Setting a key keeps the keys rising. -/
theorem tableRising_set (l : List (Nat × α)) (b k : Nat) (v : α) (h : tableRising b l = true)
    (hk : b ≤ k) : tableRising b (tableSet l k v) = true := by
  induction l generalizing b with
  | nil => simp [tableSet, tableRising, hk]
  | cons e l ih =>
    obtain ⟨j, u⟩ := e
    simp only [tableRising, Bool.and_eq_true, decide_eq_true_eq] at h
    unfold tableSet
    split_ifs with h1 h2
    · have : k + 1 ≤ j := h1
      simp [tableRising, hk, h.2, this]
    · subst h2
      simp [tableRising, hk, h.2]
    · simp [tableRising, h.1, ih (j + 1) h.2 (by omega)]

/-- Erasing a key keeps the keys rising. -/
theorem tableRising_erase (l : List (Nat × α)) (b k : Nat) (h : tableRising b l = true) :
    tableRising b (tableErase l k) = true := by
  induction l generalizing b with
  | nil => rfl
  | cons e l ih =>
    obtain ⟨j, u⟩ := e
    simp only [tableRising, Bool.and_eq_true, decide_eq_true_eq] at h
    unfold tableErase
    split_ifs with h1
    · exact tableRising_mono l _ _ h.2 (by omega)
    · simp [tableRising, h.1, ih (j + 1) h.2]

/-- A set keeps the one form of a map. -/
theorem tableWf_set (l : List (Nat × α)) (k : Nat) (v : α) (h : tableWf l = true) :
    tableWf (tableSet l k v) = true :=
  tableRising_set l 0 k v h (Nat.zero_le k)

/-- An erase keeps the one form of a map. -/
theorem tableWf_erase (l : List (Nat × α)) (k : Nat) (h : tableWf l = true) :
    tableWf (tableErase l k) = true :=
  tableRising_erase l 0 k h

/-- An erased key is gone. -/
theorem tableGet_erase_same (l : List (Nat × α)) (b k : Nat) (h : tableRising b l = true) :
    tableGet (tableErase l k) k = none := by
  induction l generalizing b with
  | nil => rfl
  | cons e l ih =>
    obtain ⟨j, u⟩ := e
    simp only [tableRising, Bool.and_eq_true, decide_eq_true_eq] at h
    unfold tableErase
    split_ifs with h1
    · exact tableGet_below l (j + 1) k h.2 (by omega)
    · simp [tableGet, h1, ih (j + 1) h.2]

/-- Another key is not touched by an erase. -/
theorem tableGet_erase_other (l : List (Nat × α)) (k j : Nat) (h : j ≠ k) :
    tableGet (tableErase l k) j = tableGet l j := by
  induction l with
  | nil => rfl
  | cons e l ih =>
    obtain ⟨i, u⟩ := e
    unfold tableErase
    split_ifs with h1
    · subst h1
      simp [tableGet, Ne.symm h]
    · simp [tableGet, ih]

/-- The fault codes have numbers of their own. -/
theorem number_injective {a b : FaultCode} (h : a.number = b.number) : a = b := by
  cases a <;> cases b <;> simp_all [FaultCode.number]

/-- Two pairs, neither before the other, are equal. -/
theorem eq_of_not_before {x y : FaultCode × Nat} (h1 : faultBefore x y = false)
    (h2 : faultBefore y x = false) : x = y := by
  obtain ⟨a, i⟩ := x
  obtain ⟨b, j⟩ := y
  simp only [faultBefore, Bool.or_eq_false_iff, Bool.and_eq_false_iff, decide_eq_false_iff_not,
    beq_eq_false_iff_ne] at h1 h2
  have hab : a = b := number_injective (by omega)
  subst hab
  have hij : i = j := by
    simp at h1 h2
    omega
  rw [hij]

/-- Membership in the fault record after an insertion: a set (10_state.md R55). -/
theorem mem_faultInsert (l : List (FaultCode × Nat)) (x z : FaultCode × Nat) :
    z ∈ faultInsert l x ↔ z = x ∨ z ∈ l := by
  induction l with
  | nil => simp [faultInsert]
  | cons y l ih =>
    unfold faultInsert
    split_ifs with h1 h2
    · simp
    · subst h2
      simp
    · simp [ih]
      tauto

/-- An insertion keeps the fault record in its one form. -/
theorem faultsWf_insert (l : List (FaultCode × Nat)) (x : FaultCode × Nat) (h : faultsWf l = true) :
    faultsWf (faultInsert l x) = true := by
  induction l with
  | nil => rfl
  | cons y l ih =>
    unfold faultInsert
    split_ifs with h1 h2
    · simp [faultsWf, h1, h]
    · exact h
    · have hyx : faultBefore y x = true := by
        by_contra hc
        exact h2 (eq_of_not_before (by simpa using h1) (by simpa using hc))
      cases l with
      | nil => simp [faultInsert, faultsWf, hyx]
      | cons z l =>
        simp only [faultsWf, Bool.and_eq_true] at h
        have ih' := ih h.2
        unfold faultInsert at ih' ⊢
        split_ifs at ih' ⊢ with h3 h4
        · simp [faultsWf, hyx, h3, h.2]
        · simp [faultsWf, h.1, h.2]
        · simpa [faultsWf, h.1] using ih'

end Sys2Proof.Machine
end

