-- ==== Sys2Proof/Laws/Ops.lean ====
section
/-!
SUPPORT. One lemma for each shared operation that says everything it can do, and the run of a call:
what it does undisturbed, and what every run keeps.
-/

namespace Sys2Proof.Machine

/-! ### Replies -/

/-- What every reply of a value or an error says of its state. -/
def Reply.Keeps {α : Type} (P : State → Prop) : Reply α → Prop
  | .ok _ s => P s
  | .error _ s => P s
  | .raise _ _ => True
  | .refuse _ => True

/-- Mapping a reply's value keeps what the reply says of its state. -/
@[simp] theorem Reply.keeps_map {α β : Type} (P : State → Prop) (f : α → β) (r : Reply α) :
    (r.map f).Keeps P ↔ r.Keeps P := by
  cases r <;> rfl

/-- A startup's branch keeps what the reply says of its state. -/
@[simp] theorem keeps_orRollback {α : Type} (P : State → Prop) (r : Reply α)
    (go back : StartupTask) : (orRollback r go back).Keeps P ↔ r.Keeps P := by
  cases r <;> rfl

/-- The readable offsets, as numbers (10_state.md R32). -/
theorem mem_readableOffsets (off : Nat) :
    readableOffsets.contains off = true ↔ off = 0x34 ∨ ∃ k, k < 6 ∧ off = 4 * k := by
  simp only [readableOffsets, List.contains_iff_mem, List.mem_cons, List.not_mem_nil, or_false]
  constructor
  · rintro (h | h | h | h | h | h | h)
    · exact Or.inr ⟨0, by omega, h⟩
    · exact Or.inr ⟨1, by omega, h⟩
    · exact Or.inr ⟨2, by omega, h⟩
    · exact Or.inr ⟨3, by omega, h⟩
    · exact Or.inr ⟨4, by omega, h⟩
    · exact Or.inr ⟨5, by omega, h⟩
    · exact Or.inl h
  · rintro (h | ⟨k, hk, h⟩) <;> omega

/-- The writable offsets, as numbers (10_state.md R32). -/
theorem mem_writableOffsets (off : Nat) :
    writableOffsets.contains off = true ↔ off = 0x1C ∨ off = 0x28 ∨ ∃ k, k < 6 ∧ off = 4 * k := by
  simp only [writableOffsets, List.contains_iff_mem, List.mem_cons, List.not_mem_nil, or_false]
  constructor
  · rintro (h | h | h | h | h | h | h | h)
    · exact Or.inr (Or.inr ⟨0, by omega, h⟩)
    · exact Or.inr (Or.inr ⟨1, by omega, h⟩)
    · exact Or.inr (Or.inr ⟨2, by omega, h⟩)
    · exact Or.inr (Or.inr ⟨3, by omega, h⟩)
    · exact Or.inr (Or.inr ⟨4, by omega, h⟩)
    · exact Or.inr (Or.inr ⟨5, by omega, h⟩)
    · exact Or.inl h
    · exact Or.inr (Or.inl h)
  · rintro (h | h | ⟨k, hk, h⟩) <;> omega

/-- A pin's FSEL offset is readable and writable (10_state.md R37). -/
theorem fselOffset_named (p : Nat) (hp : p < numPins) :
    readableOffsets.contains (fselOffset p) = true ∧ writableOffsets.contains (fselOffset p) = true := by
  unfold numPins at hp
  unfold fselOffset fselIndex
  constructor
  · exact (mem_readableOffsets _).mpr (Or.inr ⟨p / 10, by omega, rfl⟩)
  · exact (mem_writableOffsets _).mpr (Or.inr (Or.inr ⟨p / 10, by omega, rfl⟩))

/-- What `read_word` can do (40_register_block.md R132). -/
theorem readWord_eq (off : Nat) (s : State) :
    readWord off s =
      if s.mapping = none then .raise .unmapped off
      else if readableOffsets.contains off = true then .ok (s.memValue off) (s.afterRead off)
      else .raise .badOffset off := by
  unfold readWord
  cases s.mapping <;> cases readableOffsets.contains off <;> simp

/-- What `write_word` can do (40_register_block.md R133). -/
theorem writeWord_eq (off : Nat) (v : Word) (s : State) :
    writeWord off v s =
      if s.mapping = none then .raise .unmapped off
      else if writableOffsets.contains off = true then .ok () (s.afterWrite off v)
      else .raise .badOffset off := by
  unfold writeWord
  cases s.mapping <;> cases writableOffsets.contains off <;> simp

/-- What `set_high` and `set_low` can do (41_pin_control.md R152, R153). -/
theorem drivePin_eq (off pin : Nat) (s : State) (h : writableOffsets.contains off = true) :
    drivePin off pin s =
      if levelPins ≤ pin then .raise .pinRange pin
      else if s.fsel.field pin = modeOutput then
        if s.mapping = none then .raise .unmapped off else .ok () (s.afterWrite off (pinBit pin))
      else .raise .driveNotOutput pin := by
  unfold drivePin
  rw [writeWord_eq, h]
  split_ifs <;> simp_all

/-- What `read_level` can do (41_pin_control.md R151). -/
theorem readLevel_eq (pin : Nat) (s : State) :
    readLevel pin s =
      if levelPins ≤ pin then .raise .pinRange pin
      else if s.mapping = none then .raise .unmapped 0x34
      else .ok ((s.memValue 0x34).getLsbD pin) (s.afterRead 0x34) := by
  unfold readLevel
  rw [readWord_eq]
  have h : readableOffsets.contains 0x34 = true := by decide
  simp only [h, if_true]
  split_ifs <;> simp_all [Reply.map]

/-- A write of SET or CLR changes the output latch; a write of FSELk its pin fields
(10_state.md R44 to R46). -/
theorem storeRegister_fsel (s : State) (k : Nat) (v : Word) (hk : k < 6) :
    s.storeRegister (4 * k) v = { s with fsel := s.fsel.store k v } := by
  unfold State.storeRegister
  have h1 : 4 * k ≠ 0x1C := by omega
  have h2 : 4 * k ≠ 0x28 := by omega
  have h3 : 4 * k / 4 = k := by omega
  simp [h1, h2, h3]

/-- A read of FSELk gives its stored fields and drawn reserved bits (10_state.md R44). -/
theorem memValue_fsel (s : State) (k : Nat) (hk : k < 6) :
    s.memValue (4 * k) = fselReadWord s.fsel k (asWord (s.peek 0)) := by
  unfold State.memValue State.registerValue
  have h1 : 4 * k ≠ 0x34 := by omega
  have h3 : 4 * k / 4 = k := by omega
  simp [h1, h3]

/-- The field of a pin in the word a MemRead of its FSEL register gives (10_state.md R33, R44). -/
theorem fieldOf_memValue (s : State) (p q : Nat) (hq : q < numPins)
    (h : fselIndex q = fselIndex p) : fieldOf (s.memValue (fselOffset p)) q = s.fsel.field q := by
  have hk : fselIndex q < 6 := by
    unfold numPins at hq
    unfold fselIndex
    omega
  rw [fselOffset, ← h, memValue_fsel s _ hk]
  exact fieldOf_fselReadWord _ _ _ hq

/-- The bit of a pin in the word a MemRead of LEV gives (10_state.md R42). -/
theorem getLsbD_memValue_lev (s : State) (p : Nat) (hp : p < 32) :
    (s.memValue 0x34).getLsbD p =
      if s.cfg.levelLoopback = true ∧ s.fsel.field p = modeOutput then s.outlatch.getLsbD p
      else (asWord (s.peek 0)).getLsbD p :=
  getLsbD_levReadWord _ _ _ _ _ hp

/-- A MemWrite of a pin's FSEL register stores the word's fields (10_state.md R44). -/
theorem afterWrite_fselOffset (s : State) (p : Nat) (w : Word) (hp : p < numPins) :
    s.afterWrite (fselOffset p) w =
      ({ s with fsel := s.fsel.store (fselIndex p) w } : State).log .write (fselOffset p) w := by
  have hk : fselIndex p < 6 := by
    unfold numPins at hp
    unfold fselIndex
    omega
  rw [State.afterWrite, fselOffset, storeRegister_fsel _ _ _ hk]

/-- Where set_function's tests pass, its first step reads the pin's FSEL word
(41_pin_control.md R150). -/
theorem setFunctionRead_ok (s : State) (p : Nat) (m : BitVec 3) (hm : s.mapping ≠ none)
    (hp : p < numPins) (h : m.toNat ≤ 1) :
    setFunctionRead p m s = .ok (s.memValue (fselOffset p)) (s.afterRead (fselOffset p)) := by
  have h1 : ¬ m.toNat > 1 := by omega
  have h2 : ¬ p ≥ numPins := by omega
  simp only [setFunctionRead, readWord_eq, h1, h2, hm, (fselOffset_named p hp).1, if_true, if_false]

/-- While mapped, set_function's second step writes the pin's FSEL word (41_pin_control.md R150). -/
theorem setFunctionWrite_ok (s : State) (p : Nat) (m : BitVec 3) (w : Word) (hm : s.mapping ≠ none)
    (hp : p < numPins) :
    setFunctionWrite p m w s = .ok () (s.afterWrite (fselOffset p) (withField w p m)) := by
  simp only [setFunctionWrite, writeWord_eq, hm, (fselOffset_named p hp).2, if_true, if_false]

/-- While mapped, an OUTPUT pin is driven by one write (41_pin_control.md R152, R153). -/
theorem drivePin_ok (s : State) (off p : Nat) (h : writableOffsets.contains off = true)
    (hm : s.mapping ≠ none) (hp : p < levelPins) (hf : s.fsel.field p = modeOutput) :
    drivePin off p s = .ok () (s.afterWrite off (pinBit p)) := by
  have h1 : ¬ levelPins ≤ p := by omega
  simp only [drivePin_eq off p s h, h1, hf, hm, if_true, if_false]

/-- While mapped, a level is read by one read of LEV (41_pin_control.md R151). -/
theorem readLevel_ok (s : State) (p : Nat) (hm : s.mapping ≠ none) (hp : p < levelPins) :
    readLevel p s = .ok ((s.memValue 0x34).getLsbD p) (s.afterRead 0x34) := by
  have h1 : ¬ levelPins ≤ p := by omega
  simp only [readLevel_eq, h1, hm, if_false]

/-- A map that the host grants takes two draws (40_register_block.md R130). -/
theorem mapWindow_ok (s : State) (hm : s.mapping = none) (hd : asBool (s.peek 0) = true) :
    mapWindow s.cfg.pBase pWindow s = .ok (s.skip 1).freshId
      { s.skip 2 with mapping := some (s.skip 1).freshId, fresh := (s.skip 1).freshId + 1 } := by
  simp [mapWindow, hm, hd, State.takeFresh, skip_skip]

/-- A session the map holds passes the session check. -/
theorem hasSession_of_get {s : State} {id : Nat} {k : Endpoint}
    (h : tableGet s.sessions id = some k) : s.hasSession id k = true := by
  simp [State.hasSession, h]

/-! ### The run of a call -/

/-- A step that went through does not need the state it was taken in. -/
theorem runCall_ok_base {τ : Type} (toTask : τ → Task) (advance : τ → State → Reply (Progress τ))
    (n : Nat) (s s' t : State) (p : Progress τ) :
    runCall toTask advance n s (.ok p t) = runCall toTask advance n s' (.ok p t) := by
  cases n <;> cases p <;> rfl

/-- Undisturbed, a call takes its next atomic step (20_memory.md R70). -/
theorem runCall_again_alone {τ : Type} (toTask : τ → Task)
    (advance : τ → State → Reply (Progress τ)) (n : Nat) (s s' : State) (t : τ)
    (h : s'.othersEnabled = false) :
    runCall toTask advance (n + 1) s (.ok (.again t) s') =
      runCall toTask advance n s' (advance t s') := by
  simp [runCall, State.preempt, h]

/-- Where the scheduler turns to another agent, the call waits (20_memory.md R70). -/
theorem runCall_again_preempted {τ : Type} (toTask : τ → Task)
    (advance : τ → State → Reply (Progress τ)) (n : Nat) (s s' : State) (t : τ)
    (h : s'.preempt.1 = true) :
    runCall toTask advance (n + 1) s (.ok (.again t) s') = s'.preempt.2.park (toTask t) := by
  simp [runCall, h]

@[simp] theorem runCall_done {τ : Type} (toTask : τ → Task)
    (advance : τ → State → Reply (Progress τ)) (n : Nat) (s s' : State) (r : Result) :
    runCall toTask advance n s (.ok (.done r) s') = s'.ret r := by
  cases n <;> rfl

@[simp] theorem runCall_error {τ : Type} (toTask : τ → Task)
    (advance : τ → State → Reply (Progress τ)) (n : Nat) (s s' : State) (e : ErrorCode) :
    runCall toTask advance n s (.error e s') = s'.ret (.error e) := by
  cases n <;> rfl

@[simp] theorem runCall_raise {τ : Type} (toTask : τ → Task)
    (advance : τ → State → Reply (Progress τ)) (n : Nat) (s : State) (f : FaultCode) (i : Nat) :
    runCall toTask advance n s (.raise f i) = s.raise f i := by
  cases n <;> rfl

@[simp] theorem runCall_refuse {τ : Type} (toTask : τ → Task)
    (advance : τ → State → Reply (Progress τ)) (n : Nat) (s : State) (r : RefusalReason) :
    runCall toTask advance n s (.refuse r) = s.refuse r := by
  cases n <;> rfl

/-- A property that returns, waits, faults, refusals and choices of the scheduler keep. -/
structure Steady (P : State → Prop) : Prop where
  ret : ∀ s r, P s → P (s.ret r)
  park : ∀ s t, P s → P (s.park t)
  raise : ∀ s f n, P s → P (s.raise f n)
  refuse : ∀ s r, P s → P (s.refuse r)
  schedSkip : ∀ s, P s → P s.schedSkip

/-- Where the reply of an atomic step taken in state s leads: the running call meets `Inv`, or the
state the call ends in meets `Post`. -/
def Reply.Leads {τ : Type} (Inv : τ → State → Prop) (Post : State → Prop) (s : State) :
    Reply (Progress τ) → Prop
  | .ok (.again t) s' => Inv t s'
  | .ok (.done r) s' => Post (s'.ret r)
  | .error e s' => Post (s'.ret (.error e))
  | .raise f i => Post (s.raise f i)
  | .refuse r => Post (s.refuse r)

/-- The induction over the atomic steps of a call: where every atomic step leads on from `Inv`, the
run of the call, waiting included, ends in `Post`. -/
theorem runCall_leads {τ : Type} {Inv : τ → State → Prop} {Post : State → Prop} (toTask : τ → Task)
    (advance : τ → State → Reply (Progress τ)) (hskip : ∀ t s, Inv t s → Inv t s.schedSkip)
    (hpark : ∀ t s, Inv t s → Post (s.park (toTask t)))
    (hadv : ∀ t s, Inv t s → (advance t s).Leads Inv Post s) (n : Nat) :
    ∀ (s : State) (r : Reply (Progress τ)), r.Leads Inv Post s →
      Post (runCall toTask advance n s r) := by
  induction n with
  | zero =>
    intro s r hr
    rcases r with ⟨t | r, s'⟩ | ⟨e, s'⟩ | ⟨f, i⟩ | r
    · exact hpark t s' hr
    · exact hr
    · exact hr
    · exact hr
    · exact hr
  | succ n ih =>
    intro s r hr
    rcases r with ⟨t | r, s'⟩ | ⟨e, s'⟩ | ⟨f, i⟩ | r
    · have hpre : Inv t s'.preempt.2 := by
        unfold State.preempt
        split
        · exact hskip t s' hr
        · exact hr
      unfold runCall
      split
      · exact hpark _ _ hpre
      · exact ih _ _ (hadv t _ hpre)
    · exact hr
    · exact hr
    · exact hr
    · exact hr

/-- A steady property that every atomic step of a call keeps is kept by the run of the call. -/
theorem runCall_keeps {τ : Type} {P : State → Prop} (hP : Steady P) (toTask : τ → Task)
    (advance : τ → State → Reply (Progress τ)) (hadv : ∀ t s, P s → (advance t s).Keeps P) (n : Nat)
    (s : State) (r : Reply (Progress τ)) (hs : P s) (hr : r.Keeps P) :
    P (runCall toTask advance n s r) := by
  have lead : ∀ (s : State) (r : Reply (Progress τ)), P s → r.Keeps P →
      r.Leads (fun _ => P) P s := by
    intro s r hs hr
    rcases r with ⟨t | r, s'⟩ | ⟨e, s'⟩ | ⟨f, i⟩ | r
    · exact hr
    · exact hP.ret s' r hr
    · exact hP.ret s' _ hr
    · exact hP.raise s f i hs
    · exact hP.refuse s r hs
  exact runCall_leads toTask advance (fun _ => hP.schedSkip) (fun t s h => hP.park s _ h)
    (fun t s h => lead s _ h (hadv t s h)) n s r (lead s r hs hr)

/-- A call of one atomic step keeps a steady property its step keeps. -/
theorem finish_keeps {P : State → Prop} (hP : Steady P) (s : State) (r : Reply Result) (hs : P s)
    (hr : r.Keeps P) : P (finish s r) := by
  cases r with
  | ok r s' => exact hP.ret s' r hr
  | error e s' => exact hP.ret s' _ hr
  | raise f i => exact hP.raise s f i hs
  | refuse r => exact hP.refuse s r hs

/-- Every call answers a next state: errors are results, faults and refusals are states of the
machine (60_exceptions.md R300 to R303). -/
theorem exec_is_next (i : Instr) (s : State) : ∃ t, exec i s = .next t := by
  cases i <;> exact ⟨_, rfl⟩

/-! ### The schedule -/

/-- An agent is listed as enabled exactly when it is there and has an enabled step. -/
theorem mem_enabledAgents (s : State) (i : Nat) :
    i ∈ s.enabledAgents ↔ ∃ a, s.agents[i]? = some a ∧ a.enabled = true := by
  unfold State.enabledAgents
  simp only [List.mem_filter, List.mem_range]
  constructor
  · rintro ⟨h1, h2⟩
    rw [List.getElem?_eq_getElem h1] at h2 ⊢
    exact ⟨_, rfl, by simpa using h2⟩
  · rintro ⟨a, h1, h2⟩
    have hi : i < s.agents.length := by
      by_contra hc
      rw [List.getElem?_eq_none (by omega)] at h1
      cases h1
    exact ⟨hi, by simp [h1, h2]⟩

/-- Choosing the next agent gives an enabled one wherever one is enabled (20_memory.md R70). -/
theorem reschedule_current (s : State) (h : s.enabledAgents ≠ []) :
    s.reschedule.current ∈ s.enabledAgents := by
  unfold State.reschedule
  split
  · next h0 => exact absurd h0 h
  · next i h1 => simp [h1]
  · next l h1 h2 =>
    have hpos : 0 < s.enabledAgents.length := List.length_pos_of_ne_nil h
    have hlt := Nat.mod_lt s.schedPeek hpos
    simp only
    rw [List.getD_eq_getElem?_getD, List.getElem?_eq_getElem hlt]
    exact List.getElem_mem hlt

/-- The current agent after an update of it. -/
theorem agent_updateAgent (s : State) (f : Agent → Agent) :
    (s.updateAgent f).agent = s.agent.map f := by
  simp [State.agent, State.updateAgent]

/-- Another agent is not touched by an update of the current one. -/
theorem agents_updateAgent_other (s : State) (f : Agent → Agent) (j : Nat) (h : j ≠ s.current) :
    (s.updateAgent f).agents[j]? = s.agents[j]? := by
  have h' : s.current ≠ j := fun hc => h hc.symm
  simp [State.updateAgent, h']

/-- An update of the current agent does not change whether others are enabled. -/
@[simp] theorem othersEnabled_updateAgent (s : State) (f : Agent → Agent) :
    (s.updateAgent f).othersEnabled = s.othersEnabled := by
  have key : ∀ i, (i ∈ (s.updateAgent f).enabledAgents ∧ i ≠ s.current) ↔
      (i ∈ s.enabledAgents ∧ i ≠ s.current) := by
    intro i
    constructor
    · rintro ⟨h, hi⟩
      rw [mem_enabledAgents, agents_updateAgent_other s f i hi] at h
      exact ⟨(mem_enabledAgents s i).mpr h, hi⟩
    · rintro ⟨h, hi⟩
      rw [mem_enabledAgents, ← agents_updateAgent_other s f i hi] at h
      exact ⟨(mem_enabledAgents _ i).mpr h, hi⟩
  rw [Bool.eq_iff_iff]
  simp only [State.othersEnabled, List.any_eq_true, bne_iff_ne, updateAgent_current]
  exact exists_congr key

/-- A return does not change whether others are enabled. -/
@[simp] theorem othersEnabled_ret (s : State) (r : Result) :
    (s.ret r).othersEnabled = s.othersEnabled := othersEnabled_updateAgent s _

end Sys2Proof.Machine
end

