-- ==== Sys2Proof/Laws/Turn.lean ====
section
/-!
SUPPORT. One turn of the machine: when an agent's program has a next call, and whose turn a step is
(10_state.md R31, 20_memory.md R70).
-/

namespace Sys2Proof.Machine

/-- The configured pins, spelled out (00_scope.md R9). -/
theorem valid_iff (c : Config) :
    c.valid = true ↔ c.inputPin1 ≠ c.inputPin2 ∧ c.inputPin1 ≠ c.outputPin ∧
      c.inputPin2 ≠ c.outputPin ∧ c.inputPin1 < 32 ∧ c.inputPin2 < 32 ∧ c.outputPin < 32 := by
  unfold Config.valid levelPins
  simp only [Bool.and_eq_true, bne_iff_ne, decide_eq_true_eq]
  tauto

/-- A program has a next call exactly when it asks for something (10_state.md R31). -/
theorem hasNext_iff_fetch (c : Config) (tbl : List (Nat × Endpoint)) (a : Agent) :
    a.hasNext = true ↔ a.fetch c tbl ≠ .exited := by
  unfold Agent.hasNext Agent.fetch
  cases a.program with
  | calls l =>
    by_cases h : a.index < l.length
    · simp [h]
    · simp [h]
  | requests l =>
    by_cases h : a.index < l.length
    · simp only [h, List.getElem?_eq_getElem h, decide_true, true_iff]
      unfold hostDispatch dispatchOn
      split <;> split <;> (try split) <;> simp
    · simp [h]
  | client argv =>
    simp only [clientHasNext, clientNext]
    cases clientArgument argv with
    | none => simp
    | some on =>
      simp only
      split <;> simp_all

/-- An agent whose program asks for something has a next call. -/
theorem hasNext_of_fetch {c : Config} {tbl : List (Nat × Endpoint)} {a : Agent} {r : CallRecord}
    (h : a.fetch c tbl = .call r) : a.hasNext = true :=
  (hasNext_iff_fetch c tbl a).mpr (by simp [h])

/-- A step is the turn of the current agent where that has an enabled step. -/
theorem step_of_enabled {s : State} {a : Agent} (h : s.agent = some a) (he : a.enabled = true) :
    step s = agentTurn a s := by
  have hc : s.currentEnabled = true := by simp [State.currentEnabled, h, he]
  simp [step, turn, State.settle, hc, h]

/-- Where nobody has an enabled step, settling changes nothing. -/
theorem settle_of_none (s : State) (h : s.enabledAgents = []) : s.settle = s := by
  simp [State.settle, State.reschedule, h]

/-- Settling finds an enabled agent wherever there is one (20_memory.md R70). -/
theorem settle_enabled (s : State) (h : s.enabledAgents ≠ []) :
    ∃ a, s.settle.agent = some a ∧ a.enabled = true := by
  unfold State.settle
  split
  · next hc =>
    unfold State.currentEnabled at hc
    cases ha : s.agent with
    | none => simp [ha] at hc
    | some a => exact ⟨a, rfl, by simpa [ha] using hc⟩
  · obtain ⟨a, h1, h2⟩ := (mem_enabledAgents s _).mp (reschedule_current s h)
    exact ⟨a, by simpa [State.agent] using h1, h2⟩

/-- Settling changes only whose turn it is. -/
theorem settle_keeps {P : State → Prop} (h : ∀ s, P s → P s.reschedule) (s : State) (hs : P s) :
    P s.settle := by
  unfold State.settle
  split
  · exact hs
  · exact h s hs

/-- What a step that answers a next state was: the current agent, after settling, went on with a
call, was refused, or had a call performed; then the next agent was chosen. -/
theorem step_cases {s t : State} (h : step s = .next t) :
    ∃ a, s.settle.agent = some a ∧
      ((∃ k, a.status = .inCall k ∧ t = (resume k s.settle).reschedule) ∨
       (∃ r, a.status = .ready ∧ s.settle.issue a = .refuse r ∧
          t = (s.settle.refuse r).reschedule) ∨
       (∃ i u, a.status = .ready ∧ s.settle.issue a = .call i ∧ exec i s.settle = .next u ∧
          t = u.reschedule)) := by
  unfold step turn at h
  split at h
  · next a ha =>
    refine ⟨a, ha, ?_⟩
    unfold agentTurn at h
    split at h
    · next k hk =>
      cases h
      exact Or.inl ⟨k, hk, rfl⟩
    · next hr =>
      split at h
      · next i hi =>
        obtain ⟨u, hu⟩ := exec_is_next i s.settle
        rw [hu] at h
        cases h
        exact Or.inr (Or.inr ⟨i, u, hr, hi, hu, rfl⟩)
      · next r hi =>
        cases h
        exact Or.inr (Or.inl ⟨r, hr, hi, rfl⟩)
      · cases h
      · cases h
      · cases h
    · cases h
    · cases h
  · cases h

/-- A call that is performed is one its agent may issue, under a valid configuration
(30_encoding.md R94, 00_scope.md R9). -/
theorem issue_call {s : State} {a : Agent} {i : Instr} (h : s.issue a = .call i) :
    s.cfg.valid = true ∧ mayIssue a.kind i.op = true := by
  unfold State.issue at h
  split at h
  · cases h
  · split at h <;> cases h
  · split at h <;> cases h
  · split at h
    · next hv =>
      refine ⟨hv, ?_⟩
      unfold judge at h
      split at h
      · cases h
      · cases h
      · cases h
      · split at h
        · next hm =>
          cases h
          exact hm
        · cases h
    · cases h

end Sys2Proof.Machine
end

