-- ==== Sys2Proof/Laws/Calls.lean ====
section
/-!
SUPPORT. Calls between two atomic steps (20_memory.md R65, R70): what the scheduler's choices change,
and how an operation's meaning and a resumed call go on.
-/

namespace Sys2Proof.Machine

variable (s : State)

/-! ### The scheduler's choices -/

theorem choice_zero : s.choice 0 = s.schedPeek := by
  unfold State.choice State.schedPeek
  cases s.sched <;> rfl

/-- Choices touch the scheduler's queue and count alone. -/
theorem passed_eq (n : Nat) :
    s.passed n = { s with sched := (s.passed n).sched, schedTaken := (s.passed n).schedTaken } := by
  unfold State.passed
  split <;> rfl

section fields
variable (n : Nat)

@[simp] theorem passed_cfg : (s.passed n).cfg = s.cfg := by rw [passed_eq]
@[simp] theorem passed_fsel : (s.passed n).fsel = s.fsel := by rw [passed_eq]
@[simp] theorem passed_outlatch : (s.passed n).outlatch = s.outlatch := by rw [passed_eq]
@[simp] theorem passed_mapping : (s.passed n).mapping = s.mapping := by rw [passed_eq]
@[simp] theorem passed_sel : (s.passed n).sel = s.sel := by rw [passed_eq]
@[simp] theorem passed_sigReg : (s.passed n).sigReg = s.sigReg := by rw [passed_eq]
@[simp] theorem passed_ledReg : (s.passed n).ledReg = s.ledReg := by rw [passed_eq]
@[simp] theorem passed_sessions : (s.passed n).sessions = s.sessions := by rw [passed_eq]
@[simp] theorem passed_offsets : (s.passed n).offsets = s.offsets := by rw [passed_eq]
@[simp] theorem passed_phase : (s.passed n).phase = s.phase := by rw [passed_eq]
@[simp] theorem passed_faults : (s.passed n).faults = s.faults := by rw [passed_eq]
@[simp] theorem passed_refusalMark : (s.passed n).refusalMark = s.refusalMark := by rw [passed_eq]
@[simp] theorem passed_history : (s.passed n).history = s.history := by rw [passed_eq]
@[simp] theorem passed_agents : (s.passed n).agents = s.agents := by rw [passed_eq]
@[simp] theorem passed_current : (s.passed n).current = s.current := by rw [passed_eq]
@[simp] theorem passed_fresh : (s.passed n).fresh = s.fresh := by rw [passed_eq]
@[simp] theorem passed_env : (s.passed n).env = s.env := by rw [passed_eq]
@[simp] theorem passed_envTaken : (s.passed n).envTaken = s.envTaken := by rw [passed_eq]
@[simp] theorem passed_agent : (s.passed n).agent = s.agent := by simp [State.agent]
@[simp] theorem passed_peek (k : Nat) : (s.passed n).peek k = s.peek k :=
  peek_congr (passed_env s n) (passed_envTaken s n) k
@[simp] theorem passed_othersEnabled : (s.passed n).othersEnabled = s.othersEnabled :=
  othersEnabled_congr (passed_agents s n) (passed_current s n)

end fields

/-- The choices are the same, and change the same, in a state that differs from another in no agent
and no choice. -/
theorem passed_sched_congr {s t : State} (h1 : s.agents = t.agents) (h2 : s.current = t.current)
    (h3 : s.sched = t.sched) (h4 : s.schedTaken = t.schedTaken) (n : Nat) :
    (s.passed n).sched = (t.passed n).sched ∧ (s.passed n).schedTaken = (t.passed n).schedTaken := by
  have h := othersEnabled_congr h1 h2
  unfold State.passed
  rw [h]
  split <;> simp [h3, h4]

/-- Draws and choices do not meet. -/
theorem passed_skip (n k : Nat) : (s.skip k).passed n = (s.passed n).skip k := by
  have h : (s.skip k).othersEnabled = s.othersEnabled := othersEnabled_congr rfl rfl
  unfold State.passed
  rw [h]
  split <;> rfl

/-- Taking k choices and then j is taking k + j. -/
theorem passed_passed (k j : Nat) : (s.passed k).passed j = s.passed (k + j) := by
  by_cases h : s.othersEnabled = true
  · have h' := passed_othersEnabled s k
    rw [h] at h'
    rw [State.passed, if_pos h', State.passed, if_pos h, State.passed, if_pos h]
    simp only [List.drop_drop, List.length_drop]
    congr 1
    omega
  · have h' := passed_othersEnabled s k
    rw [State.passed, if_neg (by rw [h']; exact h), State.passed, if_neg h, State.passed, if_neg h]

theorem passed_zero : s.passed 0 = s := by
  unfold State.passed
  split
  · simp
  · rfl

/-- Choices seen past k taken ones. -/
theorem choice_passed (h : s.othersEnabled = true) (k j : Nat) :
    (s.passed k).choice j = s.choice (k + j) := by
  rw [State.passed, if_pos h]
  by_cases hk : k + j < s.sched.length
  · simp [State.choice, List.getElem?_drop, List.getElem?_eq_getElem hk]
  · have h1 : s.sched[k + j]? = none := List.getElem?_eq_none (by omega)
    simp only [State.choice, List.getElem?_drop, List.length_drop, h1]
    congr 1
    omega

/-- Undisturbed at k + n places is undisturbed at n places past the first k. -/
theorem undisturbed_passed {k n : Nat} (h : s.Undisturbed (k + n)) : (s.passed k).Undisturbed n := by
  intro ho j hj
  rw [passed_othersEnabled] at ho
  rw [choice_passed s ho]
  exact h ho (k + j) (by omega)

theorem undisturbed_mono {m n : Nat} (h : s.Undisturbed n) (hm : m ≤ n) : s.Undisturbed m :=
  fun ho k hk => h ho k (by omega)

/-- Where no other agent has an enabled step, nothing disturbs a call and no choice is taken. -/
theorem undisturbed_of_alone (h : s.othersEnabled = false) (n : Nat) : s.Undisturbed n :=
  fun ho => absurd (h.symm.trans ho) Bool.noConfusion

theorem passed_of_alone (h : s.othersEnabled = false) (n : Nat) : s.passed n = s := by
  simp [State.passed, h]

theorem undisturbed_congr {s t : State} (h1 : s.agents = t.agents) (h2 : s.current = t.current)
    (h3 : s.sched = t.sched) (h4 : s.schedTaken = t.schedTaken) {n : Nat} (h : s.Undisturbed n) :
    t.Undisturbed n := by
  intro ho k hk
  have := h ((othersEnabled_congr h1 h2).trans ho) k hk
  simpa [State.choice, h3, h4] using this

/-! ### A call between two atomic steps -/

/-- The scheduler turns away: the call waits. -/
theorem goOn_of_turned (t : Task) (h : s.othersEnabled = true) (hc : asBool (s.choice 0) = true) :
    s.goOn t = (s.passed 1).park t := by
  simp [State.goOn, h, hc]

/-- Undisturbed, the call takes its next atomic step. -/
theorem goOn_of_undisturbed (t : Task) {n : Nat} (h : s.Undisturbed (n + 1)) :
    s.goOn t = resume t (s.passed 1) := by
  unfold State.goOn
  rw [if_neg]
  rintro ⟨ho, hc⟩
  have := h ho 0 (by omega)
  rw [this] at hc
  exact Bool.noConfusion hc

/-- A bound on the atomic steps left does not show in what a call does, where it suffices. -/
theorem runCall_bound {τ : Type} (toTask : τ → Task) (advance : τ → State → Reply (Progress τ))
    (rank : τ → Nat)
    (hrank : ∀ t s u s', advance t s = .ok (.again u) s' → rank u < rank t) (n : Nat) :
    ∀ (m : Nat) (s : State) (r : Reply (Progress τ)),
      (∀ t s', r = .ok (.again t) s' → rank t < n ∧ rank t < m) →
      runCall toTask advance n s r = runCall toTask advance m s r := by
  induction n with
  | zero =>
    intro m s r h
    rcases r with ⟨t | r, s'⟩ | ⟨e, s'⟩ | ⟨f, i⟩ | r
    · exact absurd (h t s' rfl).1 (by omega)
    all_goals cases m <;> rfl
  | succ n ih =>
    intro m s r h
    rcases r with ⟨t | r, s'⟩ | ⟨e, s'⟩ | ⟨f, i⟩ | r
    · obtain ⟨h1, h2⟩ := h t s' rfl
      obtain ⟨m, rfl⟩ : ∃ k, m = k + 1 := ⟨m - 1, by omega⟩
      unfold runCall
      split
      · rfl
      · exact ih m _ _ fun u s'' hu => by
          have := hrank _ _ _ _ hu
          omega
    all_goals cases m <;> rfl

/-- A call goes on from a step that went through as a resumed call does. -/
theorem runCall_goOn {τ : Type} (toTask : τ → Task) (advance : τ → State → Reply (Progress τ))
    (rank : τ → Nat)
    (hrank : ∀ t s u s', advance t s = .ok (.again u) s' → rank u < rank t)
    (hbound : ∀ t, rank t < callSteps)
    (hresume : ∀ t s, resume (toTask t) s = runCall toTask advance callSteps s (advance t s))
    (s s' : State) (t : τ) :
    runCall toTask advance callSteps s (.ok (.again t) s') = s'.goOn (toTask t) := by
  have hpre : s'.preempt = (s'.othersEnabled && asBool (s'.choice 0), s'.passed 1) := by
    rw [choice_zero]
    unfold State.preempt State.passed State.schedSkip
    split
    · next h =>
      rw [h]
      cases s'.sched <;> simp
    · next h => simp [h]
  rw [callSteps, runCall, hpre]
  unfold State.goOn
  by_cases h : s'.othersEnabled = true ∧ asBool (s'.choice 0) = true
  · rw [if_pos h, if_pos (by simp [h])]
  · rw [if_neg h, if_neg (by simpa [Bool.and_eq_true] using h), hresume]
    refine runCall_bound toTask advance rank hrank _ _ _ _ fun u s'' hu => ?_
    have h1 := hrank _ _ _ _ hu
    have h2 := hbound t
    simp only [callSteps] at h2 ⊢
    omega

/-! ### Each operation of several atomic steps -/

/-- How many atomic steps may follow the one a startup waits at. -/
def StartupTask.left : StartupTask → Nat
  | .map => 12
  | .readFsel .input1 => 11
  | .writeFsel .input1 _ => 10
  | .readFsel .input2 => 9
  | .writeFsel .input2 _ => 8
  | .readFsel .output => 7
  | .writeFsel .output _ => 6
  | .selectFirst => 5
  | .registerSig => 4
  | .registerLed => 3
  | .rollbackSig => 2
  | .rollbackMap => 1
  | .enterRunning => 0
  | .enterAbsent _ => 0

/-- How many atomic steps may follow the one a teardown waits at. -/
def TeardownTask.left : TeardownTask → Nat
  | .driveLow => 4
  | .unmap => 3
  | .deregisterSig => 2
  | .deregisterLed => 1
  | .enterAbsent => 0

/-- How many atomic steps may follow the one a sig.read waits at. -/
def SigReadTask.left : SigReadTask → Nat
  | .sample _ _ _ _ => 1
  | .copyOut _ _ => 0

/-- A mapped reply goes on only where the reply went through. -/
theorem map_again {α τ : Type} {r : Reply α} {f : α → Progress τ} {u : τ} {s' : State}
    (h : r.map f = .ok (.again u) s') : ∃ a, r = .ok a s' ∧ f a = .again u := by
  cases r with
  | ok a t =>
    simp only [Reply.map, Reply.ok.injEq] at h
    exact ⟨a, by rw [h.2], h.1⟩
  | error e t => simp [Reply.map] at h
  | raise f i => simp [Reply.map] at h
  | refuse r => simp [Reply.map] at h

/-- A startup goes on from a step to the one named, or to the one it rolls back to. -/
theorem orRollback_again {α : Type} {r : Reply α} {go back u : StartupTask} {s' : State}
    (h : orRollback r go back = .ok (.again u) s') : u = go ∨ u = back := by
  cases r with
  | ok a t =>
    simp only [orRollback, Reply.ok.injEq, Progress.again.injEq] at h
    exact .inl h.1.symm
  | error e t =>
    simp only [orRollback, Reply.ok.injEq, Progress.again.injEq] at h
    exact .inr h.1.symm
  | raise f i => simp [orRollback] at h
  | refuse r => simp [orRollback] at h

theorem startupAdvance_left (t : StartupTask) (s : State) (u : StartupTask) (s' : State)
    (h : startupAdvance t s = .ok (.again u) s') : u.left < t.left := by
  cases t with
  | map => rcases orRollback_again h with rfl | rfl <;> decide
  | readFsel c =>
    obtain ⟨w, -, hw⟩ := map_again h
    cases hw
    cases c <;> simp [StartupTask.left]
  | writeFsel c w =>
    obtain ⟨_, -, hw⟩ := map_again h
    cases hw
    cases c <;> simp [afterSlot, StartupTask.left]
  | selectFirst =>
    cases h
    decide
  | registerSig => rcases orRollback_again h with rfl | rfl <;> decide
  | registerLed => rcases orRollback_again h with rfl | rfl <;> decide
  | enterRunning => cases h
  | rollbackSig =>
    obtain ⟨_, -, hw⟩ := map_again h
    cases hw
    decide
  | rollbackMap =>
    obtain ⟨_, -, hw⟩ := map_again h
    cases hw
    decide
  | enterAbsent e => cases h

theorem teardownAdvance_left (t : TeardownTask) (s : State) (u : TeardownTask) (s' : State)
    (h : teardownAdvance t s = .ok (.again u) s') : u.left < t.left := by
  cases t with
  | enterAbsent => cases h
  | _ =>
    obtain ⟨_, -, hw⟩ := map_again h
    cases hw
    decide

theorem sigReadAdvance_left (t : SigReadTask) (s : State) (u : SigReadTask) (s' : State)
    (h : sigReadAdvance t s = .ok (.again u) s') : u.left < t.left := by
  cases t with
  | sample id maxLen off pin =>
    simp only [sigReadAdvance, sigReadSample] at h
    split at h
    · split at h
      · cases h
      · cases h
        exact Nat.zero_lt_one
    all_goals cases h
  | copyOut id bytes =>
    simp only [sigReadAdvance, sigReadCopy] at h
    split at h <;> cases h

/-- A set_function goes on after its read (41_pin_control.md R150). -/
theorem setFunction_goOn (s s' : State) (t : SetFunctionTask) :
    runCall Task.setFunction setFunctionAdvance callSteps s (.ok (.again t) s') =
      s'.goOn (.setFunction t) :=
  runCall_goOn _ _ (fun _ => 0)
    (fun t s u s' h => by
      cases t
      obtain ⟨_, -, hw⟩ := map_again h
      cases hw)
    (fun _ => by decide) (fun _ _ => rfl) s s' t

/-- A sig.read goes on after its current and after its sample (43_signal_endpoint.md R196). -/
theorem sigRead_goOn (s s' : State) (t : SigReadTask) :
    runCall Task.sigRead sigReadAdvance callSteps s (.ok (.again t) s') = s'.goOn (.sigRead t) :=
  runCall_goOn _ _ SigReadTask.left sigReadAdvance_left
    (fun t => by cases t <;> simp [SigReadTask.left, callSteps])
    (fun _ _ => rfl) s s' t

/-- A sig.write goes on after its transfer (43_signal_endpoint.md R197). -/
theorem sigWrite_goOn (s s' : State) (t : SigWriteTask) :
    runCall Task.sigWrite sigWriteAdvance callSteps s (.ok (.again t) s') = s'.goOn (.sigWrite t) :=
  runCall_goOn _ _ (fun _ => 0)
    (fun t s u s' h => by
      cases t
      obtain ⟨_, -, hw⟩ := map_again h
      cases hw)
    (fun _ => by decide) (fun _ _ => rfl) s s' t

/-- A led.write goes on after its transfer (44_led_endpoint.md R226). -/
theorem ledWrite_goOn (s s' : State) (t : LedWriteTask) :
    runCall Task.ledWrite ledWriteAdvance callSteps s (.ok (.again t) s') = s'.goOn (.ledWrite t) :=
  runCall_goOn _ _ (fun _ => 0)
    (fun t s u s' h => by
      cases t
      obtain ⟨_, -, hw⟩ := map_again h
      cases hw)
    (fun _ => by decide) (fun _ _ => rfl) s s' t

/-- A startup goes on after each of its steps but the last (46_lifecycle.md R270). -/
theorem startup_goOn (s s' : State) (t : StartupTask) :
    runCall Task.startup startupAdvance callSteps s (.ok (.again t) s') = s'.goOn (.startup t) :=
  runCall_goOn _ _ StartupTask.left startupAdvance_left
    (fun t => by
      cases t with
      | readFsel c => cases c <;> decide
      | writeFsel c w => cases c <;> simp [StartupTask.left, callSteps]
      | enterAbsent e => simp [StartupTask.left, callSteps]
      | _ => decide)
    (fun _ _ => rfl) s s' t

/-- A teardown goes on after each of its steps but the last (46_lifecycle.md R271). -/
theorem teardown_goOn (s s' : State) (t : TeardownTask) :
    runCall Task.teardown teardownAdvance callSteps s (.ok (.again t) s') = s'.goOn (.teardown t) :=
  runCall_goOn _ _ TeardownTask.left teardownAdvance_left (fun t => by cases t <;> decide)
    (fun _ _ => rfl) s s' t

end Sys2Proof.Machine
end

