-- ==== Sys2Proof/Laws/PerInstr.lean ====
section
/-!
SUPPORT. Per instruction: its call record carries the OPC of its row and operands of the types the
row's shape lists (30_encoding.md R91, R92, R95).
-/

namespace Sys2Proof.Laws

/-- Every row is the row its own code selects: no two rows share a code (30_encoding.md R92). -/
theorem ofCode_code (o : Op) : Op.ofCode o.code = some o := by
  cases o <;> decide

end Sys2Proof.Laws

namespace Sys2Proof.Laws.Encoded

/-- The record's OPC selects the call's row, and its operands have the row's shape. -/
def Statement (i : Instr) : Prop :=
  Op.ofCode (encode i).opc = some i.op ∧ (encode i).operands.map Operand.type = i.op.shape

theorem map (a : Nat) (n : Nat) : Statement (.map a n) := ⟨ofCode_code _, rfl⟩
theorem unmap : Statement .unmap := ⟨ofCode_code _, rfl⟩
theorem readWord (o : Nat) : Statement (.readWord o) := ⟨ofCode_code _, rfl⟩
theorem writeWord (o : Nat) (v : Word) : Statement (.writeWord o v) := ⟨ofCode_code _, rfl⟩
theorem setFunction (p : Nat) (m : BitVec 3) : Statement (.setFunction p m) := ⟨ofCode_code _, rfl⟩
theorem readLevel (p : Nat) : Statement (.readLevel p) := ⟨ofCode_code _, rfl⟩
theorem setHigh (p : Nat) : Statement (.setHigh p) := ⟨ofCode_code _, rfl⟩
theorem setLow (p : Nat) : Statement (.setLow p) := ⟨ofCode_code _, rfl⟩
theorem select (b : Byte) : Statement (.select b) := ⟨ofCode_code _, rfl⟩
theorem current : Statement .current := ⟨ofCode_code _, rfl⟩
theorem sigOpen : Statement .sigOpen := ⟨ofCode_code _, rfl⟩
theorem sigRead (s : Nat) (n : Nat) : Statement (.sigRead s n) := ⟨ofCode_code _, rfl⟩
theorem sigWrite (s : Nat) (d : List Byte) : Statement (.sigWrite s d) := ⟨ofCode_code _, rfl⟩
theorem sigClose (s : Nat) : Statement (.sigClose s) := ⟨ofCode_code _, rfl⟩
theorem ledOpen : Statement .ledOpen := ⟨ofCode_code _, rfl⟩
theorem ledRead (s : Nat) (n : Nat) : Statement (.ledRead s n) := ⟨ofCode_code _, rfl⟩
theorem ledWrite (s : Nat) (d : List Byte) : Statement (.ledWrite s d) := ⟨ofCode_code _, rfl⟩
theorem ledClose (s : Nat) : Statement (.ledClose s) := ⟨ofCode_code _, rfl⟩
theorem startup : Statement .startup := ⟨ofCode_code _, rfl⟩
theorem teardown : Statement .teardown := ⟨ofCode_code _, rfl⟩
theorem registerEndpoint (k : Endpoint) : Statement (.registerEndpoint k) := ⟨ofCode_code _, rfl⟩
theorem deregisterEndpoint (k : Endpoint) : Statement (.deregisterEndpoint k) := ⟨ofCode_code _, rfl⟩

end Sys2Proof.Laws.Encoded
end

