-- ==== Sys2Proof/Laws/Decode.lean ====
section
/-!
SUPPORT. What the decoder's two lookups can answer (30_encoding.md R91, R92).
-/

namespace Sys2Proof.Laws

/-- A code selects only the row it is the code of. -/
theorem eq_code_of_ofCode {c : BitVec 8} {o : Op} (h : Op.ofCode c = some o) : c = o.code := by
  unfold Op.ofCode at h
  have h2 := List.find?_some h
  exact (beq_iff_eq.mp h2).symm

/-- A row builds only a call of its own with just those operands. -/
theorem of_build {o : Op} {ops : List Operand} {i : Instr} (h : o.build ops = some i) :
    i.op = o ∧ i.operands = ops := by
  unfold Op.build at h
  split at h <;> first | (cases h; exact ⟨rfl, rfl⟩) | cases h

/-- Every row is the row of some call. -/
theorem op_surjective (o : Op) : ∃ i : Instr, i.op = o := by
  cases o
  exacts [⟨.map 0 0, rfl⟩, ⟨.unmap, rfl⟩, ⟨.readWord 0, rfl⟩, ⟨.writeWord 0 0, rfl⟩,
    ⟨.setFunction 0 0, rfl⟩, ⟨.readLevel 0, rfl⟩, ⟨.setHigh 0, rfl⟩, ⟨.setLow 0, rfl⟩,
    ⟨.select 0, rfl⟩, ⟨.current, rfl⟩, ⟨.sigOpen, rfl⟩, ⟨.sigRead 0 0, rfl⟩,
    ⟨.sigWrite 0 [], rfl⟩, ⟨.sigClose 0, rfl⟩, ⟨.ledOpen, rfl⟩, ⟨.ledRead 0 0, rfl⟩,
    ⟨.ledWrite 0 [], rfl⟩, ⟨.ledClose 0, rfl⟩, ⟨.startup, rfl⟩, ⟨.teardown, rfl⟩,
    ⟨.registerEndpoint .sig, rfl⟩, ⟨.deregisterEndpoint .sig, rfl⟩]

/-- A code no call has selects no row (30_encoding.md R96). -/
theorem ofCode_reserved (c : BitVec 8) (h : ∀ i : Instr, (encode i).opc ≠ c) :
    Op.ofCode c = none := by
  cases ho : Op.ofCode c with
  | none => rfl
  | some o =>
    obtain ⟨i, hi⟩ := op_surjective o
    exact absurd (by simp [encode, hi, eq_code_of_ofCode ho]) (h i)

end Sys2Proof.Laws
end

