-- ==== Sys2Proof/Laws/Keeps.lean ====
section
/-!
SUPPORT. What each shared operation keeps: a property of the state holds after an operation when it
holds of the few states the operation can answer with.
-/

namespace Sys2Proof.Machine

variable {P : State → Prop}

/-- A view of the state that sees neither the agents, nor the two records, nor the schedule, is
steady. -/
theorem Steady.ofView {β : Type} (g : State → β) (b : β)
    (hagents : ∀ s f, g (s.updateAgent f) = g s) (hfaults : ∀ s x, g { s with faults := x } = g s)
    (hmark : ∀ s x, g { s with refusalMark := x } = g s)
    (hsched : ∀ s x y, g { s with sched := x, schedTaken := y } = g s) :
    Steady (fun s => g s = b) where
  ret s _ h := (hagents s _).trans h
  park s _ h := (hagents s _).trans h
  raise s _ _ h := ((hfaults (s.updateAgent _) _).trans (hagents s _)).trans h
  refuse s _ h := ((hmark (s.updateAgent _) _).trans (hagents s _)).trans h
  schedSkip s h := by
    unfold State.schedSkip
    split
    · exact (hsched s _ s.schedTaken).trans h
    · exact (hsched s s.sched _).trans h

/-- What `read_word` keeps (40_register_block.md R132). -/
theorem readWord_keeps (off : Nat) (s : State) (h : P (s.afterRead off)) :
    (readWord off s).Keeps P := by
  rw [readWord_eq]
  split_ifs <;> simp [Reply.Keeps, h]

/-- What `write_word` keeps (40_register_block.md R133). -/
theorem writeWord_keeps (off : Nat) (v : Word) (s : State)
    (h : writableOffsets.contains off = true → P (s.afterWrite off v)) :
    (writeWord off v s).Keeps P := by
  rw [writeWord_eq]
  split_ifs <;> simp_all [Reply.Keeps]

/-- What `map` keeps (40_register_block.md R130). -/
theorem mapWindow_keeps (base size : Nat) (s : State) (h0 : P (s.skip 1))
    (h : ∀ x, s.fresh ≤ x → P { s.skip 2 with mapping := some x, fresh := x + 1 }) :
    (mapWindow base size s).Keeps P := by
  unfold mapWindow
  split_ifs
  · trivial
  · trivial
  · have := h (s.skip 1).freshId (by simp [State.freshId])
    simpa [Reply.Keeps, State.takeFresh, skip_skip] using this
  · exact h0

/-- What `unmap` keeps (40_register_block.md R131). -/
theorem unmapWindow_keeps (s : State) (h : P { s with mapping := none }) :
    (unmapWindow s).Keeps P := by
  unfold unmapWindow
  split_ifs
  · trivial
  · exact h

/-- What set_function's read keeps (41_pin_control.md R150). -/
theorem setFunctionRead_keeps (p : Nat) (m : BitVec 3) (s : State)
    (h : P (s.afterRead (fselOffset p))) : (setFunctionRead p m s).Keeps P := by
  unfold setFunctionRead
  split_ifs
  · trivial
  · trivial
  · exact readWord_keeps _ _ h

/-- What set_function's write keeps (41_pin_control.md R150). -/
theorem setFunctionWrite_keeps (p : Nat) (m : BitVec 3) (w : Word) (s : State)
    (h : P (s.afterWrite (fselOffset p) (withField w p m))) :
    (setFunctionWrite p m w s).Keeps P :=
  writeWord_keeps _ _ _ fun _ => h

/-- What `read_level` keeps (41_pin_control.md R151). -/
theorem readLevel_keeps (p : Nat) (s : State) (h : P (s.afterRead 0x34)) :
    (readLevel p s).Keeps P := by
  unfold readLevel
  split_ifs
  · trivial
  · rw [Reply.keeps_map]
    exact readWord_keeps _ _ h

/-- What `set_high` and `set_low` keep (41_pin_control.md R152, R153). -/
theorem drivePin_keeps (off p : Nat) (s : State) (h : P (s.afterWrite off (pinBit p))) :
    (drivePin off p s).Keeps P := by
  unfold drivePin
  split_ifs
  · trivial
  · trivial
  · exact writeWord_keeps _ _ _ fun _ => h

/-- What `select` keeps (42_channel_selector.md R180). -/
theorem selectChannel_keeps (b : Byte) (s : State) (h0 : P s) (h : ∀ c, P { s with sel := c }) :
    (selectChannel b s).Keeps P := by
  unfold selectChannel
  split
  · exact h _
  · exact h0

/-- What an open keeps (43_signal_endpoint.md R195, 44_led_endpoint.md R225). -/
theorem openSession_keeps (k : Endpoint) (s : State) (h0 : P (s.skip 1))
    (h : P ((s.skip 1).addSession k)) : (openSession k s).Keeps P := by
  unfold openSession
  split_ifs
  · exact h0
  · exact h0
  · exact h

/-- What `sig.open` keeps (43_signal_endpoint.md R195). -/
theorem sigOpen_keeps (s : State) (h0 : P (s.skip 1))
    (h : P { (s.skip 1).addSession .sig with
      offsets := tableSet s.offsets (s.skip 1).freshId 0 }) : (sigOpen s).Keeps P := by
  unfold sigOpen openSession
  split_ifs
  · exact h0
  · exact h0
  · exact h

/-- What the first step of `sig.read` keeps (43_signal_endpoint.md R196). -/
theorem sigReadStart_keeps (id maxLen : Nat) (s : State) (h : P s) :
    (sigReadStart id maxLen s).Keeps P := by
  unfold sigReadStart
  split_ifs
  · trivial
  · exact h

/-- What the later steps of `sig.read` keep (43_signal_endpoint.md R196). -/
theorem sigReadAdvance_keeps (t : SigReadTask) (s : State) (h : P s)
    (hread : ∀ s, P s → P (s.afterRead 0x34)) (hskip : ∀ s, P s → P (s.skip 1))
    (hoff : ∀ s id n, P s → P (s.advanceOffset id n)) : (sigReadAdvance t s).Keeps P := by
  cases t with
  | sample id maxLen off p =>
    have hl := readLevel_keeps p s (hread s h)
    simp only [sigReadAdvance, sigReadSample]
    split
    · next heq =>
      rw [heq] at hl
      split_ifs <;> exact hl
    · next heq =>
      rw [heq] at hl
      exact hl
    · trivial
    · trivial
  | copyOut id bytes =>
    simp only [sigReadAdvance, sigReadCopy, State.afterCopy]
    split_ifs <;> simp only [Reply.Keeps] <;>
      first
        | exact hoff _ _ _ h
        | exact hoff _ _ _ (hskip s h)
        | exact h
        | exact hskip s h

/-- What the first step of `sig.write` keeps (43_signal_endpoint.md R197). -/
theorem sigWriteStart_keeps (id : Nat) (data : List Byte) (s : State) (h : P s)
    (h1 : P (s.skip 1)) : (sigWriteStart id data s).Keeps P := by
  cases data with
  | nil =>
    unfold sigWriteStart
    split
    · trivial
    · exact h
  | cons b rest =>
    have hc : P (s.afterCopy 1) := h1
    unfold sigWriteStart
    split_ifs
    · trivial
    · exact hc
    · exact hc

/-- What the selection of `sig.write` keeps (43_signal_endpoint.md R197). -/
theorem sigWriteAdvance_keeps (t : SigWriteTask) (s : State) (h : P s)
    (hsel : ∀ c, P { s with sel := c }) : (sigWriteAdvance t s).Keeps P := by
  cases t
  simp only [sigWriteAdvance, Reply.keeps_map]
  exact selectChannel_keeps _ _ h hsel

/-- What the first step of `led.write` keeps (44_led_endpoint.md R226). -/
theorem ledWriteStart_keeps (id : Nat) (data : List Byte) (s : State) (h : P s) (h1 : P (s.skip 1)) :
    (ledWriteStart id data s).Keeps P := by
  have hc : ∀ m, P (s.afterCopy m) := by
    intro m
    unfold State.afterCopy
    split_ifs
    · exact h
    · exact h1
  unfold ledWriteStart
  split_ifs
  · trivial
  · simp only
    split_ifs
    · split
      · exact hc _
      · exact hc _
    · exact hc _

/-- What the drive of `led.write` keeps (44_led_endpoint.md R226). -/
theorem ledWriteAdvance_keeps (t : LedWriteTask) (s : State)
    (h : ∀ off, off = 0x1C ∨ off = 0x28 → P (s.afterWrite off (pinBit s.cfg.outputPin))) :
    (ledWriteAdvance t s).Keeps P := by
  cases t
  simp only [ledWriteAdvance, Reply.keeps_map]
  split_ifs
  · exact drivePin_keeps _ _ _ (h _ (Or.inr rfl))
  · exact drivePin_keeps _ _ _ (h _ (Or.inl rfl))

/-- What `register_endpoint` keeps (46_lifecycle.md R272). -/
theorem registerEndpoint_keeps (k : Endpoint) (s : State) (h0 : P (s.skip 1))
    (h : P ((s.skip 1).setRegistered k true)) : (registerEndpoint k s).Keeps P := by
  unfold registerEndpoint
  split_ifs
  · trivial
  · exact h
  · exact h0

/-- What `deregister_endpoint` keeps (46_lifecycle.md R273). -/
theorem deregisterEndpoint_keeps (k : Endpoint) (s : State) (h : P (s.setRegistered k false)) :
    (deregisterEndpoint k s).Keeps P := by
  unfold deregisterEndpoint
  split_ifs
  · trivial
  · exact h

/-- What `startup`'s phase test keeps (46_lifecycle.md R270). -/
theorem startupStart_keeps (s : State) (h : P { s with phase := .starting }) :
    (startupStart s).Keeps P := by
  unfold startupStart
  split_ifs
  · trivial
  · exact h

/-- What `teardown`'s phase test keeps (46_lifecycle.md R271). -/
theorem teardownStart_keeps (s : State) (h : P { s with phase := .stopping }) :
    (teardownStart s).Keeps P := by
  unfold teardownStart
  split_ifs
  · trivial
  · exact h

end Sys2Proof.Machine
end

