-- ==== Sys2Proof/Tests/Slice0.lean ====
section
/-!
SUPPORT. Tests on small states: the operand checks, the decoding of words written out from
30_encoding.md R92, the vectors of 95_test_vectors.md one call at a time, and for every statement
with hypotheses a state and operands that meet them.
-/

namespace Sys2Proof.Tests

open Sys2Proof Sys2Proof.Machine

/-! ### Small states -/

/-- The configuration of 95_test_vectors.md, Text. -/
def cfg : Config := ⟨0x3F200, 22, 27, 17, .text, true, "sig", "led"⟩

/-- Stored pin fields given word by word. -/
def fields (w0 w1 w2 w5 : Nat) : Fsel :=
  ⟨BitVec.ofNat 30 w0, BitVec.ofNat 30 w1, BitVec.ofNat 30 w2, 0, 0, BitVec.ofNat 12 w5⟩

/-- An agent at its first call. -/
def agentOf (k : AgentKind) (l : List CallRecord) : Agent := ⟨k, .calls l, [], .ready⟩

/-- 70_reset_and_hazards.md R351: Running, pin 17 OUTPUT, OUTLATCH 0, sel CH1; sessions 3 (signal)
and 4 (LED) open; one caller; every draw that follows is one of the given list. -/
def running (env : List Nat) : State :=
  { State.reset with
    cfg := cfg, fsel := fields 0 0x00200000 0 0, outlatch := 0, mapping := some 1, sel := .ch1,
    sigReg := true, ledReg := true, sessions := [(3, .sig), (4, .led)], offsets := [(3, 0)],
    phase := .running, agents := [agentOf .caller []], fresh := 5, env := env }

/-- Absent, nothing mapped, nothing registered, no session; one lifecycle agent. -/
def absent (env : List Nat) : State :=
  { running env with
    mapping := none, sigReg := false, ledReg := false, sessions := [], offsets := [],
    phase := .absent, agents := [agentOf .lifecycle []] }

/-- The running state with a second caller that has a call to make, and with scheduler choices. -/
def shared (env sched : List Nat) : State :=
  { running env with agents := [agentOf .caller [], agentOf .caller [encode .ledOpen]], sched := sched }

/-- The absent state with a caller that has a call to make, and with scheduler choices. -/
def absentShared (env sched : List Nat) : State :=
  { absent env with
    agents := [agentOf .lifecycle [], agentOf .caller [encode .ledOpen]], sched := sched }

/-- What a next state shows. -/
def look {α : Type} (o : Host.Outcome State Fault Refusal) (f : State → α) : Option α :=
  match o with
  | .next t => some (f t)
  | .fault _ => none
  | .refused _ => none

/-- The newest result of the current agent. -/
def last (t : State) : Option Result := t.agent.bind fun a => a.results.getLast?

/-- One access of the history, as 95_test_vectors.md writes it. -/
structure Access where
  kind : AccessKind
  offset : Nat
  value : Word
deriving DecidableEq, Repr

/-- The accesses of the history. -/
def accesses (t : State) : List Access := t.history.map fun e => ⟨e.access, e.offset, e.value⟩

/-- What the current agent is doing. -/
def status (t : State) : Option AgentStatus := t.agent.map fun a => a.status

/-! ### Operand ranges (30_encoding.md R95) -/

theorem test_wellFormed_map_base : Instr.wellFormed (.map 1 4096) = false := by decide
theorem test_wellFormed_map_size : Instr.wellFormed (.map 0x3F200000 8192) = false := by decide
theorem test_wellFormed_map : Instr.wellFormed (.map 0x3F200000 4096) = true := by decide
theorem test_wellFormed_readWord : Instr.wellFormed (.readWord 0x1C) = false := by decide
theorem test_wellFormed_writeWord : Instr.wellFormed (.writeWord 0x34 0) = false := by decide
theorem test_wellFormed_setFunction_pin : Instr.wellFormed (.setFunction 54 1) = false := by decide
theorem test_wellFormed_setFunction_mode : Instr.wellFormed (.setFunction 53 2) = false := by decide
theorem test_wellFormed_setFunction : Instr.wellFormed (.setFunction 53 1) = true := by decide
theorem test_wellFormed_readLevel : Instr.wellFormed (.readLevel 32) = false := by decide
theorem test_wellFormed_setHigh : Instr.wellFormed (.setHigh 32) = false := by decide
theorem test_wellFormed_setLow : Instr.wellFormed (.setLow 53) = false := by decide

/-! ### Decoding of records written out from 30_encoding.md R92 -/

theorem test_decode_map : decode ⟨0x00, [.addr 0x3F200000, .nat 4096]⟩ = .ok (.map 0x3F200000 4096) := rfl
theorem test_decode_unmap : decode ⟨0x01, []⟩ = .ok .unmap := rfl
theorem test_decode_readWord : decode ⟨0x02, [.offset 0x34]⟩ = .ok (.readWord 0x34) := rfl
theorem test_decode_writeWord :
    decode ⟨0x03, [.offset 0x1C, .word 0x00020000]⟩ = .ok (.writeWord 0x1C 0x00020000) := rfl
theorem test_decode_setFunction : decode ⟨0x20, [.pin 17, .mode 1]⟩ = .ok (.setFunction 17 1) := rfl
theorem test_decode_readLevel : decode ⟨0x40, [.pin 27]⟩ = .ok (.readLevel 27) := rfl
theorem test_decode_setHigh : decode ⟨0x60, [.pin 17]⟩ = .ok (.setHigh 17) := rfl
theorem test_decode_setLow : decode ⟨0x61, [.pin 17]⟩ = .ok (.setLow 17) := rfl
theorem test_decode_select : decode ⟨0x80, [.byte 0x32]⟩ = .ok (.select 0x32) := rfl
theorem test_decode_current : decode ⟨0x81, []⟩ = .ok .current := rfl
theorem test_decode_sigOpen : decode ⟨0xA0, []⟩ = .ok .sigOpen := rfl
theorem test_decode_sigRead : decode ⟨0xA1, [.session (.id 3), .nat 16]⟩ = .ok (.sigRead 3 16) := rfl
theorem test_decode_sigWrite :
    decode ⟨0xA2, [.session (.id 3), .bytes [0x32]]⟩ = .ok (.sigWrite 3 [0x32]) := rfl
theorem test_decode_sigClose : decode ⟨0xA3, [.session (.id 3)]⟩ = .ok (.sigClose 3) := rfl
theorem test_decode_ledOpen : decode ⟨0xC0, []⟩ = .ok .ledOpen := rfl
theorem test_decode_ledRead : decode ⟨0xC1, [.session (.id 4), .nat 2]⟩ = .ok (.ledRead 4 2) := rfl
theorem test_decode_ledWrite :
    decode ⟨0xC2, [.session (.id 4), .bytes [0x31]]⟩ = .ok (.ledWrite 4 [0x31]) := rfl
theorem test_decode_ledClose : decode ⟨0xC3, [.session (.id 4)]⟩ = .ok (.ledClose 4) := rfl
theorem test_decode_startup : decode ⟨0xE0, []⟩ = .ok .startup := rfl
theorem test_decode_teardown : decode ⟨0xE1, []⟩ = .ok .teardown := rfl
theorem test_decode_registerEndpoint :
    decode ⟨0xE2, [.endpoint .led]⟩ = .ok (.registerEndpoint .led) := rfl
theorem test_decode_deregisterEndpoint :
    decode ⟨0xE3, [.endpoint .sig]⟩ = .ok (.deregisterEndpoint .sig) := rfl

/-- R96: neighbours of listed codes are reserved. -/
theorem test_decode_reserved :
    (decode ⟨0x04, []⟩, decode ⟨0x21, []⟩, decode ⟨0xA4, []⟩, decode ⟨0xE4, []⟩, decode ⟨0xFF, []⟩) =
      (.error .opcode, .error .opcode, .error .opcode, .error .opcode, .error .opcode) := rfl

/-- R91: the operand list follows from the OPC; R106: a name must be bound by an open. -/
theorem test_decode_shape :
    (decode ⟨0x81, [.nat 0]⟩, decode ⟨0xA3, [.session (.bound 0)]⟩) =
      (.error .operands, .error .session) := rfl

/-- R106: a name bound by the agent's call 0 stands for the identifier that open returned. -/
theorem test_bound_name :
    CallRecord.resolve [.session 7, .count 1 []] ⟨0xA3, [.session (.bound 0)]⟩ =
      ⟨0xA3, [.session (.id 7)]⟩ := rfl

/-- R107: the pseudo-operations. -/
theorem test_pseudo :
    (cfgIn 22, cfgOut 17, sigPseudo .ch2 3, ledPseudo .text true 4, ledPseudo .binary true 4) =
      (.setFunction 22 0, .setFunction 17 1, .sigWrite 3 [0x32], .ledWrite 4 [0x31],
        .ledWrite 4 [0x01, 0x00, 0x00, 0x00]) := rfl

/-! ### RegisterBlock (95 L2.1) -/

/-- RB1, RB2. -/
theorem test_map :
    look (exec (.map 0x3F200000 4096) (absent [1, 0])) (fun t => (t.mapping.isSome, accesses t)) =
        some (true, []) ∧
      look (exec (.map 0x3F200000 4096) (absent [0])) (fun t => (t.mapping.isSome, last t)) =
        some (false, some (.error .mapFailure)) := by decide

/-- RB3, RB4. -/
theorem test_map_refused :
    look (exec (.map 0x3F200000 4096) (running [])) (fun t => (status t, t.refusalMark)) =
        some (some (.stuck .mapping), true) ∧
      look (exec (.map 0x3F200000 8192) (absent [])) (fun t => (status t, t.refusalMark)) =
        some (some (.stuck .config), true) := by decide

/-- RB5, RB6. -/
theorem test_unmap :
    look (exec .unmap (running [])) (fun t => (t.mapping, last t)) = some (none, some .ok) ∧
      look (exec .unmap (absent [])) status = some (some (.stuck .mapping)) := by decide

/-- RB7: the reserved draw 0b10 is bits 31:30. -/
theorem test_readWord :
    look (exec (.readWord 0x08) { running [0x80000000] with fsel := fields 0 0 0x00E001C0 0 })
        (fun t => (last t, accesses t)) =
      some (some (.word 0x80E001C0), [⟨.read, 0x08, 0x80E001C0⟩]) := by decide

/-- RB8, RB11, RB13. -/
theorem test_readWord_faults :
    look (exec (.readWord 0x1C) (running [])) (fun t => (t.faults, accesses t)) =
        some ([(.badOffset, 0x1C)], []) ∧
      look (exec (.readWord 0x02) (running [])) (fun t => t.faults) = some [(.badOffset, 0x02)] ∧
      look (exec (.readWord 0x1C) (absent [])) (fun t => t.faults) = some [(.unmapped, 0x1C)] := by
  decide

/-- RB15, RB17, RB18. -/
theorem test_writeWord_latch :
    look (exec (.writeWord 0x1C 0x00020000) (running [])) (fun t => (t.outlatch, accesses t)) =
        some (0x00020000, [⟨.write, 0x1C, 0x00020000⟩]) ∧
      look (exec (.writeWord 0x28 0x0000FFFF) { running [] with outlatch := 0xFFFFFFFF })
        (fun t => t.outlatch) = some 0xFFFF0000 ∧
      look (exec (.writeWord 0x28 0) { running [] with outlatch := 0x12345678 })
        (fun t => (t.outlatch, accesses t)) = some (0x12345678, [⟨.write, 0x28, 0⟩]) := by decide

/-- RB12, RB20, RB21. -/
theorem test_writeWord_fields :
    look (exec (.writeWord 0x34 0) (running [])) (fun t => t.faults) = some [(.badOffset, 0x34)] ∧
      look (exec (.writeWord 0x14 0xFFFFFFFF) (running [])) (fun t => t.fsel.fsel5) = some 0xFFF ∧
      look (exec (.writeWord 0x00 0x00000001) { running [] with fsel := fields 0x3FFFFFFF 0 0 0 })
        (fun t => t.fsel.fsel0) = some 1 := by decide

/-! ### Pin control (95 L2.2 to L2.4) -/

/-- SF3 (reserved draw 0b11), SF11. -/
theorem test_setFunction :
    look (exec (.setFunction 10 0) { running [0xC0000000] with fsel := fields 0 0x3FFFFFFF 0 0 })
        (fun t => (t.fsel.fsel1, accesses t)) =
      some (0x3FFFFFF8, [⟨.read, 0x04, 0xFFFFFFFF⟩, ⟨.write, 0x04, 0xFFFFFFF8⟩]) ∧
    look (exec (.setFunction 50 0) { running [0xC0000000] with fsel := fields 0 0 0 0xFFF })
        (fun t => (t.fsel.fsel5, accesses t)) =
      some (0xFF8, [⟨.read, 0x14, 0xC0000FFF⟩, ⟨.write, 0x14, 0xC0000FF8⟩]) := by decide

/-- SF13, SF14, SF15. -/
theorem test_setFunction_stops :
    look (exec (.setFunction 54 0) (running [])) (fun t => t.faults) = some [(.pinRange, 54)] ∧
      look (exec (.setFunction 17 2) (running [])) status = some (some (.stuck .mode)) ∧
      look (exec (.setFunction 17 1) (absent [])) (fun t => t.faults) = some [(.unmapped, 0x04)] := by
  decide

/-- RL1, RL5, RL10. -/
theorem test_readLevel :
    look (exec (.readLevel 27) (running [0x08000000])) (fun t => (last t, accesses t)) =
        some (some (.bool true), [⟨.read, 0x34, 0x08000000⟩]) ∧
      look (exec (.readLevel 17) { running [0] with outlatch := 0x00020000 }) last =
        some (some (.bool true)) ∧
      look (exec (.readLevel 17)
        { running [0] with outlatch := 0x00020000, cfg := { cfg with levelLoopback := false } }) last =
        some (some (.bool false)) := by decide

/-- RL8, RL9. -/
theorem test_readLevel_faults :
    look (exec (.readLevel 32) (running [])) (fun t => (t.faults, accesses t)) =
        some ([(.pinRange, 32)], []) ∧
      look (exec (.readLevel 22) (absent [])) (fun t => t.faults) = some [(.unmapped, 0x34)] := by
  decide

/-- SH2, SH5. -/
theorem test_setHigh :
    look (exec (.setHigh 17) { running [] with outlatch := 0x00400000 })
        (fun t => (t.outlatch, accesses t)) = some (0x00420000, [⟨.write, 0x1C, 0x00020000⟩]) ∧
      look (exec (.setHigh 31) { running [] with fsel := ⟨0, 0, 0, 8, 0, 0⟩ })
        (fun t => t.outlatch) = some 0x80000000 := by decide

/-- SH7, SH8, SH9. -/
theorem test_setHigh_faults :
    look (exec (.setHigh 17) { running [] with fsel := fields 0 0x00800000 0 0 })
        (fun t => t.faults) = some [(.driveNotOutput, 17)] ∧
      look (exec (.setHigh 32) (running [])) (fun t => t.faults) = some [(.pinRange, 32)] ∧
      look (exec (.setHigh 17) { running [] with mapping := none }) (fun t => t.faults) =
        some [(.unmapped, 0x1C)] := by decide

/-- SL1. -/
theorem test_setLow :
    look (exec (.setLow 17) { running [] with outlatch := 0x00420000 })
        (fun t => (t.outlatch, accesses t)) = some (0x00400000, [⟨.write, 0x28, 0x00020000⟩]) := by
  decide

/-- SL3, SL4. -/
theorem test_setLow_faults :
    look (exec (.setLow 22) (running [])) (fun t => t.faults) = some [(.driveNotOutput, 22)] ∧
      look (exec (.setLow 53) (running [])) (fun t => t.faults) = some [(.pinRange, 53)] := by decide

/-! ### ChannelSelector (95 L2.5) -/

/-- CS2, CS5, CS9. -/
theorem test_select :
    look (exec (.select 0x32) (running [])) (fun t => (last t, t.sel)) =
        some (some (.pin 27), .ch2) ∧
      look (exec (.select 0x33) { running [] with sel := .ch2 }) (fun t => (last t, t.sel)) =
        some (some (.error .invalidSelector), .ch2) ∧
      look (exec (.select 0xB1) (running [])) (fun t => (last t, t.sel)) =
        some (some (.error .invalidSelector), .ch1) := by decide

/-- CS10, CS11. -/
theorem test_current :
    look (exec .current (running [])) last = some (some (.pin 22)) ∧
      look (exec .current { running [] with sel := .ch2 }) last = some (some (.pin 27)) := by decide

/-! ### Signal endpoint (95 L2.6) -/

/-- SG1, SG2, SG3. -/
theorem test_sigOpen :
    look (exec .sigOpen (running [0, 0])) (fun t => (last t, t.offsets)) =
        some (some (.session 5), [(3, 0), (5, 0)]) ∧
      look (exec .sigOpen (absent [0])) last = some (some (.error .noDevice)) ∧
      look (exec .sigOpen (absent [1])) last = some (some (.error .accessDenied)) := by decide

/-- SG4, SG6, SG5. -/
theorem test_sigRead :
    look (exec (.sigRead 3 16) (running [0, 1])) (fun t => (last t, t.offset 3, accesses t)) =
        some (some (.count 2 [0x30, 0x0A]), 2, [⟨.read, 0x34, 0⟩]) ∧
      look (exec (.sigRead 3 1) (running [0, 1])) (fun t => (last t, t.offset 3)) =
        some (some (.count 1 [0x30]), 1) ∧
      look (exec (.sigRead 3 16) { running [0] with offsets := [(3, 2)] })
        (fun t => (last t, t.offset 3, accesses t)) =
        some (some (.count 0 []), 2, [⟨.read, 0x34, 0⟩]) := by decide

/-- SG8, SG11, SG13. -/
theorem test_sigRead_other :
    look (exec (.sigRead 3 16) { running [0, 1] with offsets := [(3, 1)] }) (fun t => (last t, t.offset 3)) =
        some (some (.count 1 [0x0A]), 2) ∧
      look (exec (.sigRead 3 16) (running [0, 0])) (fun t => (last t, t.offset 3, accesses t)) =
        some (some (.error .copyFault), 0, [⟨.read, 0x34, 0⟩]) ∧
      look (exec (.sigRead 3 16) { running [] with mapping := none }) (fun t => t.faults) =
        some [(.unmapped, 0x34)] := by decide

/-- SG14, SG16. -/
theorem test_sigWrite :
    look (exec (.sigWrite 3 [0x32]) (running [1])) (fun t => (last t, t.sel, t.offset 3, accesses t)) =
        some (some (.count 1 []), .ch2, 0, []) ∧
      look (exec (.sigWrite 3 [0x31, 0x0A]) { running [1] with sel := .ch2 }) (fun t => (last t, t.sel)) =
        some (some (.count 1 []), .ch1) := by decide

/-- SG26, and a close. -/
theorem test_sigClose :
    look (exec (.sigRead 4 2) (running [])) status = some (some (.stuck .session)) ∧
      look (exec (.sigClose 3) (running [])) (fun t => (t.sessions, t.offsets)) =
        some ([(4, .led)], []) := by decide

/-! ### LED endpoint (95 L2.7) -/

/-- LE1, LE2, LE3. -/
theorem test_ledOpen :
    look (exec .ledOpen (running [0, 2])) last = some (some (.session 7)) ∧
      look (exec .ledOpen (absent [0])) last = some (some (.error .noDevice)) ∧
      look (exec .ledOpen (absent [1])) last = some (some (.error .accessDenied)) := by decide

/-- LT2, LT4, LT19. -/
theorem test_ledWrite :
    look (exec (.ledWrite 4 [0x30, 0x0A]) { running [1] with outlatch := 0x00020000 })
        (fun t => (last t, t.outlatch, accesses t)) =
        some (some (.count 2 []), 0, [⟨.write, 0x28, 0x00020000⟩]) ∧
      look (exec (.ledWrite 4 [0x31]) (running [1])) (fun t => (last t, t.outlatch)) =
        some (some (.count 1 []), 0x00020000) ∧
      look (exec (.ledWrite 4 [0x78]) (running [0])) (fun t => (last t, accesses t)) =
        some (some (.error .copyFault), []) := by decide

/-- LB3, LB5, LB6. -/
theorem test_ledWrite_binary :
    look (exec (.ledWrite 4 [0, 0, 0, 1]) { running [1] with cfg := { cfg with ledEncoding := .binary } })
        (fun t => (last t, t.outlatch)) = some (some (.count 4 []), 0x00020000) ∧
      look (exec (.ledWrite 4 [0, 0, 0, 0, 1])
        { running [1] with cfg := { cfg with ledEncoding := .binary }, outlatch := 0x00020000 })
        (fun t => (last t, t.outlatch)) = some (some (.count 4 []), 0) ∧
      look (exec (.ledWrite 4 [1, 0, 0]) { running [1] with cfg := { cfg with ledEncoding := .binary } })
        last = some (some (.error .invalidValue)) := by decide

/-- LT6, LT8 to LT11, LT13, LT17: the Text decoder. -/
theorem test_ledText :
    [ledTextValue [0x30, 0x30, 0x37],
      ledTextValue [0x34, 0x32, 0x39, 0x34, 0x39, 0x36, 0x37, 0x32, 0x39, 0x35],
      ledTextValue [0x34, 0x32, 0x39, 0x34, 0x39, 0x36, 0x37, 0x32, 0x39, 0x36],
      ledTextValue [], ledTextValue [0x0A], ledTextValue [0x20, 0x31],
      ledTextValue [0x31, 0x0A, 0x0A]] =
    [some 7, some 4294967295, none, none, none, none, none] := by decide

/-- LE4. -/
theorem test_ledRead :
    look (exec (.ledRead 4 2) (running [])) (fun t => (last t, accesses t)) =
      some (some (.error .notSupported), []) := by decide

/-- LE5. -/
theorem test_ledClose :
    look (exec (.ledClose 4) { running [] with outlatch := 0x00020000 })
        (fun t => (last t, t.sessions, t.outlatch)) =
      some (some .ok, [(3, .sig)], 0x00020000) := by decide

/-! ### Lifecycle (95 L2.8) -/

/-- LC2. -/
theorem test_startup :
    look (exec .startup
        { absent [1, 0, 0, 0, 0, 1, 1] with fsel := fields 0 0x3FFFFFFF 0x3FFFFFFF 0, sel := .ch2 })
        (fun t => (last t, t.phase, t.sel, t.sigReg && t.ledReg && t.mapping.isSome, accesses t)) =
      some (some .ok, .running, .ch1, true,
        [⟨.read, 0x08, 0x3FFFFFFF⟩, ⟨.write, 0x08, 0x3FFFFE3F⟩, ⟨.read, 0x08, 0x3FFFFE3F⟩,
          ⟨.write, 0x08, 0x3F1FFE3F⟩, ⟨.read, 0x04, 0x3FFFFFFF⟩, ⟨.write, 0x04, 0x3F3FFFFF⟩]) := by
  decide

/-- LC3, LC5: the LED registration fails, the signal registration is undone. -/
theorem test_startup_fails :
    look (exec .startup (absent [0])) (fun t => (last t, t.phase, t.mapping, accesses t)) =
        some (some (.error .mapFailure), .absent, none, []) ∧
      look (exec .startup (absent [1, 0, 0, 0, 0, 1, 0]))
        (fun t => (last t, t.phase, t.mapping, t.sigReg, t.history.length)) =
        some (some (.error .registrationFailure), .absent, none, false, 6) := by decide

/-- LC7. -/
theorem test_teardown :
    look (exec .teardown { running [] with outlatch := 0x00020000 })
        (fun t => (last t, t.phase, t.mapping.isSome || t.sigReg || t.ledReg, t.outlatch, accesses t)) =
      some (some .ok, .absent, false, 0, [⟨.write, 0x28, 0x00020000⟩]) := by decide

/-- LC6, LC9. -/
theorem test_out_of_phase :
    look (exec .startup (running [])) status = some (some (.stuck .lifecycle)) ∧
      look (exec .teardown (absent [])) status = some (some (.stuck .lifecycle)) := by decide

/-- LC11, and a registration. -/
theorem test_registerEndpoint :
    look (exec (.registerEndpoint .sig) (running [])) status = some (some (.stuck .lifecycle)) ∧
      look (exec (.registerEndpoint .led) (absent [1])) (fun t => (t.sigReg, t.ledReg)) =
        some (false, true) := by decide

/-- LC12, and a deregistration. -/
theorem test_deregisterEndpoint :
    look (exec (.deregisterEndpoint .led) (absent [])) status = some (some (.stuck .lifecycle)) ∧
      look (exec (.deregisterEndpoint .sig) (running [])) (fun t => (t.sigReg, t.ledReg)) =
        some (false, true) := by decide

/-! ### Pins, the client and the host (95 L1.1, L2.9) -/

/-- L1.1. -/
theorem test_addressing :
    ([17, 22, 27, 0, 9, 53].map fun p => (fselOffset p, fieldShift p, fieldMask p)) =
      [(0x04, 21, 0x00E00000), (0x08, 6, 0x000001C0), (0x08, 21, 0x00E00000), (0x00, 0, 0x00000007),
        (0x00, 27, 0x38000000), (0x14, 9, 0x00000E00)] := by decide

/-- 10_state.md R43. -/
theorem test_pinDrive :
    (pinDrive (fields 0 0x00200000 0 0) 0x00020000 17, pinDrive (fields 0 0x00200000 0 0) 0 17,
      pinDrive (fields 0 0x00200000 0 0) 0 22) = (.high, .low, .notDriven) := by decide

/-- CL1, CL3, CL6, CL8. -/
theorem test_client :
    [clientExitStatus [[0x6F, 0x6E]] [.session 9, .count 1 [], .ok],
      clientExitStatus [[0x62, 0x6C, 0x69, 0x6E, 0x6B]] [],
      clientExitStatus [[0x4F, 0x4E]] [],
      clientExitStatus [[0x6F, 0x6E]] [.session 9, .error .copyFault, .ok],
      clientExitStatus [[0x6F, 0x6E]] [.session 9]] =
    [some 0, some 1, some 1, some 1, none] := by decide

/-! ### Witnesses: states and operands that meet a statement's hypotheses

One theorem per statement with hypotheses, one conjunct per clause. -/

/-- A caller at one call record, in the running state. -/
def atCall (c : CallRecord) : State := { running [] with agents := [agentOf .caller [c]] }

/-- The running state with its one caller inside a call. -/
def inCall (env : List Nat) (t : Task) : State :=
  { running env with agents := [{ agentOf .caller [] with status := .inCall t }] }

/-- The same with a second caller that has a call to make, and with scheduler choices. -/
def sharedInCall (env sched : List Nat) (t : Task) : State :=
  { running env with
    agents := [{ agentOf .caller [] with status := .inCall t }, agentOf .caller [encode .ledOpen]]
    sched := sched }

/-- A code the table does not list is no call's code. -/
theorem opc_ne (c : BitVec 8) (h : Op.all.all (fun o => o.code != c) = true) (i : Instr) :
    (encode i).opc ≠ c := by
  have hmem : ∀ o : Op, o ∈ Op.all := by intro o; cases o <;> decide
  simpa [encode] using List.all_eq_true.mp h i.op (hmem i.op)

theorem witness_ReservedCodesRefused :
    (∀ i : Instr, (encode i).opc ≠ 0x04) ∧ (∀ i : Instr, (encode i).opc ≠ 0xFF) ∧
      (atCall ⟨0x04, [.byte 1]⟩).agent = some (agentOf .caller [⟨0x04, [.byte 1]⟩]) ∧
      (agentOf .caller [⟨0x04, [.byte 1]⟩]).status = .ready ∧
      (atCall ⟨0x04, [.byte 1]⟩).cfg.valid = true ∧
      (agentOf .caller [⟨0x04, [.byte 1]⟩]).fetch cfg [(3, .sig), (4, .led)] =
        .call ⟨0x04, [.byte 1]⟩ :=
  ⟨opc_ne _ (by decide), opc_ne _ (by decide), rfl, rfl, by decide, rfl⟩

/-- A caller, a lifecycle agent and an agent of kind block at a call each may issue; a state with two
agents enabled, and one whose current agent is not. -/
theorem witness_StepRunsDecodedCall :
    ((atCall (encode .ledOpen)).agent = some (agentOf .caller [encode .ledOpen]) ∧
      (agentOf .caller [encode .ledOpen]).status = .ready ∧
      (atCall (encode .ledOpen)).cfg.valid = true ∧
      (agentOf .caller [encode .ledOpen]).fetch cfg [(3, .sig), (4, .led)] =
        .call (encode .ledOpen) ∧
      decode (encode .ledOpen) = .ok .ledOpen ∧ (encode .ledOpen).opc = 0xC0) ∧
    ((agentOf .lifecycle [encode .startup]).fetch cfg [] = .call (encode .startup) ∧
      (encode .startup).opc = 0xE0) ∧
    (agentOf .block [encode .current]).fetch cfg [] = .call (encode .current) ∧
      (encode .current).opc ∉ ([0xA0, 0xA1, 0xA2, 0xA3, 0xC0, 0xC1, 0xC2, 0xC3, 0xE0, 0xE1] :
        List (BitVec 8)) ∧
      (sharedInCall [] [] (.ledWrite (.drive 1 1))).enabledAgents = [0, 1] ∧
      (shared [] []).agent.map Agent.enabled = some false :=
  ⟨⟨rfl, rfl, by decide, rfl, rfl, rfl⟩, ⟨rfl, rfl⟩, rfl, by decide, by decide, by decide⟩

/-- A parked call; the drive mapped, unmapped, of a pin that is no output and of a pin out of range;
bytes to transfer on an open and on a closed session; the teardown's and the startup's steps, and
undisturbed runs to their end, alone and with another agent enabled. -/
theorem witness_StepResumesParkedCall :
    (inCall [] (.ledWrite (.drive 1 1))).agent.map Agent.status =
      some (.inCall (.ledWrite (.drive 1 1))) ∧
    ((running []).cfg.outputPin < 32 ∧ (running []).fsel.field (running []).cfg.outputPin = 1 ∧
      (running []).mapping ≠ none ∧ ({ running [] with mapping := none } : State).mapping = none ∧
      ({ running [] with fsel := fields 0 0 0 0 } : State).fsel.field 17 ≠ 1 ∧
      32 ≤ ({ running [] with cfg := { cfg with outputPin := 32 } } : State).cfg.outputPin) ∧
    (([0x30] : List Byte) ≠ [] ∧ asBool ((running [0]).peek 0) = false ∧
      asBool ((running [1]).peek 0) = true ∧ tableGet (running [1]).offsets 3 = some 0 ∧
      tableGet (running [1]).offsets 5 = none) ∧
    ((shared [] []).mapping ≠ none ∧ (shared [] []).sigReg = true ∧ (shared [] []).ledReg = true) ∧
    ((absentShared [] []).mapping = none ∧ (absentShared [] []).sigReg = false ∧
      (absentShared [] []).ledReg = false ∧ asBool ((absentShared [1] []).peek 0) = true ∧
      asBool ((absentShared [0] []).peek 0) = false ∧
      (shared [] []).cfg.inputPin1 < 54 ∧ 27 ≠ 22 ∧ 27 / 10 = 22 / 10 ∧
      54 ≤ ({ cfg with inputPin1 := 54 } : Config).inputPin1) ∧
    ((running []).Undisturbed 3 ∧ (shared [] [0, 0, 0]).Undisturbed 3 ∧
      (absentShared [1, 1] [0, 0, 0]).Undisturbed 3 ∧
      asBool ((absentShared [1, 1] [0, 0, 0]).peek 0) = true ∧
      asBool ((absentShared [1, 1] [0, 0, 0]).peek 1) = true) := by decide

theorem witness_InternalRowsRefused :
    ((atCall (encode .current)).agent = some (agentOf .caller [encode .current]) ∧
      (agentOf .caller [encode .current]).fetch cfg [(3, .sig), (4, .led)] = .call (encode .current) ∧
      (encode .current).opc ∉ ([0xA0, 0xA1, 0xA2, 0xA3, 0xC0, 0xC1, 0xC2, 0xC3] : List (BitVec 8))) ∧
    ({ absent [] with agents := [agentOf .lifecycle [encode (.registerEndpoint .led)]] } : State).agent =
        some (agentOf .lifecycle [encode (.registerEndpoint .led)]) ∧
      (agentOf .lifecycle [encode (.registerEndpoint .led)]).fetch cfg [] =
        .call (encode (.registerEndpoint .led)) ∧
      (encode (.registerEndpoint .led)).opc ∉ ([0xE0, 0xE1] : List (BitVec 8)) :=
  ⟨⟨rfl, rfl, by decide⟩, rfl, rfl, by decide⟩

/-- One configuration per way to break 00_scope.md R9, the boundary 32 among them. -/
theorem witness_InvalidConfigurationRefused :
    (agentOf .caller [encode .ledOpen]).hasNext = true ∧
      ([{ cfg with inputPin2 := 22 }, { cfg with outputPin := 22 }, { cfg with outputPin := 27 },
        { cfg with inputPin1 := 32 }, { cfg with inputPin2 := 32 }, { cfg with outputPin := 32 }].map
        Config.valid) = [false, false, false, false, false, false] ∧
      ({ cfg with inputPin1 := 31, inputPin2 := 0 } : Config).valid = true := by decide

/-- A state where nobody can step and nothing was raised, one where a fault is on record, one where
somebody can, and the two refusals of step. -/
theorem witness_StepStops :
    ((running []).agents.all (fun a => !a.enabled) = true ∧ (running []).faults = [] ∧
      (running []).refusalMark = false) ∧
    (({ running [] with faults := [(.pinRange, 54)] } : State).faults ≠ []) ∧
    (shared [] []).agents.all (fun a => !a.enabled) = false ∧
    step (atCall ⟨0x81, [.nat 0]⟩) = .refused .malformedCall ∧
    step { running [] with agents := [⟨.caller, .requests [.openPath "x"], [], .ready⟩] } =
      .refused .foreignPath :=
  ⟨by decide, by decide, by decide, rfl, rfl⟩

theorem witness_ReturnAdvancesCallIndex :
    (shared [] []).agent = some (agentOf .caller []) ∧ 1 ≠ (shared [] []).current := by
  exact ⟨rfl, by decide⟩

theorem witness_RaiseRecordsAndStopsAgent :
    (shared [] []).agent = some (agentOf .caller []) ∧ 1 ≠ (shared [] []).current := by
  exact ⟨rfl, by decide⟩

theorem witness_RefusalMarksAndSticksAgent :
    (shared [] []).agent = some (agentOf .caller []) ∧ 1 ≠ (shared [] []).current := by
  exact ⟨rfl, by decide⟩

theorem witness_MapResult :
    (running []).mapping ≠ none ∧
      ((absent []).mapping = none ∧ ¬ (0 = (absent []).cfg.pBase ∧ 4096 = 4096)) ∧
      ((absent []).mapping = none ∧ ¬ (0x3F200000 = (absent []).cfg.pBase ∧ 4095 = 4096)) ∧
      ((absent [1]).mapping = none ∧ 0x3F200000 = (absent [1]).cfg.pBase ∧
        asBool ((absent [1]).peek 0) = true) ∧ asBool ((absent [0]).peek 0) = false := by decide

theorem witness_UnmapResult :
    (running []).mapping ≠ none ∧ (∃ t, exec .unmap (running []) = .next t) ∧
      (absent []).mapping = none := ⟨by decide, ⟨_, rfl⟩, by decide⟩

/-- FSEL0 and FSEL5, a pin of each at the ends of their ranges. -/
theorem witness_ReadFselResult :
    (running []).mapping ≠ none ∧ 0 < 6 ∧ 5 < 6 ∧ (0 < 54 ∧ 0 / 10 = 0) ∧ (9 < 54 ∧ 9 / 10 = 0) ∧
      (53 < 54 ∧ 53 / 10 = 5) ∧ (31 < 32 ∧ 30 ≤ 31) ∧ (12 < 32 ∧ 5 = 5 ∧ 12 ≤ 12) := by decide

/-- An OUTPUT pin with loopback, and pins 0 and 31 that are not OUTPUT. -/
theorem witness_ReadLevelRegisterResult :
    (running []).mapping ≠ none ∧
      ((running []).cfg.levelLoopback = true ∧ (running []).fsel.field 17 = 1) ∧
      (running []).fsel.field 0 ≠ 1 ∧ (running []).fsel.field 31 ≠ 1 := by decide

theorem witness_ReadWordFaults :
    (absent []).mapping = none ∧ (running []).mapping ≠ none ∧
      ([0x1C, 0x28, 0x18, 0x02, 0x35, 0x38, 4096].all fun off =>
        !([0x00, 0x04, 0x08, 0x0C, 0x10, 0x14, 0x34].contains off)) = true := by decide

theorem witness_WriteFselResult :
    (running []).mapping ≠ none ∧ 0 < 6 ∧ 5 < 6 ∧ (53 < 54 ∧ 53 / 10 = 5) ∧
      (49 < 54 ∧ 49 / 10 ≠ 5) := by decide

theorem witness_WriteSetClearResult : (running []).mapping ≠ none ∧ 0 < 32 ∧ 31 < 32 := by decide

theorem witness_WriteWordFaults :
    (absent []).mapping = none ∧ (running []).mapping ≠ none ∧
      ([0x34, 0x18, 0x1D, 0x2C, 4096].all fun off =>
        !([0x00, 0x04, 0x08, 0x0C, 0x10, 0x14, 0x1C, 0x28].contains off)) = true := by decide

theorem witness_RepeatedWriteIsIdempotent :
    (running []).mapping ≠ none ∧
      (∃ t u, exec (.writeWord 0x1C 1) (running []) = .next t ∧ exec (.writeWord 0x1C 1) t = .next u) ∧
      ∃ t u, exec (.writeWord 0x14 1) (running []) = .next t ∧ exec (.writeWord 0x14 1) t = .next u :=
  ⟨by decide, ⟨_, _, rfl, rfl⟩, _, _, rfl, rfl⟩

theorem witness_SetFunctionResult :
    (running []).Undisturbed 1 ∧ (shared [] [0]).Undisturbed 1 ∧ (shared [] [0]).othersEnabled = true ∧
      (running []).mapping ≠ none ∧ 0 < 54 ∧ 53 < 54 ∧
      (0 : BitVec 3).toNat ≤ 1 ∧ (1 : BitVec 3).toNat ≤ 1 ∧ 18 / 10 = 17 / 10 := by decide

theorem witness_SetFunctionStops :
    2 ≤ (2 : BitVec 3).toNat ∧ 2 ≤ (7 : BitVec 3).toNat ∧
      ((1 : BitVec 3).toNat ≤ 1 ∧ 54 ≤ 54) ∧ (53 < 54 ∧ (absent []).mapping = none) := by decide

theorem witness_SetFunctionCanBeInterrupted :
    (shared [] [1]).othersEnabled = true ∧ asBool ((shared [] [1]).choice 0) = true ∧
      (shared [] [1]).mapping ≠ none ∧ 53 < 54 ∧ (1 : BitVec 3).toNat ≤ 1 := by decide

/-- 95 L2.2 SF16: pin 22 of FSEL2 was read as INPUT, and pin 27 has become OUTPUT since. -/
theorem witness_WriteBackLosesTheOtherWrite :
    (inCall [] (.setFunction (.writeBack 22 1 0))).agent.map Agent.status =
        some (.inCall (.setFunction (.writeBack 22 1 0))) ∧
      (inCall [] (.setFunction (.writeBack 22 1 0))).mapping ≠ none ∧ 22 < 54 ∧
      ({ inCall [] (.setFunction (.writeBack 22 1 0)) with mapping := none } : State).mapping = none ∧
      ((27 ≠ 22 ∧ 27 / 10 = 22 / 10) ∧ (17 ≠ 22 ∧ 17 / 10 ≠ 22 / 10)) := by decide

theorem witness_ReadLevelResult :
    (running []).mapping ≠ none ∧ 0 < 32 ∧ 31 < 32 ∧
      ((running []).cfg.levelLoopback = true ∧ (running []).fsel.field 17 = 1) := by decide

theorem witness_SetHighResult :
    (running []).mapping ≠ none ∧ 17 < 32 ∧ (running []).fsel.field 17 = 1 ∧
      ({ running [] with fsel := ⟨0, 0, 0, 8, 0, 0⟩ } : State).fsel.field 31 = 1 := by decide

theorem witness_SetLowResult :
    (running []).mapping ≠ none ∧ 17 < 32 ∧ (running []).fsel.field 17 = 1 ∧
      ({ running [] with fsel := ⟨1, 0, 0, 0, 0, 0⟩ } : State).fsel.field 0 = 1 := by decide

theorem witness_LevelFaults :
    32 ≤ 32 ∧ (31 < 32 ∧ (running []).fsel.field 31 ≠ 1) ∧
      (17 < 32 ∧ (absent []).fsel.field 17 = 1 ∧ (absent []).mapping = none) := by decide

theorem witness_DrivenLevelReadsBack :
    (running []).cfg.levelLoopback = true ∧ (running []).mapping ≠ none ∧ 17 < 32 ∧
      (running []).fsel.field 17 = 1 := by decide

theorem witness_SelectAndCurrentResult :
    ((0x30 : Byte) ≠ 0x31 ∧ (0x30 : Byte) ≠ 0x32) ∧ ((0x33 : Byte) ≠ 0x31 ∧ (0x33 : Byte) ≠ 0x32) ∧
      (running []).sel = .ch1 ∧ ({ running [] with sel := .ch2 } : State).sel = .ch2 := by decide

theorem witness_SigOpenResult :
    asBool ((running [1]).peek 0) = true ∧
      (asBool ((absent [0]).peek 0) = false ∧ (absent [0]).sigReg = false) ∧
      (asBool ((running [0]).peek 0) = false ∧ (running [0]).sigReg = true) := by decide

/-- Offsets 0 and 1 with bytes to return, offset 2 and a length of 0 without, both draws; alone, with
another agent enabled, and with a scheduler that turns away after the sample; and no mapping. -/
theorem witness_SigReadResult :
    ((running [0, 1]).Undisturbed 2 ∧ (running [0, 1]).cfg.valid = true ∧
      (running [0, 1]).mapping ≠ none ∧ tableGet (running [0, 1]).sessions 3 = some .sig ∧
      tableGet (running [0, 1]).offsets 3 = some 0 ∧ asBool ((running [0, 1]).peek 1) = true ∧
      asBool ((running [0, 0]).peek 1) = false) ∧
    ((shared [0, 1] [0, 0]).Undisturbed 2 ∧ (shared [0, 1] [0, 1]).Undisturbed 1 ∧
      (shared [0, 1] [0, 1]).othersEnabled = true ∧
      asBool ((shared [0, 1] [0, 1]).choice 1) = true) ∧
    ({ shared [] [0] with mapping := none } : State).Undisturbed 1 ∧
    ({ shared [] [0] with mapping := none } : State).mapping = none ∧
    ([(16, 0), (16, 1), (16, 2), (0, 0)].map fun x =>
      if x.2 ≥ 2 then 0 else min x.1 (2 - x.2)) = [2, 1, 0, 0] := by decide

theorem witness_InterruptedReadKeepsItsPin :
    ((shared [] [1]).othersEnabled = true ∧ asBool ((shared [] [1]).choice 0) = true ∧
      tableGet (shared [] [1]).sessions 3 = some .sig ∧
      tableGet (shared [] [1]).offsets 3 = some 0) ∧
    (inCall [0, 1] (.sigRead (.sample 3 2 0 27))).agent.map Agent.status =
        some (.inCall (.sigRead (.sample 3 2 0 27))) ∧
      (inCall [0, 1] (.sigRead (.sample 3 2 0 27))).Undisturbed 1 ∧
      (sharedInCall [0, 1] [0] (.sigRead (.sample 3 2 0 27))).Undisturbed 1 ∧
      (sharedInCall [0, 1] [1] (.sigRead (.sample 3 2 0 27))).othersEnabled = true ∧
      asBool ((sharedInCall [0, 1] [1] (.sigRead (.sample 3 2 0 27))).choice 0) = true ∧
      (inCall [0, 1] (.sigRead (.sample 3 2 0 27))).mapping ≠ none ∧ 27 < 32 ∧ 32 ≤ 32 ∧
      ({ inCall [] (.sigRead (.sample 3 2 0 27)) with mapping := none } : State).mapping = none ∧
      (inCall [0, 1] (.sigRead (.sample 3 2 0 27))).sel = .ch1 ∧
      asBool ((inCall [0, 1] (.sigRead (.sample 3 2 0 27))).peek 1) = true ∧
      asBool ((inCall [0, 0] (.sigRead (.sample 3 2 0 27))).peek 1) = false ∧
      tableGet (inCall [0, 1] (.sigRead (.sample 3 2 0 27))).offsets 3 = some 0 ∧
      tableGet (inCall [0, 1] (.sigRead (.sample 5 2 0 27))).offsets 5 = none ∧
    ([(2, 0), (1, 1), (16, 2), (0, 0)].map fun x =>
      if x.2 ≥ 2 then 0 else min x.1 (2 - x.2)) = [2, 1, 0, 0] := by decide

theorem witness_SigWriteResult :
    ((running [1]).Undisturbed 1 ∧ (shared [1] [0]).Undisturbed 1 ∧
      (shared [1] [1]).othersEnabled = true ∧ asBool ((shared [1] [1]).choice 0) = true) ∧
      tableGet (running [1]).sessions 3 = some .sig ∧
      asBool ((running [0]).peek 0) = false ∧ asBool ((running [1]).peek 0) = true ∧
      ((0x33 : Byte) ≠ 0x31 ∧ (0x33 : Byte) ≠ 0x32) := by decide

theorem witness_CloseResult :
    tableGet (running []).sessions 3 = some .sig ∧ tableGet (running []).sessions 4 = some .led ∧
      tableGet (running []).sessions 4 ≠ some .sig ∧ tableGet (running []).sessions 5 ≠ some .led ∧
      tableWf (running []).sessions = true ∧ tableWf (running []).offsets = true ∧ 4 ≠ 3 := by decide

/-- A session of the other endpoint, and one that does not exist. -/
theorem witness_WrongSessionRefused :
    tableGet (running []).sessions 4 ≠ some .sig ∧ tableGet (running []).sessions 3 ≠ some .led ∧
      tableGet (running []).sessions 5 = none := by decide

theorem witness_EndOfDataAfterOneRead :
    (running [0, 1]).Undisturbed 3 ∧ (shared [0, 1] [0, 0, 0]).Undisturbed 3 ∧
      (running [0, 1]).cfg.valid = true ∧ (running [0, 1]).mapping ≠ none ∧
      tableGet (running [0, 1]).sessions 3 = some .sig ∧
      tableGet (running [0, 1]).offsets 3 = some 0 ∧ 2 ≤ 2 ∧
      asBool ((running [0, 1]).peek 1) = true := by decide

theorem witness_LedOpenResult :
    asBool ((running [1]).peek 0) = true ∧
      (asBool ((absent [0]).peek 0) = false ∧ (absent [0]).ledReg = false) ∧
      (asBool ((running [0]).peek 0) = false ∧ (running [0]).ledReg = true) := by decide

/-- Text "0" and "1", and Binary with a fifth byte. -/
theorem witness_LedWriteDrives :
    ((running [1]).Undisturbed 1 ∧ (shared [1] [0]).Undisturbed 1 ∧
      (shared [1] [1]).othersEnabled = true ∧ asBool ((shared [1] [1]).choice 0) = true) ∧
      (running [1]).cfg.valid = true ∧ (running [1]).mapping ≠ none ∧
      (running [1]).fsel.field (running [1]).cfg.outputPin = 1 ∧
      tableGet (running [1]).sessions 4 = some .led ∧ asBool ((running [1]).peek 0) = true ∧
      ledValue .text (([0x30] : List Byte).take 1) = some 0 ∧
      ledValue .text (([0x31] : List Byte).take 1) = some 1 ∧
      ledValue .binary (([0, 0, 0, 1, 7] : List Byte).take (min 5 4)) = some 0x01000000 := by decide

theorem witness_LedWriteErrors :
    tableGet (running []).sessions 4 = some .led ∧ (running []).cfg.ledEncoding = .text ∧
      ([0x78] : List Byte).length ≠ 0 ∧ asBool ((running [0]).peek 0) = false ∧
      asBool ((running [1]).peek 0) = true ∧
      ledValue .text (([0x78] : List Byte).take 1) = none ∧ ([] : List Byte).length = 0 := by decide

/-- R102's clauses: the numbers 0, 4294967295 and 4294967296, and bytes that are no digits. -/
theorem witness_LedTextGrammar :
    ((0 : Nat) ≤ 4294967295 ∧ 4294967295 ≤ 4294967295 ∧ ¬ 4294967296 ≤ 4294967295) ∧
      ¬ (0x30 ≤ (0x2F : Byte).toNat ∧ (0x2F : Byte).toNat ≤ 0x39) ∧
      ((0x3A : Byte) ≠ 0x0A ∧ ¬ (0x30 ≤ (0x3A : Byte).toNat ∧ (0x3A : Byte).toNat ≤ 0x39)) := by decide

theorem witness_LedBinaryValueIsLittleEndian :
    ([] : List Byte).length < 4 ∧ ([1, 0, 0] : List Byte).length < 4 := by decide

theorem witness_LedReadNotSupported : tableGet (running []).sessions 4 = some .led := by decide

theorem witness_StartupSucceeds :
    (absent [1, 0, 0, 0, 0, 1, 1]).Undisturbed 11 ∧
      (absentShared [1, 0, 0, 0, 0, 1, 1] (List.replicate 11 0)).Undisturbed 11 ∧ (absent [1, 0, 0, 0, 0, 1, 1]).cfg.valid = true ∧
      (absent [1, 0, 0, 0, 0, 1, 1]).phase = .absent ∧
      (absent [1, 0, 0, 0, 0, 1, 1]).mapping = none ∧
      (absent [1, 0, 0, 0, 0, 1, 1]).sigReg = false ∧ (absent [1, 0, 0, 0, 0, 1, 1]).ledReg = false ∧
      ([0, 5, 6].all fun k => asBool ((absent [1, 0, 0, 0, 0, 1, 1]).peek k)) = true := by decide

/-- The mapping fails; the signal's registration fails; the LED's fails. -/
theorem witness_FailedStartupLeaksNothing :
    ((absent [0]).Undisturbed 13 ∧ (absentShared [0] (List.replicate 13 0)).Undisturbed 13 ∧
      (absent [0]).cfg.valid = true ∧ (absent [0]).phase = .absent ∧
      (absent [0]).mapping = none ∧ (absent [0]).sigReg = false ∧ (absent [0]).ledReg = false) ∧
    asBool ((absent [0]).peek 0) = false ∧
    (asBool ((absent [1, 0, 0, 0, 0, 0]).peek 0) = true ∧
      asBool ((absent [1, 0, 0, 0, 0, 0]).peek 5) = false) ∧
    (asBool ((absent [1, 0, 0, 0, 0, 1, 0]).peek 0) = true ∧
      asBool ((absent [1, 0, 0, 0, 0, 1, 0]).peek 5) = true ∧
      asBool ((absent [1, 0, 0, 0, 0, 1, 0]).peek 6) = false) := by decide

theorem witness_TeardownResult :
    (running []).Undisturbed 5 ∧ (shared [] [0, 0, 0, 0, 0]).Undisturbed 5 ∧ (running []).phase = .running ∧ (running []).mapping ≠ none ∧
      (running []).sigReg = true ∧ (running []).ledReg = true ∧ (running []).cfg.outputPin < 32 ∧
      (running []).fsel.field (running []).cfg.outputPin = 1 := by decide

theorem witness_LifecycleOutOfPhaseRefused :
    (running []).phase ≠ .absent ∧ (absent []).phase ≠ .running ∧
      ({ absent [] with phase := .starting } : State).phase ≠ .absent ∧
      ({ absent [] with phase := .starting } : State).phase ≠ .running := by decide

theorem witness_RegistrationResult :
    (running []).registered .sig = true ∧ (running []).registered .led = true ∧
      (absent [1]).registered .sig = false ∧ asBool ((absent [1]).peek 0) = true ∧
      asBool ((absent [0]).peek 0) = false := by decide

/-- The running state has its maps in their one form. -/
theorem running_wf (env : List Nat) : (running env).WF where
  sessions := rfl
  offsets := rfl
  faults := rfl
  bound := by
    intro id k h
    simp only [running, tableGet] at h
    split_ifs at h with h1 h2
    · simp only [running]; omega
    · simp only [running]; omega
  owned := by
    intro id
    simp only [running, tableGet]
    split_ifs <;> simp_all
  tested := by
    intro a ha k hk
    simp only [running, List.mem_singleton] at ha
    subst ha
    exact AgentStatus.noConfusion hk

/-- With agents at call boundaries the running state keeps its one form. -/
theorem wf_of_ready (s : State) (l : List Agent) (h : s.WF) (hl : ∀ a ∈ l, a.status = .ready) :
    ({ s with agents := l } : State).WF :=
  ⟨h.sessions, h.offsets, h.faults, h.bound, h.owned, fun a ha k hk => by
    rw [hl a ha] at hk
    exact AgentStatus.noConfusion hk⟩

/-- The running state with its one caller at a call keeps its one form. -/
theorem atCall_wf (c : CallRecord) : (atCall c).WF :=
  wf_of_ready _ _ (running_wf []) fun a ha => by
    simp only [List.mem_singleton] at ha
    subst ha
    rfl

/-- A caller's running state is orderly, whatever the caller's next call is. -/
theorem atCall_orderly (c : CallRecord) : (atCall c).Orderly where
  valid := (by decide : cfg.valid = true)
  agents := by
    intro a ha
    simp only [atCall, List.mem_singleton] at ha
    subst ha
    exact ⟨AgentKind.noConfusion, fun _ h => AgentStatus.noConfusion h, fun _ _ _ _ h => AgentStatus.noConfusion h⟩
  phase := by
    refine ⟨⟨⟨rfl, rfl, rfl⟩, ?_⟩, ?_⟩
    · show (fields 0 0x00200000 0 0).field 22 = modeInput ∧
        (fields 0 0x00200000 0 0).field 27 = modeInput ∧
        (fields 0 0x00200000 0 0).field 17 = modeOutput
      decide
    · intro a ha
      simp only [atCall, List.mem_singleton] at ha
      subst ha
      exact ⟨fun _ h => AgentStatus.noConfusion h, fun _ h => AgentStatus.noConfusion h⟩

/-- A step of the running state with a call to make answers a next state. -/
theorem atCall_steps : ∃ t, step (atCall (encode .ledOpen)) = .next t := ⟨_, rfl⟩

theorem witness_StepKeepsTables :
    (atCall (encode .ledOpen)).WF ∧ ∃ t, step (atCall (encode .ledOpen)) = .next t :=
  ⟨atCall_wf _, atCall_steps⟩

theorem witness_RecordsOnlyGrow :
    (∃ t, step { atCall (encode .ledOpen) with refusalMark := true } = .next t) ∧
      ∃ t, step (atCall (encode .ledOpen)) = .next t := ⟨⟨_, rfl⟩, atCall_steps⟩

theorem witness_StepKeepsOrder :
    (atCall (encode .ledOpen)).Orderly ∧ ∃ t, step (atCall (encode .ledOpen)) = .next t :=
  ⟨atCall_orderly _, atCall_steps⟩

theorem witness_RunningRaisesNoFault :
    (atCall (encode .ledOpen)).Orderly ∧ (atCall (encode .ledOpen)).phase = .running ∧
      ∃ t, step (atCall (encode .ledOpen)) = .next t := ⟨atCall_orderly _, rfl, atCall_steps⟩

/-- A call, and a set_function in progress. -/
theorem witness_FieldsOnlyWrittenBy :
    (∃ t, exec (.writeWord 0x00 1) (running []) = .next t ∧ t.fsel ≠ (running []).fsel) ∧
      ∃ t, step (inCall [] (.setFunction (.writeBack 22 1 0))) = .next t ∧
        t.fsel ≠ (inCall [] (.setFunction (.writeBack 22 1 0))).fsel :=
  ⟨⟨_, rfl, by decide⟩, _, rfl, by decide⟩

/-- A call, and the drive of an led.write in progress. -/
theorem witness_LatchOnlyWrittenBy :
    (∃ t, exec (.setHigh 17) (running []) = .next t ∧ t.outlatch ≠ (running []).outlatch) ∧
      (inCall [] (.ledWrite (.drive 1 1))).WF ∧
      ∃ t, step (inCall [] (.ledWrite (.drive 1 1))) = .next t ∧
        t.outlatch ≠ (inCall [] (.ledWrite (.drive 1 1))).outlatch :=
  ⟨⟨_, rfl, by decide⟩,
    ⟨(running_wf []).sessions, (running_wf []).offsets, (running_wf []).faults,
      (running_wf []).bound, (running_wf []).owned, by
        intro a ha k hk
        simp only [inCall, List.mem_singleton] at ha
        subst ha
        injection hk with hk
        subst hk
        trivial⟩,
    _, rfl, by decide⟩

/-- Each clause: the phase, the mapping, a registration flag, the selection, the sessions, the
offsets; and a step that goes on with a sig.read. -/
theorem witness_InstanceStateOnlyWrittenBy :
    (∃ t, exec .teardown (running []) = .next t ∧ t.phase ≠ (running []).phase ∧
      t.mapping ≠ (running []).mapping ∧ t.sigReg ≠ (running []).sigReg) ∧
    (∃ t, exec (.select 0x32) (running []) = .next t ∧ t.sel ≠ (running []).sel) ∧
    (∃ t, exec (.sigClose 3) (running []) = .next t ∧ t.sessions ≠ (running []).sessions) ∧
    (∃ t, exec (.sigRead 3 2) (running [0, 1]) = .next t ∧ t.offsets ≠ (running [0, 1]).offsets) ∧
    ∃ t, step (inCall [1] (.sigRead (.copyOut 3 [0x30]))) = .next t ∧
      t.offsets ≠ (inCall [1] (.sigRead (.copyOut 3 [0x30]))).offsets :=
  ⟨⟨_, rfl, by decide, by decide, by decide⟩, ⟨_, rfl, by decide⟩, ⟨_, rfl, by decide⟩,
    ⟨_, rfl, by decide⟩, _, rfl, by decide⟩

/-- The two paths and another; sessions of each endpoint and none, named by identifier and by call;
a caller whose request is refused. -/
theorem witness_HostDispatch :
    ("sig" = cfg.sigPath ∧ "led" = cfg.ledPath ∧ "led" ≠ cfg.sigPath ∧ "x" ≠ cfg.sigPath ∧
      "x" ≠ cfg.ledPath) ∧
    (tableGet ([(3, .sig), (4, .led)] : List (Nat × Endpoint)) 3 = some .sig ∧
      tableGet ([(3, .sig), (4, .led)] : List (Nat × Endpoint)) 4 = some .led ∧
      tableGet ([(3, .sig), (4, .led)] : List (Nat × Endpoint)) 5 = none ∧
      ([.session 3] : List Result)[0]? = some (.session 3) ∧
      ([.ok] : List Result)[0]? ≠ some (.session 3)) ∧
    (⟨.caller, .requests [.read (.id 5) 1], [], .ready⟩ : Agent).fetch cfg [(3, .sig)] = .noSession ∧
    (⟨.caller, .requests [.openPath "x"], [], .ready⟩ : Agent).fetch cfg [] = .foreignPath := by decide

/-- CL3, CL4, CL5 and CL1: arguments that are neither, and an exit with 0. -/
theorem witness_ClientExitsWithSuccess :
    ((([[0x6F, 0x6E], [0x6F, 0x66, 0x66]] : List (List Byte)) ≠ [[0x6F, 0x6E]] ∧
      ([] : List (List Byte)) ≠ [[0x6F, 0x66, 0x66]])) ∧
    clientExitStatus [[0x6F, 0x6E]] [.session 9, .count 1 [], .ok] = some 0 := by decide

/-! ### Whole steps -/

/-- 70_reset_and_hazards.md R350: the first step from reset is the lifecycle agent's startup. -/
theorem test_reset_startup : State.reset.stepOp = some .startup := rfl

/-- 10_state.md R53: a read that ends after another has moved the offset on adds its count. -/
theorem test_overlapping_reads :
    look (step { inCall [1] (.sigRead (.copyOut 3 [0x30, 0x0A])) with offsets := [(3, 2)] })
      (fun t => (last t, t.offset 3)) = some (some (.count 2 [0x30, 0x0A]), 4) := by decide

/-- A caller's first step from reset runs the call of a table word (0xC0, `led.open`), and a
lifecycle agent's that of 0xE0 (`startup`). -/
theorem test_first_step :
    (∃ t, step (State.reset.withFetchWord 8 0xC0) = .next t) ∧
      ∃ t, step (State.reset.withFetchWord 8 0xE0) = .next t := ⟨⟨_, rfl⟩, _, rfl⟩

/-- 30_encoding.md R94: a caller that issues 0x81 is refused with R_INTERNAL. -/
theorem test_internal : look (step (atCall (encode .current))) status = some (some (.stuck .internal)) := by
  decide

/-- P5, 20_memory.md R70: a signal read interrupted after its current step keeps pin 22. -/
theorem test_interrupted :
    look (exec (.sigRead 3 16) (shared [] [1])) (fun t => (status t, accesses t)) =
      some (some (.inCall (.sigRead (.sample 3 16 0 22))), []) := by decide

/-- 20_memory.md R70: with another caller enabled a led.write waits between its transfer and its drive,
or drives where the scheduler does not turn away. -/
theorem test_ledWrite_shared :
    look (exec (.ledWrite 4 [0x31]) (shared [1] [1])) (fun t => (status t, t.outlatch)) =
        some (some (.inCall (.ledWrite (.drive 1 1))), 0) ∧
      look (exec (.ledWrite 4 [0x31]) (shared [1] [0])) (fun t => (status t, t.outlatch)) =
        some (some .ready, 0x00020000) := by decide

/-- P6: a sig.read that meets a teardown between its steps faults, as its sample finds no mapping. -/
theorem test_unmapped_sample :
    look (step { inCall [] (.sigRead (.sample 3 16 0 22)) with mapping := none })
      (fun t => (status t, t.faults)) =
      some (some (.stopped .unmapped 0x34), [(.unmapped, 0x34)]) := by decide

/-- 20_memory.md R70: either of two enabled agents is chosen for some choice. -/
theorem test_reschedule :
    [(sharedInCall [] [0] (.ledWrite (.drive 1 1))).reschedule.current,
      (sharedInCall [] [1] (.ledWrite (.drive 1 1))).reschedule.current] = [0, 1] := by decide

/-- 92_eei_decisions.md D30: a teardown with a caller active can wait in phase Stopping. -/
theorem test_teardown_shared :
    look (exec .teardown (shared [] [1])) (fun t => (status t, t.phase, t.mapping)) =
      some (some (.inCall (.teardown .driveLow)), .stopping, some 1) := by decide

end Sys2Proof.Tests
end

section
/-!
Register writes through the call write_word (40_register_block.md R133), and what the two latch
registers make of the written word (10_state.md R45, R46).
-/

namespace Sys2Proof.Machine

/-- While mapped, a write of a writable register is one MemWrite (40_register_block.md R133). -/
theorem writeWord_ok (s : State) (off : Nat) (v : Word) (hm : s.mapping ≠ none)
    (ho : writableOffsets.contains off = true) :
    writeWord off v s = .ok () (s.afterWrite off v) := by
  rw [writeWord_eq, if_neg hm, if_pos ho]

/-- While mapped, the call write_word of a writable register returns ok after its one MemWrite
(40_register_block.md R133). -/
theorem exec_writeWord_ok (s : State) (off : Nat) (v : Word) (hm : s.mapping ≠ none)
    (ho : writableOffsets.contains off = true) :
    exec (.writeWord off v) s = .next ((s.afterWrite off v).ret .ok) := by
  change execWriteWord off v s = _
  rw [execWriteWord, writeWord_ok s off v hm ho]
  rfl

/-- A MemWrite of SET ors the word into the output latch (10_state.md R45). -/
theorem afterWrite_set (s : State) (v : Word) :
    s.afterWrite 0x1C v = ({ s with outlatch := s.outlatch ||| v } : State).log .write 0x1C v := rfl

/-- A MemWrite of CLR takes the word's bits out of the output latch (10_state.md R46). -/
theorem afterWrite_clr (s : State) (v : Word) :
    s.afterWrite 0x28 v =
      ({ s with outlatch := s.outlatch &&& ~~~ v } : State).log .write 0x28 v := rfl

/-- The latch bits after a write of SET: those written 1 are set (10_state.md R45). -/
theorem getLsbD_latch_or (l v : Word) (p : Nat) :
    (l ||| v).getLsbD p = if v.getLsbD p = true then true else l.getLsbD p := by
  rw [BitVec.getLsbD_or]
  cases v.getLsbD p <;> simp

/-- The latch bits after a write of CLR: those written 1 are cleared (10_state.md R46). -/
theorem getLsbD_latch_andNot (l v : Word) (p : Nat) (hp : p < 32) :
    (l &&& ~~~ v).getLsbD p = if v.getLsbD p = true then false else l.getLsbD p := by
  rw [BitVec.getLsbD_and, BitVec.getLsbD_not]
  cases v.getLsbD p <;> simp [hp]

/-- Settles O19: each of the two writes is one MemWrite, and the latch it leaves is read bit by
bit. -/
theorem writeSetClearResult : Obligations.WriteSetClearResult := by
  intro s v hm
  constructor
  case left =>
    refine ⟨s.outlatch ||| v, ?_, fun p _ => getLsbD_latch_or s.outlatch v p⟩
    rw [exec_writeWord_ok s 0x1C v hm (by decide), afterWrite_set]
  case right =>
    refine ⟨s.outlatch &&& ~~~ v, ?_, fun p hp => getLsbD_latch_andNot s.outlatch v p hp⟩
    rw [exec_writeWord_ok s 0x28 v hm (by decide), afterWrite_clr]

end Sys2Proof.Machine
end

section
/-!
The end of a mapping through the call unmap (40_register_block.md R131), and the accesses made
without one (40_register_block.md R132, R133).
-/

namespace Sys2Proof.Machine

/-- What the atomic step of `unmap` can do (40_register_block.md R131). -/
theorem unmapWindow_eq (s : State) :
    unmapWindow s =
      if s.mapping = none then .refuse .mapping else .ok () { s with mapping := none } := by
  unfold unmapWindow
  cases s.mapping <;> simp

/-- While mapped, the call unmap ends the mapping and returns ok (40_register_block.md R131). -/
theorem exec_unmap_ok (s : State) (hm : s.mapping ≠ none) :
    exec .unmap s = .next ({ s with mapping := none }.ret .ok) := by
  change execUnmap s = _
  rw [execUnmap, unmapWindow_eq, if_neg hm]
  rfl

/-- Without a mapping, the call unmap is refused (40_register_block.md R131). -/
theorem exec_unmap_refused (s : State) (hm : s.mapping = none) :
    exec .unmap s = .next (s.refuse .mapping) := by
  change execUnmap s = _
  rw [execUnmap, unmapWindow_eq, if_pos hm]
  rfl

/-- Without a mapping, the call read_word raises F_UNMAPPED at any offset
(40_register_block.md R132). -/
theorem exec_readWord_unmapped (s : State) (off : Nat) (hm : s.mapping = none) :
    exec (.readWord off) s = .next (s.raise .unmapped off) := by
  change execReadWord off s = _
  rw [execReadWord, readWord_eq, if_pos hm]
  rfl

/-- Without a mapping, the call write_word raises F_UNMAPPED at any offset
(40_register_block.md R133). -/
theorem exec_writeWord_unmapped (s : State) (off : Nat) (v : Word) (hm : s.mapping = none) :
    exec (.writeWord off v) s = .next (s.raise .unmapped off) := by
  change execWriteWord off v s = _
  rw [execWriteWord, writeWord_eq, if_pos hm]
  rfl

/-- Settles O14: the state a successful unmap leaves has no mapping, since the return of the call
keeps that field, and without a mapping every access raises F_UNMAPPED. -/
theorem unmapResult : Obligations.UnmapResult := by
  refine ⟨rfl, fun s => ⟨fun hm => ⟨exec_unmap_ok s hm, fun t ht off v => ?_⟩,
    exec_unmap_refused s⟩⟩
  have ht' : ({ s with mapping := none } : State).ret .ok = t :=
    Host.Outcome.next.inj ((exec_unmap_ok s hm).symm.trans ht)
  have hnone : t.mapping = none := by rw [← ht', ret_mapping]
  exact ⟨exec_readWord_unmapped t off hnone, exec_writeWord_unmapped t off v hnone⟩

end Sys2Proof.Machine
end

section
/-!
The calls select and current of the channel selector (42_channel_selector.md R180, R181), over what a
selector byte names (30_encoding.md R100) and the pin of a channel (10_state.md R50).
-/

namespace Sys2Proof.Machine

/-- The OPC of select, whatever its byte (30_encoding.md R92, row 0x80). -/
theorem encode_select_opc (b : Byte) : (encode (.select b)).opc = 0x80 := by
  change Op.select.code = 0x80
  decide

/-- The OPC of current (30_encoding.md R92, row 0x81). -/
theorem encode_current_opc : (encode .current).opc = 0x81 := by
  change Op.current.code = 0x81
  decide

/-- A byte other than 0x31 and 0x32 names no channel (30_encoding.md R100). -/
theorem selectorChannel_eq_none {b : Byte} (h1 : b ≠ 0x31) (h2 : b ≠ 0x32) :
    selectorChannel b = none := by
  rw [selectorChannel, if_neg h1, if_neg h2]

/-- A select of a byte that names a channel moves the selection there, whatever it was, and returns
that channel's pin (42_channel_selector.md R180). -/
theorem exec_select_of_channel {b : Byte} {c : Channel} (s : State)
    (h : selectorChannel b = some c) :
    exec (.select b) s = .next ({ s with sel := c }.ret (.pin (currentPin s.cfg c))) := by
  change execSelect b s = _
  rw [execSelect, selectChannel, h]
  rfl

/-- A select of a byte that names no channel is InvalidSelector, and the selection stays
(42_channel_selector.md R180). -/
theorem exec_select_of_no_channel {b : Byte} (s : State) (h : selectorChannel b = none) :
    exec (.select b) s = .next (s.ret (.error .invalidSelector)) := by
  change execSelect b s = _
  rw [execSelect, selectChannel, h]
  rfl

/-- The call current returns the pin of the channel selected (42_channel_selector.md R181). -/
theorem exec_current_of_sel {s : State} {c : Channel} (h : s.sel = c) :
    exec .current s = .next (s.ret (.pin (currentPin s.cfg c))) := by
  subst h
  rfl

/-- Settles O31: 0x31 and 0x32 name the two channels and every other byte names none, so each clause
is a case of what select does with the channel named; current is read at the channel selected. -/
theorem selectAndCurrentResult : Obligations.SelectAndCurrentResult := by
  intro s b
  refine ⟨encode_select_opc b, encode_current_opc, fun h => ?ch1, fun h => ?ch2,
    fun h1 h2 => ?other, exec_current_of_sel, exec_current_of_sel⟩
  case ch1 =>
    subst h
    exact exec_select_of_channel s rfl
  case ch2 =>
    subst h
    exact exec_select_of_channel s rfl
  case other => exact exec_select_of_no_channel s (selectorChannel_eq_none h1 h2)

end Sys2Proof.Machine
end

section
/-!
The calls sig.close and led.close (43_signal_endpoint.md R198, 44_led_endpoint.md R227), and what the
removal of a key leaves of a table (10_state.md R52, R53).
-/

namespace Sys2Proof.Machine

/-- The OPC of sig.close, whatever its session (30_encoding.md R92, row 0xA3). -/
theorem encode_sigClose_opc (id : Nat) : (encode (.sigClose id)).opc = 0xA3 := by
  change Op.sigClose.code = 0xA3
  decide

/-- The OPC of led.close, whatever its session (30_encoding.md R92, row 0xC3). -/
theorem encode_ledClose_opc (id : Nat) : (encode (.ledClose id)).opc = 0xC3 := by
  change Op.ledClose.code = 0xC3
  decide

/-- A session that does not exist or is the other endpoint's fails the session check. -/
theorem hasSession_of_get_ne {s : State} {id : Nat} {k : Endpoint}
    (h : tableGet s.sessions id ≠ some k) : s.hasSession id k = false :=
  decide_eq_false h

/-- The atomic step of sig.close, by its session check (43_signal_endpoint.md R198). -/
theorem sigClose_eq (id : Nat) (s : State) :
    sigClose id s =
      if s.hasSession id .sig = true then
        .ok () { s with sessions := tableErase s.sessions id
                        offsets := tableErase s.offsets id }
      else .refuse .session := by
  unfold sigClose
  cases s.hasSession id .sig <;> rfl

/-- The atomic step of led.close, by its session check (44_led_endpoint.md R227). -/
theorem ledClose_eq (id : Nat) (s : State) :
    ledClose id s =
      if s.hasSession id .led = true then .ok () { s with sessions := tableErase s.sessions id }
      else .refuse .session := by
  unfold ledClose
  cases s.hasSession id .led <;> rfl

/-- The close of a signal session removes it and the host's offset and returns ok
(43_signal_endpoint.md R198). -/
theorem exec_sigClose_ok {s : State} {id : Nat} (h : tableGet s.sessions id = some .sig) :
    exec (.sigClose id) s =
      .next ({ s with sessions := tableErase s.sessions id
                      offsets := tableErase s.offsets id }.ret .ok) := by
  change execSigClose id s = _
  rw [execSigClose, sigClose_eq, if_pos (hasSession_of_get h)]
  rfl

/-- The call sig.close is refused where its operand names no signal session
(43_signal_endpoint.md R198). -/
theorem exec_sigClose_refused {s : State} {id : Nat} (h : tableGet s.sessions id ≠ some .sig) :
    exec (.sigClose id) s = .next (s.refuse .session) := by
  change execSigClose id s = _
  rw [execSigClose, sigClose_eq, hasSession_of_get_ne h]
  rfl

/-- The close of an LED session removes it and returns ok (44_led_endpoint.md R227). -/
theorem exec_ledClose_ok {s : State} {id : Nat} (h : tableGet s.sessions id = some .led) :
    exec (.ledClose id) s = .next ({ s with sessions := tableErase s.sessions id }.ret .ok) := by
  change execLedClose id s = _
  rw [execLedClose, ledClose_eq, if_pos (hasSession_of_get h)]
  rfl

/-- The call led.close is refused where its operand names no LED session
(44_led_endpoint.md R227). -/
theorem exec_ledClose_refused {s : State} {id : Nat} (h : tableGet s.sessions id ≠ some .led) :
    exec (.ledClose id) s = .next (s.refuse .session) := by
  change execLedClose id s = _
  rw [execLedClose, ledClose_eq, hasSession_of_get_ne h]
  rfl

/-- An erase of a table in its one form takes the key out and leaves every other entry. -/
theorem tableGet_erase_of_wf {α : Type} {l : List (Nat × α)} (k : Nat) (h : tableWf l = true) :
    tableGet (tableErase l k) k = none ∧
      ∀ j, j ≠ k → tableGet (tableErase l k) j = tableGet l j :=
  ⟨tableGet_erase_same l 0 k h, tableGet_erase_other l k⟩

/-- Settles O36: each close goes by the session check of its endpoint, and an erase takes one key out
of a table and no other. -/
theorem closeResult : Obligations.CloseResult := fun _ id =>
  ⟨encode_sigClose_opc id, encode_ledClose_opc id, exec_sigClose_ok, exec_ledClose_ok,
    exec_sigClose_refused, exec_ledClose_refused, tableGet_erase_of_wf id, tableGet_erase_of_wf id⟩

end Sys2Proof.Machine
end

section
/-!
Call records: the decoder and the encoder invert each other, and the codes of the rows
(30_encoding.md R91, R92, R93, R96).
-/

namespace Sys2Proof.Machine

open Sys2Proof.Laws

/-- A row builds a call from that call's own operands. -/
theorem build_operands (i : Instr) : i.op.build i.operands = some i := by
  cases i <;> rfl

/-- A call's own operands name every session by its identifier. -/
theorem operands_bound (i : Instr) : i.operands.any Operand.isUnbound = false := by
  cases i <;> rfl

/-- The record of a call decodes to that call (30_encoding.md R91). -/
@[simp] theorem decode_encode (i : Instr) : decode (encode i) = .ok i := by
  simp [decode, encode, ofCode_code, operands_bound, build_operands]

/-- A record that decodes to a call is that call's record (30_encoding.md R91). -/
theorem eq_encode_of_decode {c : CallRecord} {i : Instr} (h : decode c = .ok i) : c = encode i := by
  unfold decode at h
  split at h
  case h_1 => cases h
  case h_2 o ho =>
    split at h
    · cases h
    · split at h
      case h_1 j hj =>
        cases h
        obtain ⟨hop, hargs⟩ := of_build hj
        have hopc := eq_code_of_ofCode ho
        cases c
        simp_all [encode]
      case h_2 => cases h

/-- Settles O2: of the decoder's two lookups the first gives back the code's own row and the second
the row's call with its own operands. -/
theorem decodeExactlyInvertsEncode : Obligations.DecodeExactlyInvertsEncode := by
  intro c i
  constructor
  · exact eq_encode_of_decode
  · rintro rfl
    exact decode_encode i

/-- A record with a reserved code decodes to nothing (30_encoding.md R96). -/
theorem decode_reserved {opc : BitVec 8} (ops : List Operand)
    (h : ∀ i : Instr, (encode i).opc ≠ opc) : decode ⟨opc, ops⟩ = .error .opcode := by
  simp [decode, ofCode_reserved opc h]

/-- Settles O1: each of the words, decoded. -/
theorem tableWordsDecode : Obligations.TableWordsDecode := by
  refine ⟨?registerBlock, ?pins, ?selector, ?signal, ?led, ?lifecycle, ?reserved⟩ <;> decide

/-- The high three bits of a row's code are its unit (30_encoding.md R93). -/
theorem code_unit (o : Op) : o.code.extractLsb' 5 3 = o.unit.code := by
  cases o <;> decide

/-- The low five bits of a row's code are its operation (30_encoding.md R93). -/
theorem code_index (o : Op) : o.code.extractLsb' 0 5 = o.index := by
  cases o <;> decide

/-- Settles O4: a record's OPC is the code of its call's row, whatever the operands, so each clause is
about a row. -/
theorem codeNamesUnitAndOperation : Obligations.CodeNamesUnitAndOperation := by
  refine ⟨fun i => code_unit i.op, ?units, fun id n d => ?indices, fun a n v m b d k => ?codes⟩
  case units => decide
  case indices =>
    exact ⟨code_index .sigOpen, code_index .ledOpen, code_index .sigRead, code_index .ledRead,
      code_index .sigWrite, code_index .ledWrite, code_index .sigClose, code_index .ledClose⟩
  case codes =>
    refine ⟨⟨?_, ?_, ?_, ?_⟩, ⟨?_, ?_, ?_, ?_⟩, ⟨?_, ?_⟩, ⟨?_, ?_, ?_, ?_⟩, ⟨?_, ?_, ?_, ?_⟩,
      ?_, ?_, ?_, ?_⟩ <;> (simp only [encode, Instr.op]; decide)

end Sys2Proof.Machine
end

section
/-!
What an operation can do to the state, one effect for each change the rules name, and the proof that a
call, issued or gone on with, does nothing else: a property each effect of its operation keeps is kept
by the whole call, and so by every step (10_state.md, 20_memory.md R70).
-/

namespace Sys2Proof.Machine

/-- A task a call of the model can come to wait at: its pin was tested, and the pin a sig.read samples
is a configured input (41_pin_control.md R150, 43_signal_endpoint.md R196). -/
def Task.Formed (c : Config) (k : Task) : Prop :=
  k.pinTested c ∧ ∀ id n off p, k = .sigRead (.sample id n off p) → p = c.inputPin1 ∨ p = c.inputPin2

/-- One change an operation can make to the state. A write of a function-select word goes to no other
register only where its pin was tested, which `tested` stands for (41_pin_control.md R150). -/
inductive Effect (tested : Prop) (o : Op) : State → State → Prop
  | ret (s : State) (r : Result) : Effect tested o s (s.ret r)
  | park (s : State) (k : Task) : k.op = o → k.Formed s.cfg → Effect tested o s (s.park k)
  | raise (s : State) (f : FaultCode) (n : Nat) : Effect tested o s (s.raise f n)
  | refuse (s : State) (r : RefusalReason) : Effect tested o s (s.refuse r)
  | schedSkip (s : State) : Effect tested o s s.schedSkip
  | skip (s : State) (n : Nat) : Effect tested o s (s.skip n)
  | read (s : State) (off : Nat) : Effect tested o s (s.afterRead off)
  | writeFsel (s : State) (off : Nat) (w : Word) :
      o = .writeWord ∨ o = .setFunction ∨ o = .startup → (tested → off ≠ 0x1C ∧ off ≠ 0x28) →
      Effect tested o s (s.afterWrite off w)
  | writeLatch (s : State) (off : Nat) (w : Word) :
      o = .writeWord ∨ o = .setHigh ∨ o = .setLow ∨ o = .ledWrite ∨ o = .teardown →
      off = 0x1C ∨ off = 0x28 → Effect tested o s (s.afterWrite off w)
  | map (s : State) (x : Nat) : o = .map ∨ o = .startup → s.fresh ≤ x →
      Effect tested o s { s with mapping := some x, fresh := x + 1 }
  | unmap (s : State) : o = .unmap ∨ o = .startup ∨ o = .teardown →
      Effect tested o s { s with mapping := none }
  | register (s : State) (k : Endpoint) (b : Bool) :
      o = .registerEndpoint ∨ o = .deregisterEndpoint ∨ o = .startup ∨ o = .teardown →
      Effect tested o s (s.setRegistered k b)
  | select (s : State) (c : Channel) : o = .select ∨ o = .sigWrite ∨ o = .startup →
      Effect tested o s { s with sel := c }
  | phase (s : State) (p : Phase) : o = .startup ∨ o = .teardown →
      Effect tested o s { s with phase := p }
  | openSig (s : State) (x : Nat) : o = .sigOpen → s.fresh ≤ x →
      Effect tested o s { s with
        fresh := x + 1, sessions := tableSet s.sessions x .sig, offsets := tableSet s.offsets x 0 }
  | openLed (s : State) (x : Nat) : o = .ledOpen → s.fresh ≤ x →
      Effect tested o s { s with fresh := x + 1, sessions := tableSet s.sessions x .led }
  | closeSig (s : State) (id : Nat) : o = .sigClose →
      Effect tested o s { s with
        sessions := tableErase s.sessions id, offsets := tableErase s.offsets id }
  | closeLed (s : State) (id : Nat) : o = .ledClose → tableGet s.sessions id = some .led →
      Effect tested o s { s with sessions := tableErase s.sessions id }
  | advance (s : State) (id n : Nat) : o = .sigRead → Effect tested o s (s.advanceOffset id n)

/-- Every effect of the operation keeps the property. -/
def Closed (P : State → Prop) (tested : Prop) (o : Op) : Prop :=
  ∀ s t, Effect tested o s t → P s → P t

variable {P : State → Prop} {T : Prop} {o : Op}

/-! ### Closed properties along one atomic step -/

namespace Closed

theorem skip (hc : Closed P T o) {s : State} (n : Nat) (h : P s) : P (s.skip n) :=
  hc _ _ (.skip s n) h

theorem read (hc : Closed P T o) {s : State} (off : Nat) (h : P s) : P (s.afterRead off) :=
  hc _ _ (.read s off) h

/-- A write of a tested pin's function-select word. -/
theorem writePin (hc : Closed P T o) {s : State} {p : Nat} (w : Word)
    (ho : o = .writeWord ∨ o = .setFunction ∨ o = .startup) (hp : T → p < numPins) (h : P s) :
    P (s.afterWrite (fselOffset p) w) := by
  refine hc _ _ (.writeFsel s _ w ho fun ht => ?_) h
  have hp' := hp ht
  unfold numPins at hp'
  unfold fselOffset fselIndex
  omega

theorem mapWindow (hc : Closed P T o) {s : State} (base size : Nat) (ho : o = .map ∨ o = .startup)
    (h : P s) : (mapWindow base size s).Keeps P :=
  mapWindow_keeps base size s (hc.skip 1 h) fun x hx => hc _ _ (.map (s.skip 2) x ho hx) (hc.skip 2 h)

theorem unmapWindow (hc : Closed P T o) {s : State} (ho : o = .unmap ∨ o = .startup ∨ o = .teardown)
    (h : P s) : (unmapWindow s).Keeps P :=
  unmapWindow_keeps s (hc _ _ (.unmap s ho) h)

theorem registerEndpoint (hc : Closed P T o) {s : State} (k : Endpoint)
    (ho : o = .registerEndpoint ∨ o = .deregisterEndpoint ∨ o = .startup ∨ o = .teardown)
    (h : P s) : (registerEndpoint k s).Keeps P :=
  registerEndpoint_keeps k s (hc.skip 1 h) (hc _ _ (.register _ k true ho) (hc.skip 1 h))

theorem deregisterEndpoint (hc : Closed P T o) {s : State} (k : Endpoint)
    (ho : o = .registerEndpoint ∨ o = .deregisterEndpoint ∨ o = .startup ∨ o = .teardown)
    (h : P s) : (deregisterEndpoint k s).Keeps P :=
  deregisterEndpoint_keeps k s (hc _ _ (.register s k false ho) h)

theorem selectChannel (hc : Closed P T o) {s : State} (b : Byte)
    (ho : o = .select ∨ o = .sigWrite ∨ o = .startup) (h : P s) : (selectChannel b s).Keeps P :=
  selectChannel_keeps b s h fun c => hc _ _ (.select s c ho) h

theorem drivePin (hc : Closed P T o) {s : State} (off p : Nat)
    (ho : o = .writeWord ∨ o = .setHigh ∨ o = .setLow ∨ o = .ledWrite ∨ o = .teardown)
    (hoff : off = 0x1C ∨ off = 0x28) (h : P s) : (drivePin off p s).Keeps P :=
  drivePin_keeps off p s (hc _ _ (.writeLatch s off _ ho hoff) h)

/-- The write of any writable register by write_word (40_register_block.md R133). -/
theorem writeWord (hc : Closed P T .writeWord) {s : State} (off : Nat) (v : Word) (h : P s) :
    (writeWord off v s).Keeps P := by
  refine writeWord_keeps off v s fun _ => ?_
  by_cases hoff : off = 0x1C ∨ off = 0x28
  · exact hc _ _ (.writeLatch s off v (.inl rfl) hoff) h
  · exact hc _ _ (.writeFsel s off v (.inl rfl) fun _ => not_or.mp hoff) h

theorem sigOpen (hc : Closed P T .sigOpen) {s : State} (h : P s) : (sigOpen s).Keeps P := by
  refine sigOpen_keeps s (hc.skip 1 h) ?_
  have := hc _ _ (.openSig (s.skip 2) (s.skip 1).freshId rfl (Nat.le_add_right _ _)) (hc.skip 2 h)
  simpa [State.addSession, State.takeFresh] using this

theorem ledOpen (hc : Closed P T .ledOpen) {s : State} (h : P s) : (ledOpen s).Keeps P := by
  refine openSession_keeps .led s (hc.skip 1 h) ?_
  have := hc _ _ (.openLed (s.skip 2) (s.skip 1).freshId rfl (Nat.le_add_right _ _)) (hc.skip 2 h)
  simpa [State.addSession, State.takeFresh] using this

theorem sigClose (hc : Closed P T .sigClose) {s : State} (id : Nat) (h : P s) :
    (sigClose id s).Keeps P := by
  rw [sigClose_eq]
  split
  · exact hc _ _ (.closeSig s id rfl) h
  · trivial

theorem ledClose (hc : Closed P T .ledClose) {s : State} (id : Nat) (h : P s) :
    (ledClose id s).Keeps P := by
  rw [ledClose_eq]
  split
  case isTrue hs => exact hc _ _ (.closeLed s id rfl (of_decide_eq_true hs)) h
  case isFalse => trivial

theorem ledRead {s : State} (id : Nat) (h : P s) : (ledRead id s).Keeps P := by
  unfold Machine.ledRead
  split
  · trivial
  · exact h

/-- Each atomic step of a startup (46_lifecycle.md R270). -/
theorem startupAdvance (hc : Closed P T .startup) {s : State} (t : StartupTask)
    (ht : T → (Task.startup t).pinTested s.cfg) (h : P s) : (startupAdvance t s).Keeps P := by
  have register : ∀ k, (Machine.registerEndpoint k s).Keeps P := fun k =>
    hc.registerEndpoint k (.inr (.inr (.inl rfl))) h
  cases t with
  | map => exact (keeps_orRollback ..).mpr (hc.mapWindow _ _ (.inr rfl) h)
  | readFsel c => exact (Reply.keeps_map ..).mpr (setFunctionRead_keeps _ _ _ (hc.read _ h))
  | writeFsel c w =>
    exact (Reply.keeps_map ..).mpr
      (setFunctionWrite_keeps _ _ _ _ (hc.writePin _ (.inr (.inr rfl)) ht h))
  | selectFirst => exact hc _ _ (.select s .ch1 (.inr (.inr rfl))) h
  | registerSig => exact (keeps_orRollback ..).mpr (register .sig)
  | registerLed => exact (keeps_orRollback ..).mpr (register .led)
  | enterRunning => exact hc _ _ (.phase s .running (.inl rfl)) h
  | rollbackSig =>
    exact (Reply.keeps_map ..).mpr (hc.deregisterEndpoint .sig (.inr (.inr (.inl rfl))) h)
  | rollbackMap => exact (Reply.keeps_map ..).mpr (hc.unmapWindow (.inr (.inl rfl)) h)
  | enterAbsent e => exact hc _ _ (.phase s .absent (.inl rfl)) h

/-- Each atomic step of a teardown (46_lifecycle.md R271). -/
theorem teardownAdvance (hc : Closed P T .teardown) {s : State} (t : TeardownTask) (h : P s) :
    (teardownAdvance t s).Keeps P := by
  have deregister : ∀ k, (Machine.deregisterEndpoint k s).Keeps P := fun k =>
    hc.deregisterEndpoint k (.inr (.inr (.inr rfl))) h
  cases t with
  | driveLow =>
    exact (Reply.keeps_map ..).mpr
      (hc.drivePin 0x28 _ (.inr (.inr (.inr (.inr rfl)))) (.inr rfl) h)
  | unmap => exact (Reply.keeps_map ..).mpr (hc.unmapWindow (.inr (.inr rfl)) h)
  | deregisterSig => exact (Reply.keeps_map ..).mpr (deregister .sig)
  | deregisterLed => exact (Reply.keeps_map ..).mpr (deregister .led)
  | enterAbsent => exact hc _ _ (.phase s .absent (.inr rfl)) h

theorem setFunctionAdvance (hc : Closed P T .setFunction) {s : State} (t : SetFunctionTask)
    (ht : T → (Task.setFunction t).pinTested s.cfg) (h : P s) :
    (setFunctionAdvance t s).Keeps P := by
  cases t
  exact (Reply.keeps_map ..).mpr
    (setFunctionWrite_keeps _ _ _ _ (hc.writePin _ (.inr (.inl rfl)) ht h))

theorem sigReadAdvance (hc : Closed P T .sigRead) {s : State} (t : SigReadTask) (h : P s) :
    (sigReadAdvance t s).Keeps P :=
  sigReadAdvance_keeps t s h (fun _ => hc.read _) (fun _ => hc.skip 1)
    fun s id n => hc _ _ (.advance s id n rfl)

theorem sigWriteAdvance (hc : Closed P T .sigWrite) {s : State} (t : SigWriteTask) (h : P s) :
    (sigWriteAdvance t s).Keeps P :=
  sigWriteAdvance_keeps t s h fun c => hc _ _ (.select s c (.inr (.inl rfl))) h

theorem ledWriteAdvance (hc : Closed P T .ledWrite) {s : State} (t : LedWriteTask) (h : P s) :
    (ledWriteAdvance t s).Keeps P :=
  ledWriteAdvance_keeps t s fun off hoff =>
    hc _ _ (.writeLatch s off _ (.inr (.inr (.inr (.inl rfl)))) hoff) h

end Closed

/-! ### The tasks a call can come to wait at -/

/-- Every task the reply goes on with is well formed. -/
def Reply.GoesOnFormed {τ : Type} (toTask : τ → Task) (r : Reply (Progress τ)) : Prop :=
  ∀ u s', r = .ok (.again u) s' → (toTask u).Formed s'.cfg

/-- A task that waits at no write of a tested pin and at no sample is well formed. -/
theorem Task.Formed.of_startup {c : Config} {t : StartupTask}
    (h : (Task.startup t).pinTested c) : (Task.startup t).Formed c :=
  ⟨h, fun _ _ _ _ hk => nomatch hk⟩

/-- The read of set_function answers a word only for a pin in range (41_pin_control.md R150). -/
theorem setFunctionRead_inv {p : Nat} {m : BitVec 3} {s s' : State} {w : Word}
    (h : setFunctionRead p m s = .ok w s') : p < numPins ∧ s' = s.afterRead (fselOffset p) := by
  unfold setFunctionRead at h
  rw [readWord_eq] at h
  split_ifs at h with h1 h2 h3 h4
  cases h
  exact ⟨not_le.mp h2, rfl⟩

theorem setFunctionStart_formed (p : Nat) (m : BitVec 3) (s : State) :
    (setFunctionStart p m s).GoesOnFormed .setFunction := by
  intro u s' h
  obtain ⟨w, hw, hu⟩ := map_again h
  cases hu
  exact ⟨(setFunctionRead_inv hw).1, fun _ _ _ _ hk => nomatch hk⟩

theorem setFunctionAdvance_formed (t : SetFunctionTask) (s : State) :
    (setFunctionAdvance t s).GoesOnFormed .setFunction := by
  intro u s' h
  cases t
  obtain ⟨w, -, hu⟩ := map_again h
  cases hu

theorem startupStart_formed (s : State) : (startupStart s).GoesOnFormed .startup := by
  intro u s' h
  unfold startupStart at h
  split at h
  · cases h
  · cases h
    exact .of_startup trivial

theorem startupAdvance_formed (t : StartupTask) (s : State) :
    (startupAdvance t s).GoesOnFormed .startup := by
  intro u s' h
  apply Task.Formed.of_startup
  cases t with
  | map => rcases orRollback_again h with rfl | rfl <;> trivial
  | readFsel c =>
    obtain ⟨w, hw, hu⟩ := map_again h
    obtain ⟨hp, rfl⟩ := setFunctionRead_inv hw
    cases hu
    exact hp
  | writeFsel c w =>
    obtain ⟨_, -, hu⟩ := map_again h
    cases hu
    cases c <;> trivial
  | selectFirst =>
    cases h
    trivial
  | registerSig => rcases orRollback_again h with rfl | rfl <;> trivial
  | registerLed => rcases orRollback_again h with rfl | rfl <;> trivial
  | enterRunning => cases h
  | rollbackSig =>
    obtain ⟨_, -, hu⟩ := map_again h
    cases hu
    trivial
  | rollbackMap =>
    obtain ⟨_, -, hu⟩ := map_again h
    cases hu
    trivial
  | enterAbsent e => cases h

theorem teardown_formed (t : TeardownTask) (c : Config) : (Task.teardown t).Formed c :=
  ⟨trivial, fun _ _ _ _ hk => nomatch hk⟩

theorem sigWrite_formed (t : SigWriteTask) (c : Config) : (Task.sigWrite t).Formed c :=
  ⟨trivial, fun _ _ _ _ hk => nomatch hk⟩

theorem ledWrite_formed (t : LedWriteTask) (c : Config) : (Task.ledWrite t).Formed c :=
  ⟨trivial, fun _ _ _ _ hk => nomatch hk⟩

/-- The pin of the selected channel is a configured input (10_state.md R50). -/
theorem currentPin_input (c : Config) (ch : Channel) :
    currentPin c ch = c.inputPin1 ∨ currentPin c ch = c.inputPin2 := by
  cases ch
  · exact .inl rfl
  · exact .inr rfl

theorem sigReadStart_formed (id n : Nat) (s : State) : (sigReadStart id n s).GoesOnFormed .sigRead := by
  intro u s' h
  unfold sigReadStart at h
  split at h
  · cases h
  · cases h
    refine ⟨trivial, fun _ _ _ _ hk => ?_⟩
    cases hk
    exact currentPin_input s.cfg s.sel

theorem sigReadAdvance_formed (t : SigReadTask) (s : State) :
    (sigReadAdvance t s).GoesOnFormed .sigRead := by
  intro u s' h
  have hlt := sigReadAdvance_left t s u s' h
  cases u with
  | copyOut id bytes => exact ⟨trivial, fun _ _ _ _ hk => nomatch hk⟩
  | sample id n off p => cases t <;> simp [SigReadTask.left] at hlt

/-! ### Closed properties along a call and a step -/

/-- A closed property the reply of an atomic step keeps is kept where the reply leads. -/
theorem leads_of_closed {τ : Type} (toTask : τ → Task) (hc : Closed P T o) {s : State}
    {r : Reply (Progress τ)} (hs : P s) (hr : r.Keeps P) (hf : r.GoesOnFormed toTask) :
    r.Leads (fun t s => P s ∧ (toTask t).Formed s.cfg) P s := by
  rcases r with ⟨t | r, s'⟩ | ⟨e, s'⟩ | ⟨f, i⟩ | r
  · exact ⟨hr, hf t s' rfl⟩
  · exact hc _ _ (.ret s' r) hr
  · exact hc _ _ (.ret s' _) hr
  · exact hc _ _ (.raise s f i) hs
  · exact hc _ _ (.refuse s r) hs

/-- The run of a call keeps a closed property that every atomic step keeps. -/
theorem runCall_closed {τ : Type} (toTask : τ → Task) (advance : τ → State → Reply (Progress τ))
    (hc : Closed P T o) (hop : ∀ t, (toTask t).op = o)
    (hadv : ∀ t s, (T → (toTask t).pinTested s.cfg) → P s → (advance t s).Keeps P)
    (hnext : ∀ t s, (advance t s).GoesOnFormed toTask) {n : Nat} {s : State}
    {r : Reply (Progress τ)} (hs : P s) (hr : r.Keeps P) (hf : r.GoesOnFormed toTask) :
    P (runCall toTask advance n s r) := by
  refine runCall_leads (Inv := fun t s => P s ∧ (toTask t).Formed s.cfg) toTask advance ?skip ?park
    ?adv n s r (leads_of_closed toTask hc hs hr hf)
  case skip => exact fun t s h => ⟨hc _ _ (.schedSkip s) h.1, by simpa using h.2⟩
  case park => exact fun t s h => hc _ _ (.park s _ (hop t) h.2) h.1
  case adv =>
    intro t s ⟨h, ht⟩
    exact leads_of_closed toTask hc h (hadv t s (fun _ => ht.1) h) (hnext t s)

/-- A call of one atomic step keeps a closed property its step keeps. -/
theorem finish_closed (hc : Closed P T o) {s : State} {r : Reply Result} (hs : P s)
    (hr : r.Keeps P) : P (finish s r) := by
  cases r with
  | ok r s' => exact hc _ _ (.ret s' r) hr
  | error e s' => exact hc _ _ (.ret s' _) hr
  | raise f i => exact hc _ _ (.raise s f i) hs
  | refuse r => exact hc _ _ (.refuse s r) hs

/-- A call of one atomic step whose value is mapped to its result. -/
theorem finish_map_closed {α : Type} (hc : Closed P T o) {s : State} {r : Reply α} (f : α → Result)
    (hs : P s) (hr : r.Keeps P) : P (finish s (r.map f)) :=
  finish_closed hc hs ((Reply.keeps_map ..).mpr hr)

section runs
variable {s : State}

theorem run_setFunction_closed (hc : Closed P T .setFunction)
    {r : Reply (Progress SetFunctionTask)} (hs : P s) (hr : r.Keeps P)
    (hf : r.GoesOnFormed .setFunction) :
    P (runCall Task.setFunction setFunctionAdvance callSteps s r) :=
  runCall_closed _ _ hc (fun _ => rfl) (fun t _ ht => hc.setFunctionAdvance t ht)
    setFunctionAdvance_formed hs hr hf

theorem run_sigRead_closed (hc : Closed P T .sigRead) {r : Reply (Progress SigReadTask)} (hs : P s)
    (hr : r.Keeps P) (hf : r.GoesOnFormed .sigRead) :
    P (runCall Task.sigRead sigReadAdvance callSteps s r) :=
  runCall_closed _ _ hc (fun _ => rfl) (fun t _ _ => hc.sigReadAdvance t) sigReadAdvance_formed
    hs hr hf

theorem run_sigWrite_closed (hc : Closed P T .sigWrite) {r : Reply (Progress SigWriteTask)}
    (hs : P s) (hr : r.Keeps P) : P (runCall Task.sigWrite sigWriteAdvance callSteps s r) :=
  runCall_closed _ _ hc (fun _ => rfl) (fun t _ _ => hc.sigWriteAdvance t)
    (fun _ _ u _ _ => sigWrite_formed u _) hs hr fun u _ _ => sigWrite_formed u _

theorem run_ledWrite_closed (hc : Closed P T .ledWrite) {r : Reply (Progress LedWriteTask)}
    (hs : P s) (hr : r.Keeps P) : P (runCall Task.ledWrite ledWriteAdvance callSteps s r) :=
  runCall_closed _ _ hc (fun _ => rfl) (fun t _ _ => hc.ledWriteAdvance t)
    (fun _ _ u _ _ => ledWrite_formed u _) hs hr fun u _ _ => ledWrite_formed u _

theorem run_startup_closed (hc : Closed P T .startup) {r : Reply (Progress StartupTask)} (hs : P s)
    (hr : r.Keeps P) (hf : r.GoesOnFormed .startup) :
    P (runCall Task.startup startupAdvance callSteps s r) :=
  runCall_closed _ _ hc (fun _ => rfl) (fun t _ ht => hc.startupAdvance t ht)
    startupAdvance_formed hs hr hf

theorem run_teardown_closed (hc : Closed P T .teardown) {r : Reply (Progress TeardownTask)}
    (hs : P s) (hr : r.Keeps P) : P (runCall Task.teardown teardownAdvance callSteps s r) :=
  runCall_closed _ _ hc (fun _ => rfl) (fun t _ _ => hc.teardownAdvance t)
    (fun _ _ u _ _ => teardown_formed u _) hs hr fun u _ _ => teardown_formed u _

end runs

/-- A call that is gone on with does to the state only what its operation can do. -/
theorem resume_closed {k : Task} {s : State} (hc : Closed P T k.op)
    (ht : T → k.pinTested s.cfg) (hs : P s) : P (resume k s) := by
  cases k with
  | setFunction t =>
    exact run_setFunction_closed hc hs (hc.setFunctionAdvance t ht hs) (setFunctionAdvance_formed t s)
  | sigRead t => exact run_sigRead_closed hc hs (hc.sigReadAdvance t hs) (sigReadAdvance_formed t s)
  | sigWrite t => exact run_sigWrite_closed hc hs (hc.sigWriteAdvance t hs)
  | ledWrite t => exact run_ledWrite_closed hc hs (hc.ledWriteAdvance t hs)
  | startup t =>
    exact run_startup_closed hc hs (hc.startupAdvance t ht hs) (startupAdvance_formed t s)
  | teardown t => exact run_teardown_closed hc hs (hc.teardownAdvance t hs)

/-- A call that is issued does to the state only what its operation can do. -/
theorem exec_closed {i : Instr} {s t : State} (hc : Closed P T i.op) (h : exec i s = .next t)
    (hs : P s) : P t := by
  cases i <;> obtain rfl := Host.Outcome.next.inj h
  case map base size => exact finish_map_closed hc _ hs (hc.mapWindow base size (.inl rfl) hs)
  case unmap => exact finish_map_closed hc _ hs (hc.unmapWindow (.inl rfl) hs)
  case readWord off => exact finish_map_closed hc _ hs (readWord_keeps off s (hc.read off hs))
  case writeWord off v => exact finish_map_closed hc _ hs (hc.writeWord off v hs)
  case setFunction p m =>
    exact run_setFunction_closed hc hs
      ((Reply.keeps_map ..).mpr (setFunctionRead_keeps p m s (hc.read _ hs)))
      (setFunctionStart_formed p m s)
  case readLevel p => exact finish_map_closed hc _ hs (readLevel_keeps p s (hc.read _ hs))
  case setHigh p =>
    exact finish_map_closed hc _ hs (hc.drivePin 0x1C p (.inr (.inl rfl)) (.inl rfl) hs)
  case setLow p =>
    exact finish_map_closed hc _ hs (hc.drivePin 0x28 p (.inr (.inr (.inl rfl))) (.inr rfl) hs)
  case select b => exact finish_map_closed hc _ hs (hc.selectChannel b (.inl rfl) hs)
  case current => exact finish_closed hc hs hs
  case sigOpen => exact finish_map_closed hc _ hs (hc.sigOpen hs)
  case sigRead id n =>
    exact run_sigRead_closed hc hs (sigReadStart_keeps id n s hs) (sigReadStart_formed id n s)
  case sigWrite id d =>
    exact run_sigWrite_closed hc hs (sigWriteStart_keeps id d s hs (hc.skip 1 hs))
  case sigClose id => exact finish_map_closed hc _ hs (hc.sigClose id hs)
  case ledOpen => exact finish_map_closed hc _ hs (hc.ledOpen hs)
  case ledRead id n => exact finish_closed hc hs (Closed.ledRead id hs)
  case ledWrite id d =>
    exact run_ledWrite_closed hc hs (ledWriteStart_keeps id d s hs (hc.skip 1 hs))
  case ledClose id => exact finish_map_closed hc _ hs (hc.ledClose id hs)
  case startup =>
    exact run_startup_closed hc hs (startupStart_keeps s (hc _ _ (.phase s _ (.inl rfl)) hs))
      (startupStart_formed s)
  case teardown =>
    exact run_teardown_closed hc hs (teardownStart_keeps s (hc _ _ (.phase s _ (.inr rfl)) hs))
  case registerEndpoint k => exact finish_map_closed hc _ hs (hc.registerEndpoint k (.inl rfl) hs)
  case deregisterEndpoint k =>
    exact finish_map_closed hc _ hs (hc.deregisterEndpoint k (.inr (.inl rfl)) hs)

/-- A step does to the state only what its operation can do, beside refusing a call and choosing whose
turn it is. -/
theorem step_closed {s t : State} (h : step s = .next t) (hsched : ∀ s, P s → P s.reschedule)
    (hrefuse : ∀ s r, P s → P (s.refuse r))
    (ht : T → ∀ a ∈ s.agents, ∀ k, a.status = .inCall k → k.pinTested s.cfg)
    (hc : ∀ o, s.stepOp = some o → Closed P T o) (hs : P s) : P t := by
  have hs' : P s.settle := settle_keeps hsched s hs
  obtain ⟨a, ha, ⟨k, hk, rfl⟩ | ⟨r, -, -, rfl⟩ | ⟨i, u, hr, hi, hu, rfl⟩⟩ := step_cases h
  · refine hsched _ (resume_closed (hc k.op (by simp [State.stepOp, ha, hk])) (fun hT => ?_) hs')
    have hcfg : s.settle.cfg = s.cfg :=
      settle_keeps (P := fun u => u.cfg = s.cfg) (fun u hu => by simpa using hu) s rfl
    have hagents : s.settle.agents = s.agents :=
      settle_keeps (P := fun u => u.agents = s.agents) (fun u hu => by simpa using hu) s rfl
    rw [hcfg]
    exact ht hT a (hagents ▸ List.mem_of_getElem? ha) k hk
  · exact hsched _ (hrefuse _ _ hs')
  · exact hsched _ (exec_closed (hc i.op (by simp [State.stepOp, ha, hr, hi])) hu hs')

end Sys2Proof.Machine
end

section
/-!
What every step keeps: the one form of the tables (10_state.md R52, R53, R55), the records that only
grow (10_state.md R55, R56), and the state each operation alone can change (10_state.md R40 to R54).
-/

namespace Sys2Proof.Machine

/-! ### The tables (10_state.md R52, R53, R55) -/

/-- The agents after the current one was updated: each is an old one, or an old one updated. -/
theorem mem_agents_updateAgent {s : State} {f : Agent → Agent} {a : Agent}
    (h : a ∈ (s.updateAgent f).agents) : a ∈ s.agents ∨ ∃ b ∈ s.agents, a = f b := by
  obtain ⟨j, hj⟩ := List.mem_iff_getElem?.mp h
  by_cases hc : j = s.current
  · subst hc
    have := agent_updateAgent s f
    rw [State.agent, updateAgent_current, hj] at this
    obtain ⟨b, hb, hab⟩ := Option.map_eq_some_iff.mp this.symm
    exact .inr ⟨b, List.mem_of_getElem? hb, hab.symm⟩
  · rw [agents_updateAgent_other s f j hc] at hj
    exact .inl (List.mem_of_getElem? hj)

/-- The tables' form depends on the two maps, the fault record, the bound and the agents alone. -/
theorem State.WF.congr {s t : State} (h : s.WF) (hses : t.sessions = s.sessions)
    (hoff : t.offsets = s.offsets) (hflt : faultsWf t.faults = true) (hfr : s.fresh ≤ t.fresh)
    (htest : ∀ a ∈ t.agents, ∀ k, a.status = .inCall k → k.pinTested t.cfg) : t.WF where
  sessions := hses ▸ h.sessions
  offsets := hoff ▸ h.offsets
  faults := hflt
  bound id k hk := by
    rw [hses] at hk
    exact (h.bound id k hk).trans_le hfr
  owned id := by
    rw [hses, hoff]
    exact h.owned id
  tested := htest

/-- An update of the current agent's status keeps the pins of calls in progress tested where the new
status does. -/
theorem tested_updateAgent {s : State} {f : Agent → Agent} (h : s.WF)
    (hf : ∀ a k, (f a).status = .inCall k → k.pinTested s.cfg) :
    ∀ a ∈ (s.updateAgent f).agents, ∀ k, a.status = .inCall k → k.pinTested s.cfg := by
  intro a ha k hk
  rcases mem_agents_updateAgent ha with ha | ⟨b, -, rfl⟩
  · exact h.tested a ha k hk
  · exact hf b k hk

/-- No session of a state whose tables have their form has an identifier at or above the bound. -/
theorem State.WF.get_fresh {s : State} (h : s.WF) {x : Nat} (hx : s.fresh ≤ x) :
    tableGet s.sessions x = none := by
  cases hg : tableGet s.sessions x with
  | none => rfl
  | some k =>
    have := h.bound x k hg
    omega

/-- A session opened under a fresh identifier keeps the tables' form, where the host's offset of a
signal session comes with it. -/
theorem State.WF.opened {s : State} (h : s.WF) {x : Nat} (hx : s.fresh ≤ x) (k : Endpoint)
    {l : List (Nat × Nat)} (hl : tableWf l = true)
    (hown : ∀ id, (tableGet l id).isSome = true ↔
      tableGet (tableSet s.sessions x k) id = some .sig) :
    State.WF { s with fresh := x + 1, sessions := tableSet s.sessions x k, offsets := l } where
  sessions := tableWf_set _ _ _ h.sessions
  offsets := hl
  faults := h.faults
  bound id j hj := by
    simp only at hj ⊢
    by_cases hid : id = x
    · omega
    · rw [tableGet_set_other _ _ _ _ hid] at hj
      have := h.bound id j hj
      omega
  owned := hown
  tested := h.tested

/-- Opening a signal session opens its offset (10_state.md R53). -/
theorem owned_openSig {s : State} (h : s.WF) (x id : Nat) :
    (tableGet (tableSet s.offsets x 0) id).isSome = true ↔
      tableGet (tableSet s.sessions x .sig) id = some .sig := by
  by_cases hid : id = x
  · subst hid
    simp
  · rw [tableGet_set_other _ _ _ _ hid, tableGet_set_other _ _ _ _ hid]
    exact h.owned id

/-- Opening an LED session under a fresh identifier opens no offset (10_state.md R53). -/
theorem owned_openLed {s : State} (h : s.WF) {x : Nat} (hx : s.fresh ≤ x) (id : Nat) :
    (tableGet s.offsets id).isSome = true ↔
      tableGet (tableSet s.sessions x .led) id = some .sig := by
  by_cases hid : id = x
  · subst hid
    simp [h.owned, h.get_fresh hx]
  · rw [tableGet_set_other _ _ _ _ hid]
    exact h.owned id

/-- Removing a session keeps the tables' form, where the offsets stay those of the open signal
sessions. -/
theorem State.WF.closed {s : State} (h : s.WF) (id : Nat) {l : List (Nat × Nat)}
    (hl : tableWf l = true)
    (hown : ∀ j, (tableGet l j).isSome = true ↔
      tableGet (tableErase s.sessions id) j = some .sig) :
    State.WF { s with sessions := tableErase s.sessions id, offsets := l } where
  sessions := tableWf_erase _ _ h.sessions
  offsets := hl
  faults := h.faults
  bound j k hj := by
    by_cases hid : j = id
    · subst hid
      simp [tableGet_erase_same _ _ _ h.sessions] at hj
    · exact h.bound j k (tableGet_erase_other s.sessions id j hid ▸ hj)
  owned := hown
  tested := h.tested

/-- Closing a signal session closes its offset (10_state.md R53). -/
theorem owned_closeSig {s : State} (h : s.WF) (id j : Nat) :
    (tableGet (tableErase s.offsets id) j).isSome = true ↔
      tableGet (tableErase s.sessions id) j = some .sig := by
  by_cases hid : j = id
  · subst hid
    simp [tableGet_erase_same _ _ _ h.sessions, tableGet_erase_same _ _ _ h.offsets]
  · rw [tableGet_erase_other _ _ _ hid, tableGet_erase_other _ _ _ hid]
    exact h.owned j

/-- Closing an LED session closes no offset (10_state.md R53). -/
theorem owned_closeLed {s : State} (h : s.WF) {id : Nat} (hled : tableGet s.sessions id = some .led)
    (j : Nat) :
    (tableGet s.offsets j).isSome = true ↔ tableGet (tableErase s.sessions id) j = some .sig := by
  by_cases hid : j = id
  · subst hid
    simp [h.owned, hled, tableGet_erase_same _ _ _ h.sessions]
  · rw [tableGet_erase_other _ _ _ hid]
    exact h.owned j

/-- Advancing a kept offset keeps the tables' form (10_state.md R53). -/
theorem State.WF.advanced {s : State} (h : s.WF) (id n : Nat) : (s.advanceOffset id n).WF := by
  unfold State.advanceOffset
  split
  case h_2 => exact h
  case h_1 off hoff =>
    refine ⟨h.sessions, tableWf_set _ _ _ h.offsets, h.faults, h.bound, fun j => ?_, h.tested⟩
    by_cases hj : j = id
    · subst hj
      simp [← h.owned, hoff]
    · rw [tableGet_set_other _ _ _ _ hj]
      exact h.owned j

/-- No effect of any operation, made at a tested pin, breaks the form of the tables. -/
theorem wf_closed (o : Op) : Closed State.WF True o := by
  intro s t he h
  cases he with
  | ret r => exact h.congr rfl rfl h.faults le_rfl (tested_updateAgent h fun _ _ hk => nomatch hk)
  | park k _ hk =>
    refine h.congr rfl rfl h.faults le_rfl (tested_updateAgent h fun _ _ hk' => ?_)
    cases hk'
    exact hk.1
  | raise f n =>
    exact h.congr rfl rfl (faultsWf_insert _ _ h.faults) le_rfl
      (tested_updateAgent h fun _ _ hk => nomatch hk)
  | refuse r => exact h.congr rfl rfl h.faults le_rfl (tested_updateAgent h fun _ _ hk => nomatch hk)
  | schedSkip =>
    exact h.congr (by simp) (by simp) (by simpa using h.faults) (by simp) (by simpa using h.tested)
  | skip n => exact h.congr rfl rfl h.faults le_rfl h.tested
  | read off => exact h.congr rfl rfl h.faults le_rfl h.tested
  | writeFsel off w =>
    exact h.congr (by simp) (by simp) (by simpa using h.faults) (by simp) (by simpa using h.tested)
  | writeLatch off w =>
    exact h.congr (by simp) (by simp) (by simpa using h.faults) (by simp) (by simpa using h.tested)
  | map x _ hx => exact h.congr rfl rfl h.faults (by simp only; omega) h.tested
  | unmap => exact h.congr rfl rfl h.faults le_rfl h.tested
  | register k b =>
    exact h.congr (by simp) (by simp) (by simpa using h.faults) (by simp) (by simpa using h.tested)
  | select c => exact h.congr rfl rfl h.faults le_rfl h.tested
  | phase p => exact h.congr rfl rfl h.faults le_rfl h.tested
  | openSig x _ hx => exact h.opened hx .sig (tableWf_set _ _ _ h.offsets) (owned_openSig h x)
  | openLed x _ hx => exact h.opened hx .led h.offsets (owned_openLed h hx)
  | closeSig id => exact h.closed id (tableWf_erase _ _ h.offsets) (owned_closeSig h id)
  | closeLed id _ hled => exact h.closed id h.offsets (owned_closeLed h hled)
  | advance id n => exact h.advanced id n

/-- Choosing whose turn it is keeps the form of the tables. -/
theorem State.WF.rescheduled {s : State} (h : s.WF) : s.reschedule.WF :=
  h.congr (by simp) (by simp) (by simpa using h.faults) (by simp) (by simpa using h.tested)

/-- Settles O51: no effect of any operation breaks the form, and a step is made of the effects of its
operation, a refusal, and the choice of the next turn. -/
theorem stepKeepsTables : Obligations.StepKeepsTables := fun _ _ hs h =>
  step_closed h (fun _ => State.WF.rescheduled) (fun s r => wf_closed .current s _ (.refuse s r))
    (fun _ => hs.tested) (fun o _ => wf_closed o) hs

/-! ### The records (10_state.md R55, R56) -/

/-- The records of a state are those of an earlier one, with more at their ends, under the same
configuration. -/
def State.Extends (s t : State) : Prop :=
  (∃ l, t.history = s.history ++ l) ∧ (∀ x ∈ s.faults, x ∈ t.faults) ∧
    (s.refusalMark = true → t.refusalMark = true) ∧ t.cfg = s.cfg

/-- A state with the same records extends what the other extends. -/
theorem State.Extends.congr {s t u : State} (h : s.Extends t) (hh : u.history = t.history)
    (hf : u.faults = t.faults) (hr : u.refusalMark = t.refusalMark) (hc : u.cfg = t.cfg) :
    s.Extends u := by
  unfold State.Extends
  rw [hh, hf, hr, hc]
  exact h

/-- One more event extends the records. -/
theorem State.Extends.event {s t u : State} (h : s.Extends t) {e : Event}
    (hh : u.history = t.history ++ [e]) (hf : u.faults = t.faults)
    (hr : u.refusalMark = t.refusalMark) (hc : u.cfg = t.cfg) : s.Extends u := by
  obtain ⟨⟨l, hl⟩, hrest⟩ := h
  unfold State.Extends
  rw [hf, hr, hc]
  exact ⟨⟨l ++ [e], by rw [hh, hl, List.append_assoc]⟩, hrest⟩

/-- No effect takes anything out of the records. -/
theorem extends_closed (s₀ : State) (o : Op) : Closed s₀.Extends False o := by
  intro s t he h
  cases he with
  | raise f n =>
    obtain ⟨hh, hf, hr, hc⟩ := h
    exact ⟨hh, fun x hx => (mem_faultInsert _ _ _).mpr (.inr (hf x hx)), hr, hc⟩
  | refuse r =>
    obtain ⟨hh, hf, -, hc⟩ := h
    exact ⟨hh, hf, fun _ => rfl, hc⟩
  | read off => exact h.event (afterRead_history ..) (by simp) (by simp) (by simp)
  | writeFsel off w => exact h.event (afterWrite_history ..) (by simp) (by simp) (by simp)
  | writeLatch off w => exact h.event (afterWrite_history ..) (by simp) (by simp) (by simp)
  | _ => exact h.congr (by simp) (by simp) (by simp) (by simp)

/-- Settles O53: each effect adds to the records or leaves them, and so do a refusal and the choice of
the next turn. -/
theorem recordsOnlyGrow : Obligations.RecordsOnlyGrow := fun s _ h =>
  step_closed (P := s.Extends) h (fun _ ht => ht.congr (by simp) (by simp) (by simp) (by simp))
    (fun t r => extends_closed s .current t _ (.refuse t r)) False.elim
    (fun o _ => extends_closed s o) ⟨⟨[], by simp⟩, fun _ => id, id, rfl⟩

/-! ### Who changes a field of the state (10_state.md R40 to R54) -/

section views
variable {β : Type} {g : State → β} {T : Prop} {s t : State}

/-- What no effect of a call's operation changes, the call leaves as it is. -/
theorem exec_view {i : Instr} (hc : ∀ b, Closed (fun s => g s = b) T i.op)
    (h : exec i s = .next t) : g t = g s :=
  exec_closed (hc (g s)) h rfl

/-- What no effect of a step's operation changes, the step leaves as it is. -/
theorem step_view (h : step s = .next t) (hsched : ∀ s, g s.reschedule = g s)
    (hrefuse : ∀ s r, g (s.refuse r) = g s)
    (ht : T → ∀ a ∈ s.agents, ∀ k, a.status = .inCall k → k.pinTested s.cfg)
    (hc : ∀ o b, s.stepOp = some o → Closed (fun s => g s = b) T o) : g t = g s :=
  step_closed (P := fun u => g u = g s) h (fun _ hs => (hsched _).trans hs)
    (fun _ _ hs => (hrefuse _ _).trans hs) ht (fun o ho => hc o _ ho) rfl

end views

/-- The operations of which some effect changes the fields. -/
def fselWriters : List Op := [.writeWord, .setFunction, .startup]

/-- The operations of which some effect changes the latch. -/
def latchWriters : List Op := [.writeWord, .setHigh, .setLow, .ledWrite, .teardown]

/-- The operations of which some effect changes the phase. -/
def phaseWriters : List Op := [.startup, .teardown]

/-- The operations of which some effect changes the mapping. -/
def mappingWriters : List Op := [.startup, .teardown, .unmap, .map]

/-- The operations of which some effect changes a registration flag. -/
def flagWriters : List Op := [.startup, .teardown, .registerEndpoint, .deregisterEndpoint]

/-- The operations of which some effect changes the selection. -/
def selWriters : List Op := [.startup, .select, .sigWrite]

/-- The operations of which some effect changes the sessions. -/
def sessionWriters : List Op := [.sigOpen, .ledOpen, .sigClose, .ledClose]

/-- The operations of which some effect changes the host's offsets. -/
def offsetWriters : List Op := [.sigOpen, .sigRead, .sigClose]

variable {o : Op}

theorem fsel_closed (ho : o ∉ fselWriters) (b : Fsel) : Closed (fun s => s.fsel = b) False o := by
  simp only [fselWriters, List.mem_cons, List.not_mem_nil, or_false] at ho
  intro s t he h
  cases he with
  | writeFsel off w hw => exact absurd hw ho
  | writeLatch off w _ hoff => rcases hoff with rfl | rfl <;> exact h
  | _ => simpa using h

/-- A write of another register than SET and CLR leaves the latch (10_state.md R44). -/
theorem storeRegister_outlatch_other (s : State) {off : Nat} (v : Word) (h1 : off ≠ 0x1C)
    (h2 : off ≠ 0x28) : (s.storeRegister off v).outlatch = s.outlatch := by
  rw [State.storeRegister, if_neg h1, if_neg h2]

theorem latch_closed (ho : o ∉ latchWriters) (b : Word) :
    Closed (fun s => s.outlatch = b) True o := by
  simp only [latchWriters, List.mem_cons, List.not_mem_nil, or_false] at ho
  intro s t he h
  cases he with
  | writeFsel off w _ hoff =>
    obtain ⟨h1, h2⟩ := hoff trivial
    simpa [storeRegister_outlatch_other s w h1 h2] using h
  | writeLatch off w hw => exact absurd hw ho
  | _ => simpa using h

theorem phase_closed (ho : o ∉ phaseWriters) (b : Phase) :
    Closed (fun s => s.phase = b) False o := by
  simp only [phaseWriters, List.mem_cons, List.not_mem_nil, or_false] at ho
  intro s t he h
  cases he with
  | phase p hw => exact absurd hw ho
  | _ => simpa using h

theorem mapping_closed (ho : o ∉ mappingWriters) (b : Option Nat) :
    Closed (fun s => s.mapping = b) False o := by
  simp only [mappingWriters, List.mem_cons, List.not_mem_nil, or_false] at ho
  intro s t he h
  cases he with
  | map x hw => tauto
  | unmap hw => tauto
  | _ => simpa using h

theorem flags_closed (ho : o ∉ flagWriters) (b : Bool × Bool) :
    Closed (fun s => (s.sigReg, s.ledReg) = b) False o := by
  simp only [flagWriters, List.mem_cons, List.not_mem_nil, or_false] at ho
  intro s t he h
  cases he with
  | register k v hw => tauto
  | _ => simpa using h

theorem sel_closed (ho : o ∉ selWriters) (b : Channel) : Closed (fun s => s.sel = b) False o := by
  simp only [selWriters, List.mem_cons, List.not_mem_nil, or_false] at ho
  intro s t he h
  cases he with
  | select c hw => tauto
  | _ => simpa using h

theorem sessions_closed (ho : o ∉ sessionWriters) (b : List (Nat × Endpoint)) :
    Closed (fun s => s.sessions = b) False o := by
  simp only [sessionWriters, List.mem_cons, List.not_mem_nil, or_false] at ho
  intro s t he h
  cases he with
  | openSig x hw => tauto
  | openLed x hw => tauto
  | closeSig id hw => tauto
  | closeLed id hw => tauto
  | _ => simpa using h

theorem offsets_closed (ho : o ∉ offsetWriters) (b : List (Nat × Nat)) :
    Closed (fun s => s.offsets = b) False o := by
  simp only [offsetWriters, List.mem_cons, List.not_mem_nil, or_false] at ho
  intro s t he h
  cases he with
  | openSig x hw => tauto
  | closeSig id hw => tauto
  | advance id n hw => tauto
  | _ => simpa using h

section writers
variable {β : Type} {g : State → β} {T : Prop} {l : List Op}

/-- A call that changes what only some operations can is a call of one of them. -/
theorem exec_writer (hc : ∀ o, o ∉ l → ∀ b, Closed (fun s => g s = b) T o) {i : Instr} {s t : State}
    (h : exec i s = .next t) (hne : g t ≠ g s) : i.op ∈ l := by
  by_contra ho
  exact hne (exec_view (hc _ ho) h)

/-- A step that changes what only some operations can issues or goes on with a call of one of them. -/
theorem step_writer (hc : ∀ o, o ∉ l → ∀ b, Closed (fun s => g s = b) T o)
    (hsched : ∀ s, g s.reschedule = g s) (hrefuse : ∀ s r, g (s.refuse r) = g s) {s t : State}
    (ht : T → ∀ a ∈ s.agents, ∀ k, a.status = .inCall k → k.pinTested s.cfg)
    (h : step s = .next t) (hne : g t ≠ g s) : s.stepOp ∈ l.map some := by
  by_contra ho
  exact hne (step_view h hsched hrefuse ht fun o b hso =>
    hc o (fun hl => ho (hso ▸ List.mem_map_of_mem hl)) b)

end writers

/-- Settles O56: the fields are changed by an effect of write_word, set_function and startup alone. -/
theorem fieldsOnlyWrittenBy : Obligations.FieldsOnlyWrittenBy := by
  refine ⟨fun i s t h hne => ?issued, fun s t h hne => ?stepped⟩
  case issued =>
    have hop := exec_writer (fun _ => fsel_closed) h hne
    cases i <;> simp [Instr.op, fselWriters] at hop ⊢
  case stepped =>
    exact step_writer (fun _ => fsel_closed) reschedule_fsel refuse_fsel False.elim h hne

/-- The history since an earlier state holds a write of SET or CLR, wherever the latch has changed. -/
def State.LatchRecorded (s t : State) : Prop :=
  ∃ l, t.history = s.history ++ l ∧ (t.outlatch ≠ s.outlatch →
    ∃ e ∈ l, e.access = .write ∧ (e.offset = 0x1C ∨ e.offset = 0x28))

/-- What leaves the history and the latch leaves the record of the latch's changes. -/
theorem State.LatchRecorded.congr {s t u : State} (h : s.LatchRecorded t)
    (hh : u.history = t.history) (hl : u.outlatch = t.outlatch) : s.LatchRecorded u := by
  unfold State.LatchRecorded
  rw [hh, hl]
  exact h

/-- An event that is a write of SET or CLR, or leaves the latch, keeps the latch's changes recorded. -/
theorem State.LatchRecorded.event {s t u : State} (h : s.LatchRecorded t) {e : Event}
    (hh : u.history = t.history ++ [e])
    (he : u.outlatch = t.outlatch ∨ e.access = .write ∧ (e.offset = 0x1C ∨ e.offset = 0x28)) :
    s.LatchRecorded u := by
  obtain ⟨l, hl, hrec⟩ := h
  refine ⟨l ++ [e], by rw [hh, hl, List.append_assoc], fun hne => ?_⟩
  rcases he with hsame | hwrite
  · obtain ⟨e', he', hw⟩ := hrec (hsame ▸ hne)
    exact ⟨e', List.mem_append_left _ he', hw⟩
  · exact ⟨e, by simp, hwrite⟩

/-- Every write is recorded with its offset, so no effect changes the latch without a record. -/
theorem latchRecorded_closed (s₀ : State) (o : Op) : Closed s₀.LatchRecorded False o := by
  intro s t he h
  have write : ∀ off w, s₀.LatchRecorded (s.afterWrite off w) := fun off w => by
    refine h.event (afterWrite_history ..) ?_
    by_cases hoff : off = 0x1C ∨ off = 0x28
    · exact .inr ⟨rfl, hoff⟩
    · obtain ⟨h1, h2⟩ := not_or.mp hoff
      exact .inl (storeRegister_outlatch_other s w h1 h2)
  cases he with
  | read off => exact h.event (afterRead_history ..) (.inl (by simp))
  | writeFsel off w => exact write off w
  | writeLatch off w => exact write off w
  | _ => exact h.congr (by simp) (by simp)

/-- A change of the latch that is recorded, as the statement has it. -/
theorem State.LatchRecorded.of_ne {s t : State} (h : s.LatchRecorded t)
    (hne : t.outlatch ≠ s.outlatch) :
    ∃ (l : List Event) (e : Event), t.history = s.history ++ l ∧ e ∈ l ∧ e.access = .write ∧
      (e.offset = 0x1C ∨ e.offset = 0x28) := by
  obtain ⟨l, hl, hrec⟩ := h
  obtain ⟨e, he, hw⟩ := hrec hne
  exact ⟨l, e, hl, he, hw⟩

theorem latchRecorded_refl (s : State) : s.LatchRecorded s :=
  ⟨[], by simp, fun h => absurd rfl h⟩

/-- A write_word that changes the latch writes SET or CLR (10_state.md R44 to R46). -/
theorem exec_writeWord_latch {off : Nat} {v : Word} {s t : State}
    (h : exec (.writeWord off v) s = .next t) (hne : t.outlatch ≠ s.outlatch) :
    off = 0x1C ∨ off = 0x28 := by
  by_contra hoff
  obtain ⟨h1, h2⟩ := not_or.mp hoff
  obtain rfl := Host.Outcome.next.inj h
  refine hne ?_
  rw [writeWord_eq]
  split_ifs
  · rfl
  · exact storeRegister_outlatch_other s v h1 h2
  · rfl

/-- Settles O57: the latch is changed by an effect of the five operations alone, and each such effect
is a write recorded in the history. -/
theorem latchOnlyWrittenBy : Obligations.LatchOnlyWrittenBy := by
  refine ⟨fun i s t h hne => ⟨?issued, ?recorded⟩, fun s t hs h hne => ⟨?stepped, ?logged⟩⟩
  case issued =>
    have hop := exec_writer (fun _ => latch_closed) h hne
    cases i
    case writeWord off v => exact .inl ⟨off, v, rfl, exec_writeWord_latch h hne⟩
    all_goals simp [Instr.op, latchWriters] at hop ⊢
  case recorded =>
    exact (exec_closed (latchRecorded_closed s _) h (latchRecorded_refl s)).of_ne hne
  case stepped =>
    exact step_writer (fun _ => latch_closed) reschedule_outlatch refuse_outlatch
      (fun _ => hs.tested) h hne
  case logged =>
    refine State.LatchRecorded.of_ne ?_ hne
    exact step_closed h (fun _ ht => ht.congr (by simp) (by simp))
      (fun _ _ ht => ht.congr rfl rfl) False.elim (fun o _ => latchRecorded_closed s o)
      (latchRecorded_refl s)

/-- Both registration flags are the same where neither has changed. -/
theorem flags_ne {s t : State} (h : t.sigReg ≠ s.sigReg ∨ t.ledReg ≠ s.ledReg) :
    (t.sigReg, t.ledReg) ≠ (s.sigReg, s.ledReg) := by
  intro heq
  obtain ⟨h1, h2⟩ := Prod.mk.inj heq
  exact h.elim (· h1) (· h2)

/-- Settles O58: each piece of the block's own state is changed by an effect of the operations named
alone. -/
theorem instanceStateOnlyWrittenBy : Obligations.InstanceStateOnlyWrittenBy := by
  refine ⟨fun i s t h => ?issued, fun s t h => ?stepped⟩
  case issued =>
    refine ⟨fun hne => ?phase, fun hne => ?mapping, fun hne => ?flags, fun hne => ?sel,
      fun hne => ?sessions, fun hne => ?offsets⟩
    case phase =>
      have hop := exec_writer (fun _ => phase_closed) h hne
      cases i <;> simp [Instr.op, phaseWriters] at hop ⊢
    case mapping =>
      have hop := exec_writer (fun _ => mapping_closed) h hne
      cases i <;> simp [Instr.op, mappingWriters] at hop ⊢
    case flags =>
      have hop := exec_writer (fun _ => flags_closed) h (flags_ne hne)
      cases i <;> simp [Instr.op, flagWriters] at hop ⊢
    case sel =>
      have hop := exec_writer (fun _ => sel_closed) h hne
      cases i <;> simp [Instr.op, selWriters] at hop ⊢
    case sessions =>
      have hop := exec_writer (fun _ => sessions_closed) h hne
      cases i <;> simp [Instr.op, sessionWriters] at hop ⊢
    case offsets =>
      have hop := exec_writer (fun _ => offsets_closed) h hne
      cases i <;> simp [Instr.op, offsetWriters] at hop ⊢
  case stepped =>
    exact ⟨step_writer (fun _ => phase_closed) reschedule_phase refuse_phase False.elim h,
      step_writer (fun _ => mapping_closed) reschedule_mapping refuse_mapping False.elim h,
      fun hne => step_writer (fun _ => flags_closed) (fun s => by simp) (fun _ _ => rfl) False.elim h
        (flags_ne hne),
      step_writer (fun _ => sel_closed) reschedule_sel refuse_sel False.elim h,
      step_writer (fun _ => sessions_closed) reschedule_sessions refuse_sessions False.elim h,
      step_writer (fun _ => offsets_closed) reschedule_offsets refuse_offsets False.elim h⟩

end Sys2Proof.Machine
end

section
/-!
Each atomic step of a startup and of a teardown, by what it needs (46_lifecycle.md R270, R271): the
reply where its tests pass and where one fails.
-/

namespace Sys2Proof.Machine

/-! ### The operations the steps are made of -/

/-- A map the host declines changes nothing but the draw (40_register_block.md R130). -/
theorem mapWindow_failed (s : State) (hm : s.mapping = none) (hd : asBool (s.peek 0) = false) :
    mapWindow s.cfg.pBase pWindow s = .error .mapFailure (s.skip 1) := by
  simp [mapWindow, hm, hd]

/-- A map while mapped is refused (40_register_block.md R130). -/
theorem mapWindow_refused (s : State) (base size : Nat) (hm : s.mapping ≠ none) :
    mapWindow base size s = .refuse .mapping := by
  rw [mapWindow, if_pos (Option.isSome_iff_ne_none.mpr hm)]

/-- A registration of an endpoint that has none goes by the host's draw (46_lifecycle.md R272). -/
theorem registerEndpoint_of_free (s : State) (k : Endpoint) (h : s.registered k = false) :
    registerEndpoint k s =
      if asBool (s.peek 0) then .ok () ((s.skip 1).setRegistered k true)
      else .error .registrationFailure (s.skip 1) := by
  simp [registerEndpoint, h]

/-- A registration of a registered endpoint is refused (46_lifecycle.md R272). -/
theorem registerEndpoint_refused (s : State) (k : Endpoint) (h : s.registered k = true) :
    registerEndpoint k s = .refuse .lifecycle := by
  rw [registerEndpoint, if_pos h]

/-- A deregistration clears the flag of a registered endpoint (46_lifecycle.md R273). -/
theorem deregisterEndpoint_ok (s : State) (k : Endpoint) (h : s.registered k = true) :
    deregisterEndpoint k s = .ok () (s.setRegistered k false) := by
  simp [deregisterEndpoint, h]

/-- A deregistration of an endpoint that has none is refused (46_lifecycle.md R273). -/
theorem deregisterEndpoint_refused (s : State) (k : Endpoint) (h : s.registered k = false) :
    deregisterEndpoint k s = .refuse .lifecycle := by
  simp [deregisterEndpoint, h]

/-- A pin out of range stops set_function's read (41_pin_control.md R150). -/
theorem setFunctionRead_pinRange (s : State) (p : Nat) (m : BitVec 3) (hm : m.toNat ≤ 1)
    (hp : numPins ≤ p) : setFunctionRead p m s = .raise .pinRange p := by
  rw [setFunctionRead, if_neg (not_lt.mpr hm), if_pos hp]

/-- Without a mapping set_function's read of a pin in range faults (41_pin_control.md R150). -/
theorem setFunctionRead_unmapped (s : State) (p : Nat) (m : BitVec 3) (hm : m.toNat ≤ 1)
    (hp : p < numPins) (h : s.mapping = none) :
    setFunctionRead p m s = .raise .unmapped (fselOffset p) := by
  rw [setFunctionRead, if_neg (not_lt.mpr hm), if_neg (not_le.mpr hp), readWord_eq, if_pos h]

/-- Without a mapping set_function's write faults (41_pin_control.md R150). -/
theorem setFunctionWrite_unmapped (s : State) (p : Nat) (m : BitVec 3) (w : Word)
    (h : s.mapping = none) : setFunctionWrite p m w s = .raise .unmapped (fselOffset p) := by
  rw [setFunctionWrite, writeWord_eq, if_pos h]

/-- A pin out of range stops a drive (41_pin_control.md R152, R153). -/
theorem drivePin_pinRange (s : State) (off p : Nat) (hp : levelPins ≤ p) :
    drivePin off p s = .raise .pinRange p := by
  rw [drivePin, if_pos hp]

/-- A pin that is not an output stops a drive (41_pin_control.md R152, R153). -/
theorem drivePin_notOutput (s : State) (off p : Nat) (hp : p < levelPins)
    (hf : s.fsel.field p ≠ modeOutput) : drivePin off p s = .raise .driveNotOutput p := by
  rw [drivePin, if_neg (not_le.mpr hp), if_pos hf]

/-- A missing mapping stops a drive of an output pin (41_pin_control.md R152, R153). -/
theorem drivePin_unmapped (s : State) (off p : Nat) (hp : p < levelPins)
    (hf : s.fsel.field p = modeOutput) (hm : s.mapping = none) :
    drivePin off p s = .raise .unmapped off := by
  rw [drivePin, if_neg (not_le.mpr hp), if_neg (not_not.mpr hf), writeWord_eq, if_pos hm]

/-- Startup gives every pin the mode INPUT or OUTPUT (46_lifecycle.md R270). -/
theorem slotMode_le (c : ConfigSlot) : (slotMode c).toNat ≤ 1 := by
  cases c <;> decide

/-! ### The steps of a startup (46_lifecycle.md R270) -/

section startup
variable (s : State)

theorem startupAdvance_map_ok (hm : s.mapping = none) (hd : asBool (s.peek 0) = true) :
    startupAdvance .map s = .ok (.again (.readFsel .input1))
      { s.skip 2 with mapping := some (s.skip 1).freshId, fresh := (s.skip 1).freshId + 1 } := by
  rw [startupAdvance, mapWindow_ok s hm hd, orRollback]

theorem startupAdvance_map_failed (hm : s.mapping = none) (hd : asBool (s.peek 0) = false) :
    startupAdvance .map s = .ok (.again (.enterAbsent .mapFailure)) (s.skip 1) := by
  rw [startupAdvance, mapWindow_failed s hm hd, orRollback]

theorem startupAdvance_map_refused (hm : s.mapping ≠ none) :
    startupAdvance .map s = .refuse .mapping := by
  rw [startupAdvance, mapWindow_refused s _ _ hm, orRollback]

theorem startupAdvance_readFsel_ok (c : ConfigSlot) (hm : s.mapping ≠ none)
    (hp : slotPin s.cfg c < numPins) :
    startupAdvance (.readFsel c) s =
      .ok (.again (.writeFsel c (s.memValue (fselOffset (slotPin s.cfg c)))))
        (s.afterRead (fselOffset (slotPin s.cfg c))) := by
  rw [startupAdvance, setFunctionRead_ok s _ _ hm hp (slotMode_le c), Reply.map]

theorem startupAdvance_readFsel_pinRange (c : ConfigSlot) (hp : numPins ≤ slotPin s.cfg c) :
    startupAdvance (.readFsel c) s = .raise .pinRange (slotPin s.cfg c) := by
  rw [startupAdvance, setFunctionRead_pinRange s _ _ (slotMode_le c) hp, Reply.map]

theorem startupAdvance_readFsel_unmapped (c : ConfigSlot) (hm : s.mapping = none)
    (hp : slotPin s.cfg c < numPins) :
    startupAdvance (.readFsel c) s = .raise .unmapped (fselOffset (slotPin s.cfg c)) := by
  rw [startupAdvance, setFunctionRead_unmapped s _ _ (slotMode_le c) hp hm, Reply.map]

theorem startupAdvance_writeFsel_ok (c : ConfigSlot) (w : Word) (hm : s.mapping ≠ none)
    (hp : slotPin s.cfg c < numPins) :
    startupAdvance (.writeFsel c w) s = .ok (.again (afterSlot c))
      (s.afterWrite (fselOffset (slotPin s.cfg c))
        (withField w (slotPin s.cfg c) (slotMode c))) := by
  rw [startupAdvance, setFunctionWrite_ok s _ _ w hm hp, Reply.map]

theorem startupAdvance_writeFsel_unmapped (c : ConfigSlot) (w : Word) (hm : s.mapping = none) :
    startupAdvance (.writeFsel c w) s = .raise .unmapped (fselOffset (slotPin s.cfg c)) := by
  rw [startupAdvance, setFunctionWrite_unmapped s _ _ w hm, Reply.map]

theorem startupAdvance_registerSig (h : s.sigReg = false) :
    startupAdvance .registerSig s =
      if asBool (s.peek 0) then .ok (.again .registerLed) { s.skip 1 with sigReg := true }
      else .ok (.again .rollbackMap) (s.skip 1) := by
  rw [startupAdvance, registerEndpoint_of_free s .sig h]
  split <;> rfl

theorem startupAdvance_registerSig_refused (h : s.sigReg = true) :
    startupAdvance .registerSig s = .refuse .lifecycle := by
  rw [startupAdvance, registerEndpoint_refused s .sig h, orRollback]

theorem startupAdvance_registerLed (h : s.ledReg = false) :
    startupAdvance .registerLed s =
      if asBool (s.peek 0) then .ok (.again .enterRunning) { s.skip 1 with ledReg := true }
      else .ok (.again .rollbackSig) (s.skip 1) := by
  rw [startupAdvance, registerEndpoint_of_free s .led h]
  split <;> rfl

theorem startupAdvance_registerLed_refused (h : s.ledReg = true) :
    startupAdvance .registerLed s = .refuse .lifecycle := by
  rw [startupAdvance, registerEndpoint_refused s .led h, orRollback]

theorem startupAdvance_rollbackSig_ok (h : s.sigReg = true) :
    startupAdvance .rollbackSig s = .ok (.again .rollbackMap) { s with sigReg := false } := by
  rw [startupAdvance, deregisterEndpoint_ok s .sig h]
  rfl

theorem startupAdvance_rollbackSig_refused (h : s.sigReg = false) :
    startupAdvance .rollbackSig s = .refuse .lifecycle := by
  rw [startupAdvance, deregisterEndpoint_refused s .sig h, Reply.map]

theorem startupAdvance_rollbackMap_ok (h : s.mapping ≠ none) :
    startupAdvance .rollbackMap s =
      .ok (.again (.enterAbsent .registrationFailure)) { s with mapping := none } := by
  rw [startupAdvance, unmapWindow_eq, if_neg h, Reply.map]

theorem startupAdvance_rollbackMap_refused (h : s.mapping = none) :
    startupAdvance .rollbackMap s = .refuse .mapping := by
  rw [startupAdvance, unmapWindow_eq, if_pos h, Reply.map]

end startup

/-! ### The steps of a teardown (46_lifecycle.md R271) -/

section teardown
variable (s : State)

theorem teardownAdvance_driveLow_ok (hm : s.mapping ≠ none) (hp : s.cfg.outputPin < levelPins)
    (hf : s.fsel.field s.cfg.outputPin = modeOutput) :
    teardownAdvance .driveLow s =
      .ok (.again .unmap) (s.afterWrite 0x28 (pinBit s.cfg.outputPin)) := by
  rw [teardownAdvance, setLow, drivePin_ok s 0x28 _ (by decide) hm hp hf, Reply.map]

theorem teardownAdvance_driveLow_pinRange (hp : levelPins ≤ s.cfg.outputPin) :
    teardownAdvance .driveLow s = .raise .pinRange s.cfg.outputPin := by
  rw [teardownAdvance, setLow, drivePin_pinRange s _ _ hp, Reply.map]

theorem teardownAdvance_driveLow_notOutput (hp : s.cfg.outputPin < levelPins)
    (hf : s.fsel.field s.cfg.outputPin ≠ modeOutput) :
    teardownAdvance .driveLow s = .raise .driveNotOutput s.cfg.outputPin := by
  rw [teardownAdvance, setLow, drivePin_notOutput s _ _ hp hf, Reply.map]

theorem teardownAdvance_driveLow_unmapped (hm : s.mapping = none)
    (hp : s.cfg.outputPin < levelPins) (hf : s.fsel.field s.cfg.outputPin = modeOutput) :
    teardownAdvance .driveLow s = .raise .unmapped 0x28 := by
  rw [teardownAdvance, setLow, drivePin_unmapped s _ _ hp hf hm, Reply.map]

theorem teardownAdvance_unmap_ok (hm : s.mapping ≠ none) :
    teardownAdvance .unmap s = .ok (.again .deregisterSig) { s with mapping := none } := by
  rw [teardownAdvance, unmapWindow_eq, if_neg hm, Reply.map]

theorem teardownAdvance_unmap_refused (hm : s.mapping = none) :
    teardownAdvance .unmap s = .refuse .mapping := by
  rw [teardownAdvance, unmapWindow_eq, if_pos hm, Reply.map]

theorem teardownAdvance_deregisterSig_ok (h : s.sigReg = true) :
    teardownAdvance .deregisterSig s = .ok (.again .deregisterLed) { s with sigReg := false } := by
  rw [teardownAdvance, deregisterEndpoint_ok s .sig h]
  rfl

theorem teardownAdvance_deregisterSig_refused (h : s.sigReg = false) :
    teardownAdvance .deregisterSig s = .refuse .lifecycle := by
  rw [teardownAdvance, deregisterEndpoint_refused s .sig h, Reply.map]

theorem teardownAdvance_deregisterLed_ok (h : s.ledReg = true) :
    teardownAdvance .deregisterLed s = .ok (.again .enterAbsent) { s with ledReg := false } := by
  rw [teardownAdvance, deregisterEndpoint_ok s .led h]
  rfl

theorem teardownAdvance_deregisterLed_refused (h : s.ledReg = false) :
    teardownAdvance .deregisterLed s = .refuse .lifecycle := by
  rw [teardownAdvance, deregisterEndpoint_refused s .led h, Reply.map]

end teardown

end Sys2Proof.Machine
end

section
/-!
Every step keeps order (41_pin_control.md R155, 46_lifecycle.md R275). A caller's call leaves what the
phase speaks of as it is; a startup and a teardown go from one stage to the next, none of whose tests
can fail.
-/

namespace Sys2Proof.Machine

/-! ### What order speaks of -/

/-- The block's own state of which order speaks is the same in both states. -/
structure State.SameBlock (s t : State) : Prop where
  cfg : t.cfg = s.cfg
  phase : t.phase = s.phase
  mapping : t.mapping = s.mapping
  sigReg : t.sigReg = s.sigReg
  ledReg : t.ledReg = s.ledReg
  fsel : t.fsel = s.fsel

theorem State.SameBlock.refl (s : State) : s.SameBlock s := ⟨rfl, rfl, rfl, rfl, rfl, rfl⟩

theorem State.SameBlock.configured {s t : State} (h : s.SameBlock t) (hs : s.configured) :
    t.configured := by
  unfold State.configured
  rw [h.cfg, h.fsel]
  exact hs

theorem State.SameBlock.startupStage {s t : State} (h : s.SameBlock t) {k : StartupTask}
    (hs : s.startupStage k) : t.startupStage k := by
  have hmapped : t.mappedWith = s.mappedWith := by
    unfold State.mappedWith
    rw [h.mapping, h.sigReg, h.ledReg]
  have hunmapped : t.unmappedWith = s.unmappedWith := by
    unfold State.unmappedWith
    rw [h.mapping, h.sigReg, h.ledReg]
  have hbefore : t.configuredBefore = s.configuredBefore := by
    unfold State.configuredBefore
    rw [h.cfg, h.fsel]
  have hconf : t.configured = s.configured := by
    unfold State.configured
    rw [h.cfg, h.fsel]
  unfold State.startupStage at hs ⊢
  rw [hmapped, hunmapped, hbefore, hconf, h.cfg, h.fsel]
  exact hs

theorem State.SameBlock.teardownStage {s t : State} (h : s.SameBlock t) {k : TeardownTask}
    (hs : s.teardownStage k) : t.teardownStage k := by
  unfold State.teardownStage State.mappedWith State.unmappedWith State.configured at hs ⊢
  rw [h.mapping, h.sigReg, h.ledReg, h.cfg, h.fsel]
  exact hs

/-- An agent that is in no call is inside no lifecycle call. -/
theorem Agent.noLifecycleTask_of {a : Agent} (h : ∀ k, a.status ≠ .inCall k) : a.noLifecycleTask :=
  ⟨fun _ => h _, fun _ => h _⟩

/-- The same block stays orderly where each agent is as before, or was and is inside no lifecycle
call. -/
theorem State.Orderly.transfer {s t : State} (h : s.Orderly) (hb : s.SameBlock t)
    (hag : ∀ j : Nat, t.agents[j]? = s.agents[j]? ∨ ∃ a b : Agent, s.agents[j]? = some a ∧
      t.agents[j]? = some b ∧ a.noLifecycleTask ∧ b.noLifecycleTask ∧ b.Regular s.cfg) :
    t.Orderly := by
  have free : (∀ a ∈ s.agents, a.noLifecycleTask) → ∀ a ∈ t.agents, a.noLifecycleTask := by
    intro hs a ha
    obtain ⟨j, hj⟩ := List.mem_iff_getElem?.mp ha
    rcases hag j with heq | ⟨_, b, -, hb', -, hfree, -⟩
    · exact hs a (List.mem_of_getElem? (heq ▸ hj))
    · cases hj.symm.trans hb'
      exact hfree
  have only : ∀ i, s.onlyAgent i → t.onlyAgent i := by
    intro i hs j a hne hj
    rcases hag j with heq | ⟨_, b, -, hb', -, hfree, -⟩
    · exact hs j a hne (heq ▸ hj)
    · cases hj.symm.trans hb'
      exact hfree
  have kept : ∀ {i : Nat} {a : Agent}, s.agents[i]? = some a → ¬ a.noLifecycleTask →
      t.agents[i]? = some a := by
    intro i a hi hnot
    rcases hag i with heq | ⟨a', _, ha', -, hfree, -⟩
    · exact heq.trans hi
    · cases hi.symm.trans ha'
      exact absurd hfree hnot
  refine ⟨hb.cfg ▸ h.valid, fun a ha => ?regular, ?phase⟩
  case regular =>
    rw [hb.cfg]
    obtain ⟨j, hj⟩ := List.mem_iff_getElem?.mp ha
    rcases hag j with heq | ⟨_, b, -, hb', -, -, hreg⟩
    · exact h.agents a (List.mem_of_getElem? (heq ▸ hj))
    · cases hj.symm.trans hb'
      exact hreg
  case phase =>
    have hp := h.phase
    unfold State.phaseOk at hp ⊢
    rw [hb.phase]
    cases hph : s.phase with
    | absent =>
      rw [hph] at hp
      obtain ⟨hun, hall⟩ := hp
      refine ⟨?_, free hall⟩
      unfold State.unmappedWith
      rw [hb.mapping, hb.sigReg, hb.ledReg]
      exact hun
    | running =>
      rw [hph] at hp
      obtain ⟨⟨hmap, hconf⟩, hall⟩ := hp
      refine ⟨⟨?_, hb.configured hconf⟩, free hall⟩
      unfold State.mappedWith
      rw [hb.mapping, hb.sigReg, hb.ledReg]
      exact hmap
    | starting =>
      rw [hph] at hp
      obtain ⟨i, a, k, hi, hk, hstage, honly⟩ := hp
      exact ⟨i, a, k, kept hi fun hno => hno.1 k hk, hk, hb.startupStage hstage, only i honly⟩
    | stopping =>
      rw [hph] at hp
      obtain ⟨i, a, k, hi, hk, hstage, honly⟩ := hp
      exact ⟨i, a, k, kept hi fun hno => hno.2 k hk, hk, hb.teardownStage hstage, only i honly⟩

/-- Choosing whose turn it is keeps order. -/
theorem State.Orderly.rescheduled {s : State} (h : s.Orderly) : s.reschedule.Orderly :=
  h.transfer ⟨by simp, by simp, by simp, by simp, by simp, by simp⟩ fun j => .inl (by simp)

/-! ### A caller's call -/

/-- What a call of a caller, or a refusal, can make of a state: the block and the other agents are as
they were, and its own agent is inside no lifecycle call. -/
structure State.Beside (s t : State) : Prop where
  block : s.SameBlock t
  current : t.current = s.current
  others : ∀ j, j ≠ s.current → t.agents[j]? = s.agents[j]?
  own : ∃ a, t.agent = some a ∧ a.noLifecycleTask ∧ a.Regular s.cfg

/-- The rows a caller issues (30_encoding.md R94). -/
def callerOps : List Op :=
  [.sigOpen, .sigRead, .sigWrite, .sigClose, .ledOpen, .ledRead, .ledWrite, .ledClose]

theorem State.Beside.refl {s : State} {a : Agent} (h : s.Orderly) (ha : s.agent = some a)
    (hno : a.noLifecycleTask) : s.Beside s :=
  ⟨.refl s, rfl, fun _ _ => rfl, a, ha, hno, h.agents a (List.mem_of_getElem? ha)⟩

/-- Where a call changes no agent, its own agent stays what it is. -/
theorem State.Beside.congr {s t u : State} (h : s.Beside t) (hb : t.SameBlock u)
    (hc : u.current = t.current) (ha : u.agents = t.agents) : s.Beside u where
  block := ⟨hb.cfg.trans h.block.cfg, hb.phase.trans h.block.phase, hb.mapping.trans h.block.mapping,
    hb.sigReg.trans h.block.sigReg, hb.ledReg.trans h.block.ledReg, hb.fsel.trans h.block.fsel⟩
  current := hc.trans h.current
  others := by rw [ha]; exact h.others
  own := by
    unfold State.agent
    rw [ha, hc]
    exact h.own

/-- An update of the current agent stays beside where the updated agent is as it should be. -/
theorem State.Beside.update {s t : State} (h : s.Beside t) (f : Agent → Agent)
    (hf : ∀ a : Agent, a.Regular s.cfg → (f a).noLifecycleTask ∧ (f a).Regular s.cfg) :
    s.Beside (t.updateAgent f) where
  block := ⟨h.block.cfg, h.block.phase, h.block.mapping, h.block.sigReg, h.block.ledReg,
    h.block.fsel⟩
  current := h.current
  others j hj := (agents_updateAgent_other t f j (h.current ▸ hj)).trans (h.others j hj)
  own := by
    obtain ⟨a, ha, -, hreg⟩ := h.own
    exact ⟨f a, by rw [agent_updateAgent, ha]; rfl, hf a hreg⟩

/-- An agent that comes to be in no call is inside no lifecycle call and no set_function. -/
theorem regular_of_noCall {c : Config} {a b : Agent} (h : a.Regular c) (hk : b.kind = a.kind)
    (hb : ∀ k, b.status ≠ .inCall k) : b.noLifecycleTask ∧ b.Regular c :=
  ⟨Agent.noLifecycleTask_of hb, hk ▸ h.kind, fun _ => hb _, fun _ _ _ _ he => absurd he (hb _)⟩

/-- An agent that waits in a caller's call is as it should be. -/
theorem regular_of_callerTask {c : Config} {a b : Agent} {k : Task} (h : a.Regular c)
    (hk : b.kind = a.kind) (hb : b.status = .inCall k) (hop : k.op ∈ callerOps)
    (hf : k.Formed c) : b.noLifecycleTask ∧ b.Regular c := by
  have hne : k.op ≠ .startup ∧ k.op ≠ .teardown ∧ k.op ≠ .setFunction := by
    refine ⟨?_, ?_, ?_⟩ <;> rintro he <;> rw [he] at hop <;> exact absurd hop (by decide)
  obtain ⟨h1, h2, h3⟩ := hne
  refine ⟨⟨fun t he => h1 ?_, fun t he => h2 ?_⟩, hk ▸ h.kind, fun t he => h3 ?_,
    fun id n off p he => hf.2 id n off p ?_⟩ <;> cases hb.symm.trans he <;> rfl

/-- No effect of a caller's operation leaves what is beside the block. -/
theorem beside_closed {o : Op} (ho : o ∈ callerOps) (s₀ : State) :
    Closed s₀.Beside True o := by
  have no : ∀ p : Prop, o ∉ callerOps → p := fun _ hn => absurd ho hn
  intro s t he h
  have same : ∀ {u : State}, s.SameBlock u → u.current = s.current → u.agents = s.agents →
      s₀.Beside u := fun hb hc ha => h.congr hb hc ha
  cases he with
  | ret r => exact h.update _ fun a ha => regular_of_noCall ha rfl fun k hk => nomatch hk
  | park k hop hk =>
    have hcfg : k.Formed s₀.cfg := h.block.cfg ▸ hk
    exact h.update _ fun a ha => regular_of_callerTask ha rfl rfl (hop ▸ ho) hcfg
  | raise f n =>
    exact (h.update (fun a => { a with status := .stopped f n }) fun a ha =>
      regular_of_noCall ha rfl fun k hk => nomatch hk).congr ⟨rfl, rfl, rfl, rfl, rfl, rfl⟩ rfl rfl
  | refuse r =>
    exact (h.update (fun a => { a with status := .stuck r }) fun a ha =>
      regular_of_noCall ha rfl fun k hk => nomatch hk).congr ⟨rfl, rfl, rfl, rfl, rfl, rfl⟩ rfl rfl
  | writeFsel off w hw => rcases hw with rfl | rfl | rfl <;> exact no _ (by decide)
  | writeLatch off w _ hoff =>
    have hfsel : (s.afterWrite off w).fsel = s.fsel := by rcases hoff with rfl | rfl <;> rfl
    exact same ⟨by simp, by simp, by simp, by simp, by simp, hfsel⟩ (by simp) (by simp)
  | map x hw => rcases hw with rfl | rfl <;> exact no _ (by decide)
  | unmap hw => rcases hw with rfl | rfl | rfl <;> exact no _ (by decide)
  | register k b hw => rcases hw with rfl | rfl | rfl | rfl <;> exact no _ (by decide)
  | phase p hw => rcases hw with rfl | rfl <;> exact no _ (by decide)
  | _ => exact same ⟨by simp, by simp, by simp, by simp, by simp, by simp⟩ (by simp) (by simp)

/-- What is beside an orderly state, by an agent inside no lifecycle call, is orderly. -/
theorem State.Orderly.of_beside {s t : State} {a : Agent} (h : s.Orderly) (ha : s.agent = some a)
    (hno : a.noLifecycleTask) (hb : s.Beside t) : t.Orderly := by
  refine h.transfer hb.block fun j => ?_
  by_cases hj : j = s.current
  · subst hj
    obtain ⟨b, hb', hfree, hreg⟩ := hb.own
    exact .inr ⟨a, b, ha, by rw [← hb.current]; exact hb', hno, hfree, hreg⟩
  · exact .inl (hb.others j hj)

/-! ### A lifecycle call -/

/-- The agents around a lifecycle call of the current one: no other is inside a lifecycle call, and
each is of the spec's own kinds. -/
structure State.Attended (s : State) : Prop where
  valid : s.cfg.valid = true
  current : ∃ a, s.agent = some a ∧ a.kind ≠ .block
  regular : ∀ j a, j ≠ s.current → s.agents[j]? = some a → a.Regular s.cfg
  only : s.onlyAgent s.current

theorem State.Attended.congr {s t : State} (h : s.Attended) (hc : t.cfg = s.cfg)
    (hcur : t.current = s.current) (ha : t.agents = s.agents) : t.Attended where
  valid := hc ▸ h.valid
  current := by
    unfold State.agent
    rw [ha, hcur]
    exact h.current
  regular := by
    rw [hc, hcur, ha]
    exact h.regular
  only := by
    unfold State.onlyAgent
    rw [hcur, ha]
    exact h.only

/-- An orderly state whose current agent is the one inside a lifecycle call, if any is, is attended. -/
theorem State.Orderly.attended {s : State} {a : Agent} (h : s.Orderly) (ha : s.agent = some a)
    (honly : s.onlyAgent s.current) : s.Attended :=
  ⟨h.valid, ⟨a, ha, (h.agents a (List.mem_of_getElem? ha)).kind⟩,
    fun _ b _ hj => h.agents b (List.mem_of_getElem? hj), honly⟩

/-- After an update of its own agent, an attended state is orderly where its phase says what holds. -/
theorem State.Attended.orderly {s : State} {f : Agent → Agent} (h : s.Attended)
    (hf : ∀ a : Agent, a.kind ≠ .block → (f a).Regular s.cfg)
    (hphase : (s.updateAgent f).phaseOk) : (s.updateAgent f).Orderly := by
  refine ⟨h.valid, fun b hb => ?_, hphase⟩
  obtain ⟨j, hj⟩ := List.mem_iff_getElem?.mp hb
  by_cases hc : j = s.current
  · subst hc
    obtain ⟨a, ha, hk⟩ := h.current
    have hfa : (s.updateAgent f).agent = some (f a) := by rw [agent_updateAgent, ha]; rfl
    cases hj.symm.trans hfa
    exact hf a hk
  · rw [agents_updateAgent_other s f j hc] at hj
    exact h.regular j b hc hj

/-- After an update of its own agent to one inside no lifecycle call, nobody is inside one. -/
theorem State.Attended.free {s : State} {f : Agent → Agent} (h : s.Attended)
    (hf : ∀ a : Agent, (f a).noLifecycleTask) :
    ∀ b ∈ (s.updateAgent f).agents, b.noLifecycleTask := by
  intro b hb
  obtain ⟨j, hj⟩ := List.mem_iff_getElem?.mp hb
  by_cases hc : j = s.current
  · subst hc
    obtain ⟨a, ha, -⟩ := h.current
    have hfa : (s.updateAgent f).agent = some (f a) := by rw [agent_updateAgent, ha]; rfl
    cases hj.symm.trans hfa
    exact hf a
  · rw [agents_updateAgent_other s f j hc] at hj
    exact h.only j b hc hj

/-- An agent of the spec's own kinds in no call is regular. -/
theorem regular_of_kind {c : Config} {b : Agent} (hk : b.kind ≠ .block)
    (hb : ∀ k, b.status ≠ .inCall k) : b.Regular c :=
  ⟨hk, fun _ => hb _, fun _ _ _ _ he => absurd he (hb _)⟩

/-- A lifecycle call that returns to Absent with nothing left leaves an orderly state. -/
theorem State.Attended.absent {s : State} (h : s.Attended) (hp : s.phase = .absent)
    (hun : s.unmappedWith false false) (r : Result) : (s.ret r).Orderly := by
  refine h.orderly (fun a hk => regular_of_kind hk fun k he => nomatch he) ?_
  unfold State.phaseOk
  rw [updateAgent_phase, hp]
  exact ⟨hun, h.free fun a => Agent.noLifecycleTask_of fun k he => nomatch he⟩

/-- A startup that returns Running with everything in place leaves an orderly state. -/
theorem State.Attended.running {s : State} (h : s.Attended) (hp : s.phase = .running)
    (hmap : s.mappedWith true true) (hconf : s.configured) (r : Result) : (s.ret r).Orderly := by
  refine h.orderly (fun a hk => regular_of_kind hk fun k he => nomatch he) ?_
  unfold State.phaseOk
  rw [updateAgent_phase, hp]
  exact ⟨⟨hmap, hconf⟩, h.free fun a => Agent.noLifecycleTask_of fun k he => nomatch he⟩

/-- No other agent than the current one is touched by an update of it. -/
theorem onlyAgent_updateAgent {s : State} {f : Agent → Agent} (h : s.onlyAgent s.current) :
    (s.updateAgent f).onlyAgent s.current := fun j a hj ha =>
  h j a hj (agents_updateAgent_other s f j hj ▸ ha)

/-- A startup of the current agent is in progress, at its next atomic step t. -/
structure State.Starting (s : State) (t : StartupTask) : Prop where
  attended : s.Attended
  phase : s.phase = .starting
  stage : s.startupStage t

/-- A teardown of the current agent is in progress, at its next atomic step t. -/
structure State.Stopping (s : State) (t : TeardownTask) : Prop where
  attended : s.Attended
  phase : s.phase = .stopping
  stage : s.teardownStage t

/-- A startup that waits leaves an orderly state. -/
theorem State.Starting.park {s : State} {t : StartupTask} (h : s.Starting t) :
    (s.park (.startup t)).Orderly := by
  obtain ⟨a, ha, hk⟩ := h.attended.current
  refine h.attended.orderly
    (fun a hk => ⟨hk, fun _ he => (nomatch he), fun _ _ _ _ he => (nomatch he)⟩) ?_
  unfold State.phaseOk
  rw [updateAgent_phase, h.phase]
  refine ⟨s.current, { a with status := .inCall (.startup t) }, t, ?_, rfl, h.stage,
    onlyAgent_updateAgent h.attended.only⟩
  have := agent_updateAgent s fun a => { a with status := .inCall (.startup t) }
  rw [ha] at this
  exact this

/-- A teardown that waits leaves an orderly state. -/
theorem State.Stopping.park {s : State} {t : TeardownTask} (h : s.Stopping t) :
    (s.park (.teardown t)).Orderly := by
  obtain ⟨a, ha, hk⟩ := h.attended.current
  refine h.attended.orderly
    (fun a hk => ⟨hk, fun _ he => (nomatch he), fun _ _ _ _ he => (nomatch he)⟩) ?_
  unfold State.phaseOk
  rw [updateAgent_phase, h.phase]
  refine ⟨s.current, { a with status := .inCall (.teardown t) }, t, ?_, rfl, h.stage,
    onlyAgent_updateAgent h.attended.only⟩
  have := agent_updateAgent s fun a => { a with status := .inCall (.teardown t) }
  rw [ha] at this
  exact this

/-- An orderly state whose current agent is inside a startup is at that startup's stage. -/
theorem State.Orderly.starting {s : State} {a : Agent} {t : StartupTask} (h : s.Orderly)
    (ha : s.agent = some a) (ht : a.status = .inCall (.startup t)) : s.Starting t := by
  have hp := h.phase
  have hmem := List.mem_of_getElem? ha
  unfold State.phaseOk at hp
  cases hph : s.phase with
  | absent =>
    rw [hph] at hp
    exact absurd ht ((hp.2 a hmem).1 t)
  | running =>
    rw [hph] at hp
    exact absurd ht ((hp.2 a hmem).1 t)
  | starting =>
    rw [hph] at hp
    obtain ⟨i, b, k, hi, hk, hstage, honly⟩ := hp
    have hcur : s.current = i := by
      by_contra hne
      exact (honly s.current a hne ha).1 t ht
    subst hcur
    cases hi.symm.trans ha
    cases ht.symm.trans hk
    exact ⟨h.attended ha honly, hph, hstage⟩
  | stopping =>
    rw [hph] at hp
    obtain ⟨i, b, k, hi, hk, -, honly⟩ := hp
    have hcur : s.current = i := by
      by_contra hne
      exact (honly s.current a hne ha).1 t ht
    subst hcur
    cases hi.symm.trans ha
    cases ht.symm.trans hk

/-- An orderly state whose current agent is inside a teardown is at that teardown's stage. -/
theorem State.Orderly.stopping {s : State} {a : Agent} {t : TeardownTask} (h : s.Orderly)
    (ha : s.agent = some a) (ht : a.status = .inCall (.teardown t)) : s.Stopping t := by
  have hp := h.phase
  have hmem := List.mem_of_getElem? ha
  unfold State.phaseOk at hp
  cases hph : s.phase with
  | absent =>
    rw [hph] at hp
    exact absurd ht ((hp.2 a hmem).2 t)
  | running =>
    rw [hph] at hp
    exact absurd ht ((hp.2 a hmem).2 t)
  | starting =>
    rw [hph] at hp
    obtain ⟨i, b, k, hi, hk, -, honly⟩ := hp
    have hcur : s.current = i := by
      by_contra hne
      exact (honly s.current a hne ha).2 t ht
    subst hcur
    cases hi.symm.trans ha
    cases ht.symm.trans hk
  | stopping =>
    rw [hph] at hp
    obtain ⟨i, b, k, hi, hk, hstage, honly⟩ := hp
    have hcur : s.current = i := by
      by_contra hne
      exact (honly s.current a hne ha).2 t ht
    subst hcur
    cases hi.symm.trans ha
    cases ht.symm.trans hk
    exact ⟨h.attended ha honly, hph, hstage⟩

/-! ### The stages of a startup -/

/-- Every pin of a valid configuration is in range (00_scope.md R9). -/
theorem slotPin_lt {c : Config} (h : c.valid = true) (k : ConfigSlot) : slotPin c k < numPins := by
  obtain ⟨-, -, -, h1, h2, h3⟩ := (valid_iff c).mp h
  unfold numPins
  cases k <;> simp only [slotPin] <;> omega

/-- A write-back of a word whose pin bits are those stored changes one field (41_pin_control.md R150). -/
theorem field_store_withField_of_mask (f : Fsel) {p q : Nat} (m : BitVec 3) {w : Word}
    (hq : q < numPins) (hw : w &&& fselPinMask (fselIndex p) = f.word (fselIndex p)) :
    (f.store (fselIndex p) (withField w p m)).field q = if q = p then m else f.field q := by
  rw [field_store _ _ _ _ hq]
  by_cases h : q = p
  · subst h
    simp [fieldOf_withField_same]
  · rw [if_neg h]
    split
    case isFalse => rfl
    case isTrue hk =>
      rw [fieldOf_withField_other _ _ _ _ hk h, ← fieldOf_and_mask _ _ hq, hk, hw, ← hk]
      rfl

/-- The pin bits of the word a read of a pin's FSEL register gives are those stored. -/
theorem memValue_and_mask (s : State) {p : Nat} (hp : p < numPins) :
    s.memValue (fselOffset p) &&& fselPinMask (fselIndex p) = s.fsel.word (fselIndex p) := by
  have hk : fselIndex p < 6 := by
    unfold numPins at hp
    unfold fselIndex
    omega
  rw [fselOffset, memValue_fsel s _ hk, fselReadWord_and_mask]

/-- What is configured once a pin's field has been written (46_lifecycle.md R270). -/
theorem configured_after {s : State} {c : ConfigSlot} {f : Fsel} (hv : s.cfg.valid = true)
    (h : s.configuredBefore c)
    (hf : ∀ q, q < numPins →
      f.field q = if q = slotPin s.cfg c then slotMode c else s.fsel.field q) :
    match c with
    | .input1 => State.configuredBefore { s with fsel := f } .input2
    | .input2 => State.configuredBefore { s with fsel := f } .output
    | .output => State.configured { s with fsel := f } := by
  obtain ⟨h12, h1o, h2o, -, -, -⟩ := (valid_iff s.cfg).mp hv
  have f1 := hf _ (slotPin_lt hv .input1)
  have f2 := hf _ (slotPin_lt hv .input2)
  have fo := hf _ (slotPin_lt hv .output)
  cases c with
  | input1 => simpa [State.configuredBefore, slotPin, slotMode] using f1
  | input2 =>
    have h' : s.fsel.field s.cfg.inputPin1 = modeInput := h
    simp only [slotPin, slotMode, if_neg h12, h', if_pos] at f1 f2
    exact ⟨f1, f2⟩
  | output =>
    obtain ⟨h1, h2⟩ := h
    simp only [slotPin, slotMode, if_neg h1o, if_neg h2o, h1, h2, if_pos] at f1 f2 fo
    exact ⟨f1, f2, fo⟩

/-- A mapped state has a mapping. -/
theorem State.mappedWith.ne_none {s : State} {b c : Bool} (h : s.mappedWith b c) :
    s.mapping ≠ none :=
  Option.isSome_iff_ne_none.mp h.1

/-- Each atomic step of a startup goes through, to its next stage or to an orderly end. -/
theorem State.Starting.leads {s : State} {t : StartupTask} (h : s.Starting t) :
    (startupAdvance t s).Leads (fun u v => v.Starting u) State.Orderly s := by
  obtain ⟨hatt, hph, hst⟩ := h
  have goes : ∀ {u : StartupTask} {v : State}, v.cfg = s.cfg → v.current = s.current →
      v.agents = s.agents → v.phase = .starting → v.startupStage u → v.Starting u :=
    fun hc hcur ha hp hstage => ⟨hatt.congr hc hcur ha, hp, hstage⟩
  cases t with
  | map =>
    obtain ⟨hm, hsig, hled⟩ := hst
    cases hd : asBool (s.peek 0) with
    | true =>
      rw [startupAdvance_map_ok s hm hd]
      exact goes rfl rfl rfl hph ⟨⟨rfl, hsig, hled⟩, trivial⟩
    | false =>
      rw [startupAdvance_map_failed s hm hd]
      exact goes rfl rfl rfl hph ⟨hm, hsig, hled⟩
  | readFsel c =>
    obtain ⟨hmap, hbefore⟩ := hst
    have hp := slotPin_lt hatt.valid c
    rw [startupAdvance_readFsel_ok s c hmap.ne_none hp]
    exact goes rfl rfl rfl hph ⟨hmap, hbefore, memValue_and_mask s hp⟩
  | writeFsel c w =>
    obtain ⟨hmap, hbefore, hw⟩ := hst
    have hp := slotPin_lt hatt.valid c
    have hconf := configured_after hatt.valid hbefore fun q hq =>
      field_store_withField_of_mask s.fsel (slotMode c) hq hw
    rw [startupAdvance_writeFsel_ok s c w hmap.ne_none hp, afterWrite_fselOffset s _ _ hp]
    refine goes rfl rfl rfl hph ?_
    cases c <;> exact ⟨hmap, hconf⟩
  | selectFirst => exact goes rfl rfl rfl hph hst
  | registerSig =>
    obtain ⟨⟨hm, hsig, hled⟩, hconf⟩ := hst
    rw [startupAdvance_registerSig s hsig]
    split
    · exact goes rfl rfl rfl hph ⟨⟨hm, rfl, hled⟩, hconf⟩
    · exact goes rfl rfl rfl hph ⟨hm, hsig, hled⟩
  | registerLed =>
    obtain ⟨⟨hm, hsig, hled⟩, hconf⟩ := hst
    rw [startupAdvance_registerLed s hled]
    split
    · exact goes rfl rfl rfl hph ⟨⟨hm, hsig, rfl⟩, hconf⟩
    · exact goes rfl rfl rfl hph ⟨hm, hsig, hled⟩
  | enterRunning =>
    obtain ⟨hmap, hconf⟩ := hst
    exact State.Attended.running (s := { s with phase := .running }) (hatt.congr rfl rfl rfl) rfl hmap
      hconf .ok
  | rollbackSig =>
    obtain ⟨hm, hsig, hled⟩ := hst
    rw [startupAdvance_rollbackSig_ok s hsig]
    exact goes rfl rfl rfl hph ⟨hm, rfl, hled⟩
  | rollbackMap =>
    obtain ⟨hm, hsig, hled⟩ := hst
    rw [startupAdvance_rollbackMap_ok s (State.mappedWith.ne_none ⟨hm, hsig, hled⟩)]
    exact goes rfl rfl rfl hph ⟨rfl, hsig, hled⟩
  | enterAbsent e =>
    exact State.Attended.absent (s := { s with phase := .absent }) (hatt.congr rfl rfl rfl) rfl hst _

/-- A startup, from any of its steps, leaves an orderly state. -/
theorem run_startup_orderly {s : State} {r : Reply (Progress StartupTask)}
    (hr : r.Leads (fun u v => v.Starting u) State.Orderly s) :
    (runCall Task.startup startupAdvance callSteps s r).Orderly :=
  runCall_leads _ _
    (fun _ s h => ⟨h.attended.congr (by simp) (by simp) (by simp), by simpa using h.phase,
      State.SameBlock.startupStage ⟨by simp, by simp, by simp, by simp, by simp, by simp⟩ h.stage⟩)
    (fun _ _ h => h.park) (fun _ _ h => h.leads) callSteps s r hr

/-! ### The stages of a teardown -/

/-- The output pin of a valid configuration can be driven (00_scope.md R9). -/
theorem outputPin_lt {c : Config} (h : c.valid = true) : c.outputPin < levelPins :=
  ((valid_iff c).mp h).2.2.2.2.2

/-- Each atomic step of a teardown goes through, to its next stage or to an orderly end, and raises
no fault. -/
theorem State.Stopping.leads {s : State} {t : TeardownTask} (h : s.Stopping t)
    {f : List (FaultCode × Nat)} (hf : s.faults = f) :
    (teardownAdvance t s).Leads (fun u v => v.Stopping u ∧ v.faults = f)
      (fun v => v.Orderly ∧ v.faults = f) s := by
  obtain ⟨hatt, hph, hst⟩ := h
  cases t with
  | driveLow =>
    obtain ⟨hmap, hconf⟩ := hst
    rw [teardownAdvance_driveLow_ok s hmap.ne_none (outputPin_lt hatt.valid) hconf.2.2]
    exact ⟨⟨hatt.congr rfl rfl rfl, hph, hmap⟩, hf⟩
  | unmap =>
    rw [teardownAdvance_unmap_ok s hst.ne_none]
    exact ⟨⟨hatt.congr rfl rfl rfl, hph, rfl, hst.2⟩, hf⟩
  | deregisterSig =>
    obtain ⟨hm, hsig, hled⟩ := hst
    rw [teardownAdvance_deregisterSig_ok s hsig]
    exact ⟨⟨hatt.congr rfl rfl rfl, hph, hm, rfl, hled⟩, hf⟩
  | deregisterLed =>
    obtain ⟨hm, hsig, hled⟩ := hst
    rw [teardownAdvance_deregisterLed_ok s hled]
    exact ⟨⟨hatt.congr rfl rfl rfl, hph, hm, hsig, rfl⟩, hf⟩
  | enterAbsent =>
    exact ⟨State.Attended.absent (s := { s with phase := .absent }) (hatt.congr rfl rfl rfl) rfl hst
      .ok, hf⟩

/-- A teardown, from any of its steps, leaves an orderly state and raises no fault. -/
theorem run_teardown_orderly {s : State} {f : List (FaultCode × Nat)}
    {r : Reply (Progress TeardownTask)}
    (hr : r.Leads (fun u v => v.Stopping u ∧ v.faults = f) (fun v => v.Orderly ∧ v.faults = f) s) :
    (runCall Task.teardown teardownAdvance callSteps s r).Orderly ∧
      (runCall Task.teardown teardownAdvance callSteps s r).faults = f :=
  runCall_leads (Post := fun v => v.Orderly ∧ v.faults = f) _ _
    (fun _ s ⟨h, hf⟩ => ⟨⟨h.attended.congr (by simp) (by simp) (by simp), by simpa using h.phase,
      State.SameBlock.teardownStage ⟨by simp, by simp, by simp, by simp, by simp, by simp⟩ h.stage⟩,
      by simpa using hf⟩)
    (fun _ _ ⟨h, hf⟩ => ⟨h.park, hf⟩) (fun _ _ ⟨h, hf⟩ => h.leads hf) callSteps s r hr

/-! ### Calls that are issued -/

/-- An agent of the spec's own kinds issues a caller's row, a startup or a teardown
(30_encoding.md R94). -/
theorem mayIssue_cases {k : AgentKind} {o : Op} (h : mayIssue k o = true) (hk : k ≠ .block) :
    o ∈ callerOps ∨ o = .startup ∨ o = .teardown := by
  revert h hk
  cases k <;> cases o <;> decide

/-- A call with no operands is the only one of its row. -/
theorem eq_startup_of_op {i : Instr} (h : i.op = .startup) : i = .startup := by
  cases i with
  | startup => rfl
  | _ => cases h

/-- A call with no operands is the only one of its row. -/
theorem eq_teardown_of_op {i : Instr} (h : i.op = .teardown) : i = .teardown := by
  cases i with
  | teardown => rfl
  | _ => cases h

/-- Where no agent is inside a lifecycle call, none but the current one is. -/
theorem onlyAgent_of_free {s : State} (h : ∀ a ∈ s.agents, a.noLifecycleTask) (i : Nat) :
    s.onlyAgent i := fun _ _ _ hj => h _ (List.mem_of_getElem? hj)

/-- A startup issued in an orderly state opens its first stage, or is refused. -/
theorem startupStart_leads {s : State} {a : Agent} (h : s.Orderly) (ha : s.agent = some a)
    (hno : a.noLifecycleTask) :
    (startupStart s).Leads (fun u v => v.Starting u) State.Orderly s := by
  unfold startupStart
  split
  · exact h.of_beside ha hno (beside_closed (o := .sigOpen) (by decide) s _ _ (.refuse s _)
      (.refl h ha hno))
  · next hp =>
    have hphase := h.phase
    rw [State.phaseOk, not_not.mp hp] at hphase
    obtain ⟨hun, hfree⟩ := hphase
    exact ⟨(h.attended ha (onlyAgent_of_free hfree _)).congr rfl rfl rfl, rfl, hun⟩

/-- A teardown issued in an orderly state opens its first stage, or is refused. -/
theorem teardownStart_leads {s : State} {a : Agent} (h : s.Orderly) (ha : s.agent = some a)
    (hno : a.noLifecycleTask) :
    (teardownStart s).Leads (fun u v => v.Stopping u ∧ v.faults = s.faults)
      (fun v => v.Orderly ∧ v.faults = s.faults) s := by
  unfold teardownStart
  split
  · exact ⟨h.of_beside ha hno (beside_closed (o := .sigOpen) (by decide) s _ _ (.refuse s _)
      (.refl h ha hno)), rfl⟩
  · next hp =>
    have hphase := h.phase
    rw [State.phaseOk, not_not.mp hp] at hphase
    obtain ⟨⟨hmap, hconf⟩, hfree⟩ := hphase
    exact ⟨⟨(h.attended ha (onlyAgent_of_free hfree _)).congr rfl rfl rfl, rfl, hmap, hconf⟩, rfl⟩

/-- A call in progress of an orderly state's agent, gone on with, leaves an orderly state. -/
theorem State.Orderly.resumed {s : State} {a : Agent} {k : Task} (h : s.Orderly)
    (ha : s.agent = some a) (hk : a.status = .inCall k) : (resume k s).Orderly := by
  have hreg := h.agents a (List.mem_of_getElem? ha)
  have caller : k.op ∈ callerOps → k.pinTested s.cfg → a.noLifecycleTask →
      (resume k s).Orderly := fun hop ht hno =>
    h.of_beside ha hno (resume_closed (beside_closed hop s) (fun _ => ht) (.refl h ha hno))
  cases k with
  | setFunction t => exact absurd hk (hreg.noSetFunction t)
  | startup t => exact run_startup_orderly (h.starting ha hk).leads
  | teardown t => exact (run_teardown_orderly ((h.stopping ha hk).leads rfl)).1
  | sigRead t =>
    exact caller (show Op.sigRead ∈ callerOps by decide) trivial
      ⟨fun _ he => (nomatch hk.symm.trans he), fun _ he => (nomatch hk.symm.trans he)⟩
  | sigWrite t =>
    exact caller (show Op.sigWrite ∈ callerOps by decide) trivial
      ⟨fun _ he => (nomatch hk.symm.trans he), fun _ he => (nomatch hk.symm.trans he)⟩
  | ledWrite t =>
    exact caller (show Op.ledWrite ∈ callerOps by decide) trivial
      ⟨fun _ he => (nomatch hk.symm.trans he), fun _ he => (nomatch hk.symm.trans he)⟩

/-- Settles O54: the call a step issues or goes on with is a caller's, which leaves the block beside,
or a startup or a teardown, whose stages lead to one another. -/
theorem stepKeepsOrder : Obligations.StepKeepsOrder := by
  intro s t hs h
  have hs' : s.settle.Orderly := settle_keeps (fun _ h => State.Orderly.rescheduled h) s hs
  obtain ⟨a, ha, ⟨k, hk, rfl⟩ | ⟨r, hr, -, rfl⟩ | ⟨i, u, hr, hi, hu, rfl⟩⟩ := step_cases h
  · exact (hs'.resumed ha hk).rescheduled
  all_goals
    have hno : a.noLifecycleTask := Agent.noLifecycleTask_of fun k hk => nomatch hr.symm.trans hk
    have hself := State.Beside.refl hs' ha hno
  · exact (hs'.of_beside ha hno (beside_closed (o := .sigOpen) (by decide) _ _ _ (.refuse _ r)
      hself)).rescheduled
  · have hkind := (hs'.agents a (List.mem_of_getElem? ha)).kind
    refine State.Orderly.rescheduled ?_
    rcases mayIssue_cases (issue_call hi).2 hkind with hop | hop | hop
    · exact hs'.of_beside ha hno (exec_closed (beside_closed hop _) hu hself)
    · obtain rfl := eq_startup_of_op hop
      obtain rfl := Host.Outcome.next.inj hu
      exact run_startup_orderly (startupStart_leads hs' ha hno)
    · obtain rfl := eq_teardown_of_op hop
      obtain rfl := Host.Outcome.next.inj hu
      exact (run_teardown_orderly (teardownStart_leads hs' ha hno)).1

end Sys2Proof.Machine
end

section
/-!
No step from an orderly Running state raises a fault (60_exceptions.md R311, R313, R314): every access
a caller's call makes there is mapped, senses a configured input or drives the configured output.
-/

namespace Sys2Proof.Machine

/-- What a Running block offers every access: a valid configuration, a mapping and its configured
output, with the fault record unchanged from f. -/
structure State.Calm (f : List (FaultCode × Nat)) (s : State) : Prop where
  valid : s.cfg.valid = true
  mapped : s.mapping ≠ none
  output : s.fsel.field s.cfg.outputPin = modeOutput
  faults : s.faults = f

theorem State.Calm.congr {f : List (FaultCode × Nat)} {s t : State} (h : s.Calm f)
    (hc : t.cfg = s.cfg) (hm : t.mapping = s.mapping) (hs : t.fsel = s.fsel)
    (hf : t.faults = s.faults) : t.Calm f where
  valid := hc ▸ h.valid
  mapped := hm ▸ h.mapped
  output := by rw [hs, hc]; exact h.output
  faults := hf.trans h.faults

/-- An orderly Running state is calm. -/
theorem State.Orderly.calm {s : State} (h : s.Orderly) (hp : s.phase = .running) :
    s.Calm s.faults := by
  have hphase := h.phase
  rw [State.phaseOk, hp] at hphase
  obtain ⟨⟨hmap, -, -, hout⟩, -⟩ := hphase
  exact ⟨h.valid, hmap.ne_none, hout, rfl⟩

/-- The reply is no fault. -/
def Reply.NoRaise {α : Type} (r : Reply α) : Prop := ∀ f n, r ≠ .raise f n

theorem Reply.NoRaise.map {α β : Type} {r : Reply α} (h : r.NoRaise) (g : α → β) :
    (r.map g).NoRaise := by
  intro f n he
  cases r with
  | raise f' n' => exact h f' n' rfl
  | ok a s => cases he
  | error e s => cases he
  | refuse r => cases he

/-- A call of one atomic step that raises nothing leaves the fault record as its step does. -/
theorem finish_faults {f : List (FaultCode × Nat)} {s : State} {r : Reply Result}
    (hs : s.faults = f) (hr : r.Keeps (fun u => u.faults = f)) (hn : r.NoRaise) :
    (finish s r).faults = f := by
  cases r with
  | raise f' n => exact absurd rfl (hn f' n)
  | ok r s' => exact hr
  | error e s' => exact hr
  | refuse r => exact hs

section calls
variable {f : List (FaultCode × Nat)} {s : State}

/-- A call whose atomic steps raise nothing in a calm state leaves the fault record as it is. -/
theorem runCall_faults {τ : Type} (toTask : τ → Task) (advance : τ → State → Reply (Progress τ))
    (hadv : ∀ t s, s.Calm f → (toTask t).Formed s.cfg →
      (advance t s).Keeps (State.Calm f) ∧ (advance t s).NoRaise)
    (hnext : ∀ t s, (advance t s).GoesOnFormed toTask) {n : Nat} {r : Reply (Progress τ)}
    (hs : s.Calm f) (hr : r.Keeps (State.Calm f) ∧ r.NoRaise) (hf : r.GoesOnFormed toTask) :
    (runCall toTask advance n s r).faults = f := by
  have lead : ∀ (s : State) (r : Reply (Progress τ)), s.Calm f →
      r.Keeps (State.Calm f) ∧ r.NoRaise → r.GoesOnFormed toTask →
      r.Leads (fun t s => s.Calm f ∧ (toTask t).Formed s.cfg) (fun u => u.faults = f) s := by
    intro s r hs ⟨hk, hn⟩ hf
    rcases r with ⟨t | r, s'⟩ | ⟨e, s'⟩ | ⟨g, i⟩ | r
    · exact ⟨hk, hf t s' rfl⟩
    · exact hk.faults
    · exact hk.faults
    · exact absurd rfl (hn g i)
    · exact hs.faults
  exact runCall_leads (Post := fun u => u.faults = f) toTask advance
    (fun t s h => ⟨h.1.congr (by simp) (by simp) (by simp) (by simp), by simpa using h.2⟩)
    (fun t s h => h.1.faults) (fun t s h => lead s _ h.1 (hadv t s h.1 h.2) (hnext t s)) n s r
    (lead s r hs hr hf)

theorem State.Calm.skip (h : s.Calm f) : (s.skip 1).Calm f := h.congr rfl rfl rfl rfl

/-- A configured input can be sensed (00_scope.md R9). -/
theorem input_lt {c : Config} (h : c.valid = true) {p : Nat}
    (hp : p = c.inputPin1 ∨ p = c.inputPin2) : p < levelPins := by
  obtain ⟨-, -, -, h1, h2, -⟩ := (valid_iff c).mp h
  unfold levelPins
  omega

/-- The steps of a sig.read in a calm state (43_signal_endpoint.md R196). -/
theorem sigReadAdvance_calm (t : SigReadTask) (h : s.Calm f)
    (ht : (Task.sigRead t).Formed s.cfg) :
    (sigReadAdvance t s).Keeps (State.Calm f) ∧ (sigReadAdvance t s).NoRaise := by
  refine ⟨sigReadAdvance_keeps t s h (fun _ h => h.congr rfl rfl rfl rfl) (fun _ h => h.skip)
    (fun _ _ _ h => h.congr (by simp) (by simp) (by simp) (by simp)), fun g n he => ?_⟩
  cases t with
  | sample id m off p =>
    have hp := input_lt h.valid (ht.2 id m off p rfl)
    simp only [sigReadAdvance, sigReadSample, readLevel_ok s p h.mapped hp] at he
    split at he <;> cases he
  | copyOut id bytes =>
    simp only [sigReadAdvance, sigReadCopy] at he
    split at he <;> cases he

/-- The selection of a sig.write in a calm state (43_signal_endpoint.md R197). -/
theorem sigWriteAdvance_calm (t : SigWriteTask) (h : s.Calm f) :
    (sigWriteAdvance t s).Keeps (State.Calm f) ∧ (sigWriteAdvance t s).NoRaise := by
  refine ⟨sigWriteAdvance_keeps t s h fun _ => h.congr rfl rfl rfl rfl, ?_⟩
  cases t
  refine Reply.NoRaise.map (fun g n he => ?_) _
  unfold selectChannel at he
  split at he <;> cases he

/-- The drive of a led.write in a calm state (44_led_endpoint.md R226). -/
theorem ledWriteAdvance_calm (t : LedWriteTask) (h : s.Calm f) :
    (ledWriteAdvance t s).Keeps (State.Calm f) ∧ (ledWriteAdvance t s).NoRaise := by
  have drives : ∀ off, off = 0x1C ∨ off = 0x28 →
      drivePin off s.cfg.outputPin s = .ok () (s.afterWrite off (pinBit s.cfg.outputPin)) :=
    fun off hoff => drivePin_ok s off _ (by rcases hoff with rfl | rfl <;> decide) h.mapped
      (outputPin_lt h.valid) h.output
  refine ⟨ledWriteAdvance_keeps t s fun off hoff => h.congr (by simp) (by simp) ?_ (by simp), ?_⟩
  · rcases hoff with rfl | rfl <;> rfl
  · cases t
    refine Reply.NoRaise.map ?_ _
    split
    · intro g n he
      cases (drives 0x28 (.inr rfl)).symm.trans he
    · intro g n he
      cases (drives 0x1C (.inl rfl)).symm.trans he

theorem run_sigRead_faults {r : Reply (Progress SigReadTask)} (hs : s.Calm f)
    (hr : r.Keeps (State.Calm f) ∧ r.NoRaise) (hf : r.GoesOnFormed .sigRead) :
    (runCall Task.sigRead sigReadAdvance callSteps s r).faults = f :=
  runCall_faults _ _ (fun t _ => sigReadAdvance_calm t) sigReadAdvance_formed hs hr hf

theorem run_sigWrite_faults {r : Reply (Progress SigWriteTask)} (hs : s.Calm f)
    (hr : r.Keeps (State.Calm f) ∧ r.NoRaise) :
    (runCall Task.sigWrite sigWriteAdvance callSteps s r).faults = f :=
  runCall_faults _ _ (fun t _ h _ => sigWriteAdvance_calm t h) (fun _ _ u _ _ => sigWrite_formed u _)
    hs hr fun u _ _ => sigWrite_formed u _

theorem run_ledWrite_faults {r : Reply (Progress LedWriteTask)} (hs : s.Calm f)
    (hr : r.Keeps (State.Calm f) ∧ r.NoRaise) :
    (runCall Task.ledWrite ledWriteAdvance callSteps s r).faults = f :=
  runCall_faults _ _ (fun t _ h _ => ledWriteAdvance_calm t h) (fun _ _ u _ _ => ledWrite_formed u _)
    hs hr fun u _ _ => ledWrite_formed u _

theorem sigReadStart_noRaise (id n : Nat) : (sigReadStart id n s).NoRaise := by
  intro g i he
  unfold sigReadStart at he
  split at he <;> cases he

theorem sigWriteStart_noRaise (id : Nat) (d : List Byte) : (sigWriteStart id d s).NoRaise := by
  intro g i he
  cases d with
  | nil =>
    unfold sigWriteStart at he
    split at he <;> cases he
  | cons b rest =>
    unfold sigWriteStart at he
    split_ifs at he

theorem ledWriteStart_noRaise (id : Nat) (d : List Byte) : (ledWriteStart id d s).NoRaise := by
  intro g i he
  unfold ledWriteStart at he
  simp only at he
  split_ifs at he
  split at he <;> cases he

theorem openSession_noRaise (k : Endpoint) : (openSession k s).NoRaise := by
  intro g i he
  unfold openSession at he
  split_ifs at he

theorem sigOpen_noRaise : (sigOpen s).NoRaise := by
  intro g i he
  unfold sigOpen at he
  split at he
  · cases he
  · exact openSession_noRaise .sig g i he

theorem sigClose_noRaise (id : Nat) : (sigClose id s).NoRaise := by
  intro g i he
  unfold sigClose at he
  split_ifs at he

theorem ledClose_noRaise (id : Nat) : (ledClose id s).NoRaise := by
  intro g i he
  unfold ledClose at he
  split_ifs at he

theorem ledRead_noRaise (id : Nat) : (ledRead id s).NoRaise := by
  intro g i he
  unfold ledRead at he
  split_ifs at he

/-- A caller's call issued in a calm state raises no fault. -/
theorem exec_caller_faults {i : Instr} {t : State} (hi : i.op ∈ callerOps) (hs : s.Calm f)
    (h : exec i s = .next t) : t.faults = f := by
  have hskip : (s.skip 1).faults = f := hs.faults
  cases i
  case sigOpen =>
    obtain rfl := Host.Outcome.next.inj h
    exact finish_faults hs.faults ((Reply.keeps_map ..).mpr (sigOpen_keeps s hskip hskip))
      (sigOpen_noRaise.map _)
  case sigRead id n =>
    obtain rfl := Host.Outcome.next.inj h
    exact run_sigRead_faults hs ⟨sigReadStart_keeps id n s hs, sigReadStart_noRaise id n⟩
      (sigReadStart_formed id n s)
  case sigWrite id d =>
    obtain rfl := Host.Outcome.next.inj h
    exact run_sigWrite_faults hs ⟨sigWriteStart_keeps id d s hs hs.skip, sigWriteStart_noRaise id d⟩
  case sigClose id =>
    obtain rfl := Host.Outcome.next.inj h
    refine finish_faults hs.faults ((Reply.keeps_map ..).mpr ?_) ((sigClose_noRaise id).map _)
    rw [sigClose_eq]
    split
    · exact hs.faults
    · trivial
  case ledOpen =>
    obtain rfl := Host.Outcome.next.inj h
    exact finish_faults hs.faults ((Reply.keeps_map ..).mpr (openSession_keeps .led s hskip hskip))
      ((openSession_noRaise .led).map _)
  case ledRead id n =>
    obtain rfl := Host.Outcome.next.inj h
    exact finish_faults hs.faults (Closed.ledRead id hs.faults) (ledRead_noRaise id)
  case ledWrite id d =>
    obtain rfl := Host.Outcome.next.inj h
    exact run_ledWrite_faults hs ⟨ledWriteStart_keeps id d s hs hs.skip, ledWriteStart_noRaise id d⟩
  case ledClose id =>
    obtain rfl := Host.Outcome.next.inj h
    refine finish_faults hs.faults ((Reply.keeps_map ..).mpr ?_) ((ledClose_noRaise id).map _)
    rw [ledClose_eq]
    split
    · exact hs.faults
    · trivial
  all_goals exact absurd hi (by simp [Instr.op, callerOps])

/-- A call in progress of an orderly Running state's agent, gone on with, raises no fault: it is a
caller's. -/
theorem resume_running_faults {a : Agent} {k : Task} (h : s.Orderly) (hp : s.phase = .running)
    (ha : s.agent = some a) (hk : a.status = .inCall k) : (resume k s).faults = s.faults := by
  have hmem := List.mem_of_getElem? ha
  have hreg := h.agents a hmem
  have hcalm := h.calm hp
  have hphase := h.phase
  rw [State.phaseOk, hp] at hphase
  have hno := hphase.2 a hmem
  cases k with
  | setFunction t => exact absurd hk (hreg.noSetFunction t)
  | startup t => exact absurd hk (hno.1 t)
  | teardown t => exact absurd hk (hno.2 t)
  | sigRead t =>
    refine run_sigRead_faults hcalm (sigReadAdvance_calm t hcalm ⟨trivial, ?_⟩)
      (sigReadAdvance_formed t s)
    intro id n off p he
    exact hreg.samples id n off p (hk.trans (congrArg _ he))
  | sigWrite t => exact run_sigWrite_faults hcalm (sigWriteAdvance_calm t hcalm)
  | ledWrite t => exact run_ledWrite_faults hcalm (ledWriteAdvance_calm t hcalm)

end calls

/-- A startup in any phase but Absent is refused (46_lifecycle.md R270). -/
theorem exec_startup_refused {s : State} (h : s.phase ≠ .absent) :
    exec .startup s = .next (s.refuse .lifecycle) := by
  change execStartup s = _
  rw [execStartup, startupStart, if_pos h, runCall_refuse]

/-- Settles O55: what a step issues or goes on with there is a caller's call, all of whose accesses
pass their tests, a teardown, whose stages do, or a startup, which is refused. -/
theorem runningRaisesNoFault : Obligations.RunningRaisesNoFault := by
  intro s t hs hp h
  have hs' : s.settle.Orderly := settle_keeps (fun _ h => State.Orderly.rescheduled h) s hs
  have hp' : s.settle.phase = .running :=
    settle_keeps (P := fun u => u.phase = .running) (fun u hu => by simpa using hu) s hp
  have hf : s.settle.faults = s.faults :=
    settle_keeps (P := fun u => u.faults = s.faults) (fun u hu => by simpa using hu) s rfl
  rw [← hf]
  obtain ⟨a, ha, ⟨k, hk, rfl⟩ | ⟨r, -, -, rfl⟩ | ⟨i, u, hr, hi, hu, rfl⟩⟩ := step_cases h
  · rw [reschedule_faults]
    exact resume_running_faults hs' hp' ha hk
  · rw [reschedule_faults, refuse_faults]
  · rw [reschedule_faults]
    have hkind := (hs'.agents a (List.mem_of_getElem? ha)).kind
    rcases mayIssue_cases (issue_call hi).2 hkind with hop | hop | hop
    · exact exec_caller_faults hop (hs'.calm hp') hu
    · obtain rfl := eq_startup_of_op hop
      rw [exec_startup_refused (by rw [hp']; exact nofun)] at hu
      obtain rfl := Host.Outcome.next.inj hu
      rfl
    · obtain rfl := eq_teardown_of_op hop
      obtain rfl := Host.Outcome.next.inj hu
      have hno : a.noLifecycleTask := Agent.noLifecycleTask_of fun k hk => nomatch hr.symm.trans hk
      exact (run_teardown_orderly (teardownStart_leads hs' ha hno)).2

end Sys2Proof.Machine
end

section
/-!
Whose turn a step is, and what it answers (10_state.md R31, 20_memory.md R70): the call issued, the
refusals before it (60_exceptions.md R315), and where there is no step.
-/

namespace Sys2Proof.Machine

open Sys2Proof.Laws

/-! ### The turn of an agent at a call boundary -/

/-- An agent at a call boundary that asks for something has an enabled step. -/
theorem enabled_of_issue {s : State} {a : Agent} (hr : a.status = .ready)
    (hi : s.issue a ≠ .exited) : a.enabled = true := by
  have hnext : a.hasNext = true := by
    rw [hasNext_iff_fetch s.cfg s.sessions]
    intro he
    exact hi (by rw [State.issue, he])
  rw [Agent.enabled, hr]
  exact hnext

/-- The step of an agent whose call is refused before any of it runs (60_exceptions.md R315). -/
theorem step_of_issue_refuse {s : State} {a : Agent} {r : RefusalReason} (ha : s.agent = some a)
    (hr : a.status = .ready) (hi : s.issue a = .refuse r) :
    step s = .next (s.refuse r).reschedule := by
  rw [step_of_enabled ha (enabled_of_issue hr (by rw [hi]; exact nofun)), agentTurn, hr]
  simp only [hi]

/-- The step of an agent whose call is performed (10_state.md R31). -/
theorem step_of_issue_call {s : State} {a : Agent} {i : Instr} (ha : s.agent = some a)
    (hr : a.status = .ready) (hi : s.issue a = .call i) :
    step s = thenReschedule (exec i s) := by
  rw [step_of_enabled ha (enabled_of_issue hr (by rw [hi]; exact nofun)), agentTurn, hr]
  simp only [hi]

/-- The step of an agent that goes on with a call in progress (20_memory.md R71). -/
theorem step_of_inCall {s : State} {a : Agent} {t : Task} (ha : s.agent = some a)
    (ht : a.status = .inCall t) : step s = .next (resume t s).reschedule := by
  rw [step_of_enabled ha (by rw [Agent.enabled, ht]), agentTurn, ht]

/-- A record an agent issues under a valid configuration is judged by its kind. -/
theorem issue_of_fetch {s : State} {a : Agent} {c : CallRecord} (hv : s.cfg.valid = true)
    (hf : a.fetch s.cfg s.sessions = .call c) : s.issue a = judge a.kind c := by
  rw [State.issue, hf]
  exact if_pos hv

/-- Under an invalid configuration whatever is asked for is refused (00_scope.md R9). -/
theorem issue_of_invalid {s : State} {a : Agent} (hv : s.cfg.valid = false)
    (hf : a.fetch s.cfg s.sessions ≠ .exited) : s.issue a = .refuse .config := by
  unfold State.issue
  split
  · contradiction
  all_goals rw [hv]; rfl

/-- A call's record is judged by who issues it (30_encoding.md R94). -/
theorem judge_encode (k : AgentKind) (i : Instr) :
    judge k (encode i) = if mayIssue k i.op then .call i else .refuse .internal := by
  rw [judge, decode_encode]

/-- Settles O3: of the 256 codes 22 are a row's, a code that is no row's selects none, and the record
is judged by its code first. -/
theorem reservedCodesRefused : Obligations.ReservedCodesRefused := by
  refine ⟨?count, fun opc ops h => decode_reserved ops h, fun s a c ha hr hv hf h => ?refused⟩
  case count => decide +kernel
  case refused =>
    refine step_of_issue_refuse ha hr ?_
    rw [issue_of_fetch hv hf, judge, decode_reserved c.operands h]

/-- Settles O8: an invalid configuration refuses whatever the program asks for. -/
theorem invalidConfigurationRefused : Obligations.InvalidConfigurationRefused := by
  intro s a ha hr hn hbad
  have hv : s.cfg.valid = false := by
    rw [Bool.eq_false_iff, Ne, valid_iff]
    omega
  exact step_of_issue_refuse ha hr
    (issue_of_invalid hv ((hasNext_iff_fetch s.cfg s.sessions a).mp hn))

/-! ### Who may issue a row (30_encoding.md R94) -/

/-- The codes a caller issues. -/
def callerCodes : List (BitVec 8) := [0xA0, 0xA1, 0xA2, 0xA3, 0xC0, 0xC1, 0xC2, 0xC3]

/-- The codes the lifecycle agent issues. -/
def lifecycleCodes : List (BitVec 8) := [0xE0, 0xE1]

/-- The codes an agent of one of the spec's kinds issues. -/
def issuedCodes : List (BitVec 8) := [0xA0, 0xA1, 0xA2, 0xA3, 0xC0, 0xC1, 0xC2, 0xC3, 0xE0, 0xE1]

theorem mayIssue_caller (o : Op) : mayIssue .caller o = true ↔ o.code ∈ callerCodes := by
  cases o <;> decide

theorem mayIssue_lifecycle (o : Op) : mayIssue .lifecycle o = true ↔ o.code ∈ lifecycleCodes := by
  cases o <;> decide

theorem mayIssue_block (o : Op) : mayIssue .block o = true ↔ o.code ∉ issuedCodes := by
  cases o <;> decide

/-- Settles O7: the code of a row its agent may not issue is in none of the agent's lists. -/
theorem internalRowsRefused : Obligations.InternalRowsRefused := by
  intro s a i ha hr hv hf hkind
  refine step_of_issue_refuse ha hr ?_
  rw [issue_of_fetch hv hf, judge_encode, if_neg]
  rcases hkind with ⟨hk, hc⟩ | ⟨hk, hc⟩
  · rw [hk, mayIssue_caller]
    exact hc
  · rw [hk, mayIssue_lifecycle]
    exact hc

/-! ### The choice of the next turn (20_memory.md R70) -/

/-- The choice of the next turn changes whose turn it is and the choices taken alone. -/
theorem reschedule_frame (s : State) :
    { s.reschedule with
      current := s.current, sched := s.sched, schedTaken := s.schedTaken } = s := by
  simp

/-- Nobody is listed as enabled exactly where no agent has an enabled step. -/
theorem enabledAgents_eq_nil (s : State) :
    s.enabledAgents = [] ↔ ∀ a ∈ s.agents, a.enabled = false := by
  constructor
  · intro h a ha
    obtain ⟨i, hi⟩ := List.mem_iff_getElem?.mp ha
    by_contra hne
    have := (mem_enabledAgents s i).mpr ⟨a, hi, Bool.eq_true_of_not_eq_false hne⟩
    rw [h] at this
    cases this
  · intro h
    rw [List.eq_nil_iff_forall_not_mem]
    intro i hi
    obtain ⟨a, ha, he⟩ := (mem_enabledAgents s i).mp hi
    rw [h a (List.mem_of_getElem? ha)] at he
    cases he

/-- Where some agent has an enabled step, the one chosen has. -/
theorem reschedule_enabled (s : State) (h : ∃ a ∈ s.agents, a.enabled = true) :
    ∃ a, s.reschedule.agent = some a ∧ a.enabled = true := by
  have hne : s.enabledAgents ≠ [] := by
    obtain ⟨a, ha, he⟩ := h
    intro hnil
    rw [(enabledAgents_eq_nil s).mp hnil a ha] at he
    cases he
  obtain ⟨a, ha, he⟩ := (mem_enabledAgents s _).mp (reschedule_current s hne)
  exact ⟨a, by simpa [State.agent] using ha, he⟩

/-- Each agent with an enabled step is chosen for some choice at the head of the queue. -/
theorem reschedule_chooses {s : State} {j : Nat} (h : j ∈ s.enabledAgents) :
    ∃ n, ∀ rest, ({ s with sched := n :: rest } : State).reschedule.current = j := by
  obtain ⟨n, hn, hj⟩ := List.getElem_of_mem h
  refine ⟨n, fun rest => ?_⟩
  have hsame : ({ s with sched := n :: rest } : State).enabledAgents = s.enabledAgents := rfl
  unfold State.reschedule
  rw [hsame]
  split
  case h_1 h0 => simp [h0] at h
  case h_2 i h1 =>
    rw [h1, List.mem_singleton] at h
    exact h.symm
  case h_3 =>
    have hpeek : ({ s with sched := n :: rest } : State).schedPeek = n := rfl
    simp only [hpeek, Nat.mod_eq_of_lt hn, List.getD_eq_getElem?_getD, List.getElem?_eq_getElem hn,
      hj, Option.getD_some]

/-- Where the current agent has an enabled step, settling changes nothing. -/
theorem settle_of_currentEnabled {s : State} (h : s.currentEnabled = true) : s.settle = s := by
  rw [State.settle, if_pos h]

/-- Settling a second time changes nothing (20_memory.md R70). -/
theorem settle_reschedule {s : State} (h : s.currentEnabled = false) :
    s.reschedule.settle = s.settle := by
  by_cases hne : s.enabledAgents = []
  · have hsame : s.reschedule = s := by simp [State.reschedule, hne]
    rw [hsame]
  · obtain ⟨a, ha, he⟩ := settle_enabled s hne
    have hs : s.settle = s.reschedule := by rw [State.settle, h]; rfl
    rw [hs] at ha ⊢
    exact settle_of_currentEnabled (by rw [State.currentEnabled, ha]; exact he)

/-- A step of an agent with no enabled step is the step after a choice (20_memory.md R70). -/
theorem step_reschedule {s : State} (h : ∀ a, s.agent = some a → a.enabled = false) :
    step s = step s.reschedule := by
  have hc : s.currentEnabled = false := by
    unfold State.currentEnabled
    cases ha : s.agent with
    | none => rfl
    | some a => exact h a ha
  unfold step turn
  rw [settle_reschedule hc]

/-- Settles O5: the record is judged to be the call its agent may issue, and the turn goes on as the
scheduler chooses. -/
theorem stepRunsDecodedCall : Obligations.StepRunsDecodedCall := by
  refine ⟨fun s a c i ha hr hv hf hd hkind => ?call, fun s => ⟨reschedule_frame s,
    reschedule_enabled s, fun j a hj he => reschedule_chooses ((mem_enabledAgents s j).mpr ⟨a, hj, he⟩),
    step_reschedule⟩⟩
  case call =>
    obtain rfl := eq_encode_of_decode hd
    have hmay : mayIssue a.kind i.op = true := by
      rcases hkind with ⟨hk, hc⟩ | ⟨hk, hc⟩ | ⟨hk, hc⟩ <;> rw [hk]
      · exact (mayIssue_caller i.op).mpr hc
      · exact (mayIssue_lifecycle i.op).mpr hc
      · exact (mayIssue_block i.op).mpr hc
    have hi : s.issue a = .call i := by rw [issue_of_fetch hv hf, judge_encode, if_pos hmay]
    obtain ⟨t, ht⟩ := exec_is_next i s
    exact ⟨t, ht, by rw [step_of_issue_call ha hr hi, ht]; rfl⟩

/-! ### Where there is no step (10_state.md R31, R55) -/

/-- An agent with no enabled step has no turn. -/
theorem agentTurn_of_disabled {s : State} {a : Agent} (h : a.enabled = false) :
    agentTurn a s = .fault s.stopReason := by
  unfold agentTurn
  unfold Agent.enabled at h
  split
  case h_1 k hk =>
    rw [hk] at h
    cases h
  case h_2 hr =>
    rw [hr] at h
    have hf : a.fetch s.cfg s.sessions = .exited := by
      by_contra hne
      exact absurd ((hasNext_iff_fetch s.cfg s.sessions a).mpr hne) (by simpa using h)
    have hi : s.issue a = .exited := by rw [State.issue, hf]
    rw [hi]
  case h_3 => rfl
  case h_4 => rfl

/-- Where nobody has an enabled step, step answers why (10_state.md R55). -/
theorem step_of_none {s : State} (h : s.enabledAgents = []) : step s = .fault s.stopReason := by
  unfold step turn
  rw [settle_of_none s h]
  split
  case h_1 a ha =>
    exact agentTurn_of_disabled ((enabledAgents_eq_nil s).mp h a (List.mem_of_getElem? ha))
  case h_2 => rfl

/-- The turn of an agent with an enabled step is no fault. -/
theorem agentTurn_ne_fault {s : State} {a : Agent} (h : a.enabled = true) (f : Fault) :
    agentTurn a s ≠ .fault f := by
  intro hf
  unfold agentTurn at hf
  split at hf
  case h_1 => cases hf
  case h_2 hr =>
    split at hf
    case h_1 i _ =>
      obtain ⟨t, ht⟩ := exec_is_next i s
      rw [ht] at hf
      cases hf
    case h_5 hi =>
      rw [Agent.enabled, hr] at h
      have hne := (hasNext_iff_fetch s.cfg s.sessions a).mp h
      unfold State.issue at hi
      split at hi
      · contradiction
      · split at hi <;> cases hi
      · split at hi <;> cases hi
      · split at hi
        · unfold judge at hi
          split at hi
          case h_4 => split at hi <;> cases hi
          all_goals cases hi
        · cases hi
    all_goals cases hf
  case h_3 hk =>
    rw [Agent.enabled, hk] at h
    cases h
  case h_4 hk =>
    rw [Agent.enabled, hk] at h
    cases h

/-- Step answers a fault exactly where nobody has an enabled step, and which one by the records. -/
theorem step_fault_iff (s : State) (f : Fault) :
    step s = .fault f ↔ s.enabledAgents = [] ∧ s.stopReason = f := by
  constructor
  · intro h
    by_cases hne : s.enabledAgents = []
    · rw [step_of_none hne] at h
      exact ⟨hne, Host.Outcome.fault.inj h⟩
    · obtain ⟨a, ha, he⟩ := settle_enabled s hne
      unfold step turn at h
      rw [ha] at h
      exact absurd h (agentTurn_ne_fault he f)
  · rintro ⟨hne, rfl⟩
    exact step_of_none hne

/-- The records of a final state are empty (10_state.md R55). -/
theorem stopReason_runComplete (s : State) :
    s.stopReason = .runComplete ↔ s.faults = [] ∧ s.refusalMark = false := by
  unfold State.stopReason
  split
  case isTrue h => exact ⟨fun _ => h, fun _ => rfl⟩
  case isFalse h => exact ⟨nofun, fun h' => absurd h' h⟩

/-! ### What has no meaning (30_encoding.md R91, 45_host_client.md R255) -/

/-- An issue that stops the machine, as step answers it. -/
theorem agentTurn_refused_iff (s : State) (a : Agent) (r : Refusal) :
    agentTurn a s = .refused r ↔ a.status = .ready ∧
      (s.issue a = .malformed ∧ r = .malformedCall ∨
        s.issue a = .foreignPath ∧ r = .foreignPath) := by
  unfold agentTurn
  split
  case h_2 hr =>
    split
    case h_1 i hi =>
      obtain ⟨t, ht⟩ := exec_is_next i s
      simp [ht, thenReschedule, hi]
    case h_3 hi => simp [hi, hr, eq_comm]
    case h_4 hi => simp [hi, hr, eq_comm]
    all_goals next hi => simp [hi]
  all_goals next hk => simp [hk]

/-- Where step answers a refusal of the model, the agent whose turn it is issued what has no
meaning. -/
theorem step_refused_iff (s : State) (r : Refusal) :
    step s = .refused r ↔ ∃ a, s.settle.agent = some a ∧ a.status = .ready ∧
      (s.settle.issue a = .malformed ∧ r = .malformedCall ∨
        s.settle.issue a = .foreignPath ∧ r = .foreignPath) := by
  unfold step turn
  cases ha : s.settle.agent with
  | none => simp
  | some a => simp [agentTurn_refused_iff]

/-- A judged record is malformed exactly where its operands are, and no foreign path. -/
theorem judge_malformed_iff (k : AgentKind) (c : CallRecord) :
    (judge k c = .malformed ↔ decode c = .error .operands) ∧ judge k c ≠ .foreignPath := by
  unfold judge
  split
  case h_4 i hi =>
    rw [hi]
    split <;> simp
  all_goals next h => simp [h]

/-- What an agent issues is malformed exactly where its record's operands are. -/
theorem issue_malformed_iff (s : State) (a : Agent) :
    s.issue a = .malformed ↔ s.cfg.valid = true ∧
      ∃ c, a.fetch s.cfg s.sessions = .call c ∧ decode c = .error .operands := by
  unfold State.issue
  split
  case h_4 c hc =>
    split
    case isTrue hv => simp [hv, hc, (judge_malformed_iff a.kind c).1]
    case isFalse hv => simp [hv]
  case h_1 hf => simp [hf]
  all_goals
    next hf =>
      rw [hf]
      split <;> simp

/-- What an agent issues is a foreign path exactly where it asks for one. -/
theorem issue_foreignPath_iff (s : State) (a : Agent) :
    s.issue a = .foreignPath ↔ s.cfg.valid = true ∧ a.fetch s.cfg s.sessions = .foreignPath := by
  unfold State.issue
  split
  case h_4 c hc =>
    rw [hc]
    split
    · simp [(judge_malformed_iff a.kind c).2]
    · simp
  case h_3 hf => simp [hf]
  case h_2 hf =>
    rw [hf]
    split <;> simp
  case h_1 hf => simp [hf]

/-- An operand list has an unbound name exactly where it holds one. -/
theorem any_isUnbound_iff (l : List Operand) :
    l.any Operand.isUnbound = false ↔ ∀ k, Operand.session (.bound k) ∉ l := by
  rw [List.any_eq_false]
  constructor
  · intro h k hk
    exact h _ hk rfl
  · intro h o ho
    cases o with
    | session r =>
      cases r with
      | bound k => exact absurd ho (h k)
      | id n => exact Bool.noConfusion
    | _ => exact Bool.noConfusion

/-- A record is malformed exactly where its code is a row's, its names are bound, and it is no call's
record (30_encoding.md R91). -/
theorem decode_operands_iff (c : CallRecord) :
    decode c = .error .operands ↔ (∃ i : Instr, (encode i).opc = c.opc) ∧
      (∀ k, Operand.session (.bound k) ∉ c.operands) ∧ ∀ i : Instr, c ≠ encode i := by
  constructor
  · intro h
    refine ⟨?listed, ?bound, ?none⟩
    case none =>
      rintro i rfl
      rw [decode_encode] at h
      cases h
    all_goals cases ho : Op.ofCode c.opc
    case listed.none | bound.none => simp [decode, ho] at h
    case listed.some o =>
      obtain ⟨i, rfl⟩ := op_surjective o
      exact ⟨i, (eq_code_of_ofCode ho).symm⟩
    case bound.some o =>
      rw [← any_isUnbound_iff]
      by_contra hb
      simp [decode, ho, Bool.eq_true_of_not_eq_false hb] at h
  · rintro ⟨⟨i, hi⟩, hb, hne⟩
    have ho : Op.ofCode c.opc = some i.op := hi ▸ ofCode_code i.op
    cases hd : decode c with
    | ok j => exact absurd (eq_encode_of_decode hd) (hne j)
    | error e =>
      rw [decode, ho] at hd
      simp only [(any_isUnbound_iff _).mpr hb, Bool.false_eq_true, if_false] at hd
      split at hd <;> cases hd
      rfl

/-- A dispatched request is a foreign path exactly where it opens one (45_host_client.md R255). -/
theorem hostDispatch_foreignPath_iff (c : Config) (tbl : List (Nat × Endpoint)) (rs : List Result)
    (r : HostRequest) :
    hostDispatch c tbl rs r = .foreignPath ↔
      ∃ p, r = .openPath p ∧ p ≠ c.sigPath ∧ p ≠ c.ledPath := by
  have onSession : ∀ h f, dispatchOn tbl rs h f ≠ .foreignPath := by
    intro h f
    unfold dispatchOn
    split
    · exact nofun
    · split <;> exact nofun
  cases r with
  | openPath p =>
    simp only [hostDispatch, endpointAt]
    by_cases h1 : p = c.sigPath
    · simp [h1]
    · by_cases h2 : p = c.ledPath
      · subst h2
        simp [h1]
      · simp [h1, h2]
  | read h n => simp [hostDispatch, onSession]
  | write h d => simp [hostDispatch, onSession]
  | close h => simp [hostDispatch, onSession]

/-- A program asks for a foreign path exactly where its next request opens one. -/
theorem fetch_foreignPath_iff (c : Config) (tbl : List (Nat × Endpoint)) (a : Agent) :
    a.fetch c tbl = .foreignPath ↔ ∃ (l : List HostRequest) (p : String), a.program = .requests l ∧
      l[a.index]? = some (.openPath p) ∧ p ≠ c.sigPath ∧ p ≠ c.ledPath := by
  unfold Agent.fetch
  cases hp : a.program with
  | calls l =>
    simp only
    split <;> simp
  | requests l =>
    simp only
    split
    case h_1 r hr => simp [hostDispatch_foreignPath_iff, hr]
    case h_2 hn => simp [hn]
  | client argv =>
    simp only [clientNext]
    split
    · simp
    · split <;> simp

/-- Settling leaves the configuration and the sessions. -/
theorem settle_cfg_sessions (s : State) :
    s.settle.cfg = s.cfg ∧ s.settle.sessions = s.sessions :=
  settle_keeps (P := fun u => u.cfg = s.cfg ∧ u.sessions = s.sessions)
    (fun u hu => by simpa using hu) s ⟨rfl, rfl⟩

/-- Settles O9: each of step's answers but a next state, by what the agent whose turn it is has
enabled and issues. -/
theorem stepStops : Obligations.StepStops := by
  refine ⟨fun s => ⟨?fault, ?complete⟩, fun s => ?malformed, fun s => ?foreign, fun s m => ?never⟩
  case fault => simp [step_fault_iff, ← enabledAgents_eq_nil]
  case complete => rw [step_fault_iff, enabledAgents_eq_nil, stopReason_runComplete]
  case malformed =>
    obtain ⟨hc, ht⟩ := settle_cfg_sessions s
    simp only [step_refused_iff, issue_malformed_iff, reduceCtorEq, and_true, and_false, or_false,
      hc, ht, decode_operands_iff]
    constructor
    · rintro ⟨a, ha, hr, hv, c, hf, hd⟩
      exact ⟨hv, a, c, ha, hr, hf, hd⟩
    · rintro ⟨hv, a, c, ha, hr, hf, hd⟩
      exact ⟨a, ha, hr, hv, c, hf, hd⟩
  case foreign =>
    obtain ⟨hc, ht⟩ := settle_cfg_sessions s
    simp only [step_refused_iff, issue_foreignPath_iff, reduceCtorEq, and_true, and_false, false_or,
      hc, ht, fetch_foreignPath_iff]
    constructor
    · rintro ⟨a, ha, hr, hv, l, p, hp⟩
      exact ⟨hv, a, l, p, ha, hr, hp⟩
    · rintro ⟨hv, a, l, p, ha, hr, hp⟩
      exact ⟨a, ha, hr, hv, l, p, hp⟩
  case never => simp [step_refused_iff]

/-! ### Returns, faults and refusals (60_exceptions.md R300 to R303) -/

/-- Settles O10: a return is an update of its own agent. -/
theorem returnAdvancesCallIndex : Obligations.ReturnAdvancesCallIndex := by
  intro s r a ha
  refine ⟨⟨{ a with results := a.results ++ [r], status := .ready }, ?_, ?_, rfl, rfl, rfl, rfl⟩,
    fun j hj => agents_updateAgent_other s _ j hj⟩
  · rw [State.ret, agent_updateAgent, ha]
    rfl
  · simp [Agent.index]

/-- Settles O11: a raise is an update of its own agent and an insertion in the record. -/
theorem raiseRecordsAndStopsAgent : Obligations.RaiseRecordsAndStopsAgent := by
  intro s f info a ha
  refine ⟨fun x => mem_faultInsert s.faults (f, info) x,
    ⟨{ a with status := .stopped f info }, ?_, rfl, rfl⟩,
    fun j hj => agents_updateAgent_other s _ j hj, rfl⟩
  have := agent_updateAgent s fun a => { a with status := .stopped f info }
  rw [ha] at this
  exact this

/-- Settles O12: a refusal is an update of its own agent and the mark. -/
theorem refusalMarksAndSticksAgent : Obligations.RefusalMarksAndSticksAgent := by
  intro s r a ha
  refine ⟨rfl, ⟨{ a with status := .stuck r }, ?_, rfl, rfl, rfl⟩,
    fun j hj => agents_updateAgent_other s _ j hj, rfl⟩
  have := agent_updateAgent s fun a => { a with status := .stuck r }
  rw [ha] at this
  exact this

/-! ### The host's side (45_host_client.md R255, R258) -/

/-- A name that stands for an open session dispatches to the session's own endpoint. -/
theorem dispatchOn_open {tbl : List (Nat × Endpoint)} {rs : List Result} {h : SessionRef} {id : Nat}
    {k : Endpoint} (hr : SessionRef.resolve rs h = some id) (hg : tableGet tbl id = some k)
    (f : Nat → Endpoint → Instr) : dispatchOn tbl rs h f = .call (encode (f id k)) := by
  simp only [dispatchOn, hr, hg]

/-- A name that stands for a session that is not open dispatches to nothing. -/
theorem dispatchOn_closed {tbl : List (Nat × Endpoint)} {rs : List Result} {h : SessionRef}
    {id : Nat} (hr : SessionRef.resolve rs h = some id) (hg : tableGet tbl id = none)
    (f : Nat → Endpoint → Instr) : dispatchOn tbl rs h f = .noSession := by
  simp only [dispatchOn, hr, hg]

/-- A name no open has bound dispatches to nothing. -/
theorem dispatchOn_unbound {tbl : List (Nat × Endpoint)} {rs : List Result} {h : SessionRef}
    (hr : SessionRef.resolve rs h = none) (f : Nat → Endpoint → Instr) :
    dispatchOn tbl rs h f = .noSession := by
  simp only [dispatchOn, hr]

/-- An identifier stands for itself, and a bound name for what its open returned. -/
theorem resolve_eq {rs : List Result} {h : SessionRef} {id : Nat}
    (hh : h = .id id ∨ ∃ k, h = .bound k ∧ rs[k]? = some (.session id)) :
    SessionRef.resolve rs h = some id := by
  rcases hh with rfl | ⟨k, rfl, hk⟩
  · rfl
  · simp only [SessionRef.resolve, hk]

/-- A name whose call returned no session stands for none. -/
theorem resolve_unbound {rs : List Result} {k : Nat} (h : ∀ id, rs[k]? ≠ some (.session id)) :
    SessionRef.resolve rs (.bound k) = none := by
  unfold SessionRef.resolve
  split
  case h_1 hid => cases hid
  case h_2 j hj =>
    cases hj
    split
    case h_1 id hid => exact absurd hid (h id)
    case h_2 => rfl

/-- The open of a path that is neither endpoint's stops the machine (45_host_client.md R255). -/
theorem step_of_foreignPath {s : State} {a : Agent} (ha : s.agent = some a) (hr : a.status = .ready)
    (hi : s.issue a = .foreignPath) : step s = .refused .foreignPath := by
  rw [step_of_enabled ha (enabled_of_issue hr (by rw [hi]; exact nofun))]
  exact (agentTurn_refused_iff s a _).mpr ⟨hr, .inr ⟨hi, rfl⟩⟩

/-- Settles O59: an open goes by its path, every other request by the session its name stands for. -/
theorem hostDispatch_result : Obligations.HostDispatch := by
  refine ⟨fun c tbl rs p => ⟨?sigPath, ?ledPath, ?otherPath⟩, fun c tbl rs h id n d hh => ?named,
    fun c tbl rs k n d hk => ?unbound, fun s a ha hr hv => ⟨fun hf => ?noSession, fun hf => ?foreign⟩⟩
  case sigPath =>
    rintro rfl
    simp [hostDispatch, endpointAt, openCall]
  case ledPath =>
    rintro rfl hne
    simp [hostDispatch, endpointAt, openCall, hne]
  case otherPath => exact fun h1 h2 => (hostDispatch_foreignPath_iff ..).mpr ⟨p, rfl, h1, h2⟩
  case named =>
    have hr := resolve_eq hh
    exact ⟨fun hg => ⟨dispatchOn_open hr hg _, dispatchOn_open hr hg _, dispatchOn_open hr hg _⟩,
      fun hg => ⟨dispatchOn_open hr hg _, dispatchOn_open hr hg _, dispatchOn_open hr hg _⟩,
      fun hg => ⟨dispatchOn_closed hr hg _, dispatchOn_closed hr hg _, dispatchOn_closed hr hg _⟩⟩
  case unbound =>
    have hr := resolve_unbound hk
    exact ⟨dispatchOn_unbound hr _, dispatchOn_unbound hr _, dispatchOn_unbound hr _⟩
  case noSession =>
    refine step_of_issue_refuse ha hr ?_
    rw [State.issue, hf]
    exact if_pos hv
  case foreign => exact step_of_foreignPath ha hr ((issue_foreignPath_iff s a).mpr ⟨hv, hf⟩)

/-! ### The command-line client (45_host_client.md R261 to R263) -/

/-- The client has an argument exactly where its one argument is `on` or `off`. -/
theorem clientArgument_eq_none {argv : List (List Byte)} (h1 : argv ≠ [[0x6F, 0x6E]])
    (h2 : argv ≠ [[0x6F, 0x66, 0x66]]) : clientArgument argv = none := by
  unfold clientArgument
  split
  · split_ifs <;> simp_all
  · rfl

/-- The client's exit status is 0 only after a session and a count (45_host_client.md R263). -/
theorem clientExitStatus_zero {argv : List (List Byte)} {rs : List Result}
    (h : clientExitStatus argv rs = some 0) :
    clientArgument argv ≠ none ∧ ∃ id n bs rest, rs = .session id :: .count n bs :: rest := by
  unfold clientExitStatus at h
  split at h
  · cases h
  · cases ha : clientArgument argv with
    | none =>
      rw [ha] at h
      cases h
    | some on =>
      rw [ha] at h
      refine ⟨nofun, ?_⟩
      split at h
      · exact ⟨_, _, _, _, rfl⟩
      · cases h

/-- Settles O60: what the client does is decided by its argument and, call by call, by the results it
has had. -/
theorem clientExitsWithSuccess : Obligations.ClientExitsWithSuccess := by
  refine ⟨fun enc argv rs h1 h2 => ?wrong, fun argv rs h => ?zero,
    fun enc id n bs e r rest on => ?calls⟩
  case wrong =>
    have ha := clientArgument_eq_none h1 h2
    simp [clientNext, clientExitStatus, clientHasNext, ha]
  case zero =>
    obtain ⟨ha, hrs⟩ := clientExitStatus_zero h
    refine ⟨?_, hrs⟩
    by_contra hne
    obtain ⟨h1, h2⟩ := not_or.mp hne
    exact ha (clientArgument_eq_none h1 h2)
  case calls => cases on <;> cases enc <;> exact ⟨rfl, rfl, rfl, rfl, rfl, rfl⟩

end Sys2Proof.Machine
end

section
/-!
The calls of the register block (40_register_block.md R130 to R133): map, and the read and the write of
each named register (10_state.md R42 to R48).
-/

namespace Sys2Proof.Machine

/-! ### Mapping (40_register_block.md R130) -/

/-- Settles O13: the three tests of map, and the host's draw behind them. -/
theorem mapResult : Obligations.MapResult := by
  intro s base size
  refine ⟨fun hm => ?mapped, fun hm hne => ?elsewhere, ?drawn⟩
  case mapped =>
    change execMap base size s = _
    rw [execMap, mapWindow_refused s base size hm]
    rfl
  case elsewhere =>
    have hne' : base ≠ s.cfg.pBase ∨ size ≠ pWindow := not_and_or.mp hne
    change execMap base size s = _
    rw [execMap, mapWindow, if_neg (by simp [hm]), if_pos hne']
    rfl
  case drawn =>
    rintro hm rfl rfl
    change if _ then ∃ h, s.fresh ≤ h ∧ execMap s.cfg.pBase pWindow s = _
      else execMap s.cfg.pBase pWindow s = _
    unfold execMap
    cases hd : asBool (s.peek 0) with
    | true =>
      rw [mapWindow_ok s hm hd]
      exact ⟨(s.skip 1).freshId, Nat.le_add_right _ _, rfl⟩
    | false =>
      rw [mapWindow_failed s hm hd]
      rfl

/-! ### Reads (40_register_block.md R132) -/

/-- While mapped, the call read_word of a readable register gives the word of one MemRead
(40_register_block.md R132). -/
theorem exec_readWord_ok (s : State) (off : Nat) (hm : s.mapping ≠ none)
    (ho : readableOffsets.contains off = true) :
    exec (.readWord off) s = .next ((s.afterRead off).ret (.word (s.memValue off))) := by
  change execReadWord off s = _
  rw [execReadWord, readWord_eq, if_neg hm, if_pos ho]
  rfl

/-- While mapped, the call read_word of any other offset raises F_BAD_OFFSET (10_state.md R48). -/
theorem exec_readWord_badOffset (s : State) (off : Nat) (hm : s.mapping ≠ none)
    (ho : off ∉ readableOffsets) : exec (.readWord off) s = .next (s.raise .badOffset off) := by
  change execReadWord off s = _
  rw [execReadWord, readWord_eq, if_neg hm, if_neg (by simpa using ho)]
  rfl

/-- A reserved bit of a function-select word is in no pin's field (10_state.md R35). -/
theorem getLsbD_fselPinMask_reserved {k i : Nat} (hi : i < 32) (h : 30 ≤ i ∨ k = 5 ∧ 12 ≤ i) :
    (fselPinMask k).getLsbD i = false := by
  unfold fselPinMask
  split
  case isTrue =>
    have h12 : 12 ≤ i := by omega
    interval_cases i <;> rfl
  case isFalse hk =>
    have h30 : 30 ≤ i := by omega
    interval_cases i <;> rfl

/-- A reserved bit of FSELk reads as it is drawn (10_state.md R35). -/
theorem getLsbD_fselReadWord_reserved (f : Fsel) (d : Word) {k i : Nat} (hi : i < 32)
    (h : 30 ≤ i ∨ k = 5 ∧ 12 ≤ i) : (fselReadWord f k d).getLsbD i = d.getLsbD i := by
  have hmask := getLsbD_fselPinMask_reserved hi h
  have hword : (f.word k).getLsbD i = false := by
    rw [← word_and_mask, BitVec.getLsbD_and, hmask, Bool.and_false]
  rw [fselReadWord, BitVec.getLsbD_or, BitVec.getLsbD_and, BitVec.getLsbD_not, hword, hmask]
  simp [hi]

/-- Settles O15: the word of one MemRead of FSELk, field by field and reserved bit by reserved bit. -/
theorem readFselResult : Obligations.ReadFselResult := by
  intro s k hm hk
  have ho : readableOffsets.contains (4 * k) = true :=
    (mem_readableOffsets _).mpr (.inr ⟨k, hk, rfl⟩)
  refine ⟨s.memValue (4 * k), exec_readWord_ok s _ hm ho, fun p hp hpk => ?field,
    fun i hi hres => ?reserved⟩
  case field =>
    subst hpk
    exact fieldOf_memValue s p p hp rfl
  case reserved =>
    rw [memValue_fsel s k hk]
    exact getLsbD_fselReadWord_reserved _ _ hi hres

/-- Settles O16: the word of one MemRead of LEV, bit by bit. -/
theorem readLevelRegisterResult : Obligations.ReadLevelRegisterResult := fun s hm =>
  ⟨s.memValue 0x34, exec_readWord_ok s 0x34 hm (by decide), getLsbD_memValue_lev s⟩

/-- Settles O17: the mapping test, then the offset test. -/
theorem readWordFaults : Obligations.ReadWordFaults := fun s off =>
  ⟨exec_readWord_unmapped s off, exec_readWord_badOffset s off⟩

/-! ### Writes (40_register_block.md R133) -/

/-- While mapped, the call write_word of any other offset raises F_BAD_OFFSET (10_state.md R48). -/
theorem exec_writeWord_badOffset (s : State) (off : Nat) (v : Word) (hm : s.mapping ≠ none)
    (ho : off ∉ writableOffsets) : exec (.writeWord off v) s = .next (s.raise .badOffset off) := by
  change execWriteWord off v s = _
  rw [execWriteWord, writeWord_eq, if_neg hm, if_neg (by simpa using ho)]
  rfl

/-- Settles O20: the mapping test, then the offset test. -/
theorem writeWordFaults : Obligations.WriteWordFaults := fun s off v =>
  ⟨exec_writeWord_unmapped s off v, exec_writeWord_badOffset s off v⟩

/-- Settles O18: one MemWrite of FSELk, which stores the fields of its word's pins. -/
theorem writeFselResult : Obligations.WriteFselResult := by
  intro s k v hm hk
  have ho : writableOffsets.contains (4 * k) = true :=
    (mem_writableOffsets _).mpr (.inr (.inr ⟨k, hk, rfl⟩))
  refine ⟨s.fsel.store k v, ?_, fun p hp => field_store s.fsel k p v hp⟩
  rw [exec_writeWord_ok s _ v hm ho, State.afterWrite, storeRegister_fsel s k v hk]

/-- A second write of the same value changes no register (20_memory.md R66). -/
theorem storeRegister_twice {s t : State} (off : Nat) (v : Word)
    (hf : t.fsel = (s.storeRegister off v).fsel)
    (hl : t.outlatch = (s.storeRegister off v).outlatch) :
    (t.storeRegister off v).fsel = t.fsel ∧ (t.storeRegister off v).outlatch = t.outlatch := by
  unfold State.storeRegister at *
  split_ifs at * with h1 h2
  · exact ⟨rfl, by simp only [hl, BitVec.or_assoc, BitVec.or_self]⟩
  · exact ⟨rfl, by simp only [hl, BitVec.and_assoc, BitVec.and_self]⟩
  · exact ⟨by simp only [hf, store_store], rfl⟩

/-- Settles O21: each of the two calls is one MemWrite, and the second stores what is there. -/
theorem repeatedWriteIsIdempotent : Obligations.RepeatedWriteIsIdempotent := by
  intro s t u off v hoff hm ht hu
  have ho : writableOffsets.contains off = true := by simpa [writableOffsets] using hoff
  obtain rfl := Host.Outcome.next.inj ((exec_writeWord_ok s off v hm ho).symm.trans ht)
  obtain rfl := Host.Outcome.next.inj ((exec_writeWord_ok _ off v (by simpa using hm) ho).symm.trans hu)
  exact storeRegister_twice off v rfl rfl

end Sys2Proof.Machine
end

section
/-!
The scheduler's choices commute with every change of the block's own state (20_memory.md R70): a call
that passes a place between two atomic steps passes it the same whatever its steps have changed.
-/

namespace Sys2Proof.Machine

/-- A change of the block's own state: it neither depends on the scheduler's choices nor touches them,
the agents or the turn. -/
def Unscheduled (F : State → State) : Prop :=
  ∀ s x y, F { s with sched := x, schedTaken := y } =
    { F s with agents := s.agents, current := s.current, sched := x, schedTaken := y }

section change
variable {F : State → State} (h : Unscheduled F) (s : State)
include h

theorem Unscheduled.frame : F s = { F s with
    agents := s.agents, current := s.current, sched := s.sched, schedTaken := s.schedTaken } :=
  h s s.sched s.schedTaken

/-- Choices commute with a change of the block's own state. -/
theorem Unscheduled.passed (n : Nat) : (F s).passed n = F (s.passed n) := by
  have hothers : (F s).othersEnabled = s.othersEnabled := by
    rw [h.frame s]
    exact othersEnabled_congr rfl rfl
  unfold State.passed
  rw [hothers]
  have hsched : (F s).sched = s.sched := by rw [h.frame s]
  have htaken : (F s).schedTaken = s.schedTaken := by rw [h.frame s]
  have hagents : (F s).agents = s.agents := by rw [h.frame s]
  have hcurrent : (F s).current = s.current := by rw [h.frame s]
  split
  · refine Eq.trans ?_ (h s _ _).symm
    rw [hsched, htaken, ← hagents, ← hcurrent]
  · rfl

/-- What is undisturbed stays so after a change of the block's own state. -/
theorem Unscheduled.undisturbed {n : Nat} (hu : s.Undisturbed n) : (F s).Undisturbed n := by
  rw [h.frame s]
  exact undisturbed_congr rfl rfl rfl rfl hu

end change

/-- One change after another is a change. -/
theorem Unscheduled.comp {F G : State → State} (hF : Unscheduled F) (hG : Unscheduled G) :
    Unscheduled fun s => F (G s) := by
  intro s x y
  have hagents : (G s).agents = s.agents := by rw [hG.frame s]
  have hcurrent : (G s).current = s.current := by rw [hG.frame s]
  refine (congrArg F (hG s x y)).trans ?_
  rw [← hagents, ← hcurrent]
  exact hF (G s) x y

variable (s : State)

/-- The word a MemRead gives depends on no choice. -/
theorem passed_memValue (n off : Nat) : (s.passed n).memValue off = s.memValue off := by
  simp [State.memValue, State.registerValue]

/-- Choices commute with a MemRead. -/
theorem passed_afterRead (n off : Nat) : (s.afterRead off).passed n = (s.passed n).afterRead off :=
  Unscheduled.passed (F := fun s => s.afterRead off) (fun _ _ _ => rfl) s n

end Sys2Proof.Machine
end

section
/-!
The calls of the pin configurator, the level sensor and the level driver (41_pin_control.md R150 to
R153).
-/

namespace Sys2Proof.Machine

/-! ### set_function (41_pin_control.md R150) -/

section setFunction
variable {s : State} {p : Nat} {m : BitVec 3}

/-- A set_function whose tests pass reads its pin's word and goes on with its write. -/
theorem exec_setFunction_goOn (hm : s.mapping ≠ none) (hp : p < numPins) (h : m.toNat ≤ 1) :
    exec (.setFunction p m) s = .next ((s.afterRead (fselOffset p)).goOn
      (.setFunction (.writeBack p m (s.memValue (fselOffset p))))) := by
  change execSetFunction p m s = _
  rw [execSetFunction, setFunctionStart, setFunctionRead_ok s p m hm hp h, Reply.map,
    setFunction_goOn]

/-- A set_function whose read is refused is refused. -/
theorem exec_setFunction_refused {r : RefusalReason} (h : setFunctionRead p m s = .refuse r) :
    exec (.setFunction p m) s = .next (s.refuse r) := by
  change execSetFunction p m s = _
  rw [execSetFunction, setFunctionStart, h, Reply.map, runCall_refuse]

/-- A set_function whose read raises a fault raises it. -/
theorem exec_setFunction_raised {f : FaultCode} {n : Nat} (h : setFunctionRead p m s = .raise f n) :
    exec (.setFunction p m) s = .next (s.raise f n) := by
  change execSetFunction p m s = _
  rw [execSetFunction, setFunctionStart, h, Reply.map, runCall_raise]

/-- While mapped, the write-back of a set_function is its last step. -/
theorem resume_writeBack_ok (w : Word) (hm : s.mapping ≠ none) (hp : p < numPins) :
    resume (.setFunction (.writeBack p m w)) s =
      (({ s with fsel := s.fsel.store (fselIndex p) (withField w p m) } : State).log .write
        (fselOffset p) (withField w p m)).ret .ok := by
  rw [resume, setFunctionAdvance, setFunctionWrite_ok s p m w hm hp, Reply.map, runCall_done,
    afterWrite_fselOffset s p _ hp]

/-- Without a mapping, the write-back of a set_function raises F_UNMAPPED. -/
theorem resume_writeBack_unmapped (w : Word) (hm : s.mapping = none) :
    resume (.setFunction (.writeBack p m w)) s = s.raise .unmapped (fselOffset p) := by
  rw [resume, setFunctionAdvance, setFunctionWrite_unmapped s p m w hm, Reply.map, runCall_raise]

end setFunction

/-- The fields after a write-back of any word: the pin's mode, and of every other pin of the word the
field it has there (30_encoding.md R97). -/
theorem field_store_withField_any (f : Fsel) (p q : Nat) (m : BitVec 3) (w : Word)
    (hq : q < numPins) :
    (f.store (fselIndex p) (withField w p m)).field q =
      if q = p then m else if fselIndex q = fselIndex p then fieldOf w q else f.field q := by
  rw [field_store _ _ _ _ hq]
  by_cases h : q = p
  · subst h
    simp [fieldOf_withField_same]
  · rw [if_neg h]
    split
    case isTrue hk => exact fieldOf_withField_other _ _ _ _ hk h
    case isFalse => rfl

/-- The word read gives the field of every pin of its register (10_state.md R44). -/
theorem extract_memValue (s : State) (p q : Nat) (hq : q < 54) (h : q / 10 = p / 10) :
    (s.memValue (4 * (p / 10))).extractLsb' (3 * (q % 10)) 3 = s.fsel.field q :=
  fieldOf_memValue s p q hq h

/-- Settles O22: undisturbed, the read's word goes to the write-back, whose state is that of the two
accesses. -/
theorem setFunctionResult : Obligations.SetFunctionResult := by
  intro s p m hu hm hp hmode
  have hw : s.memValue (fselOffset p) = fselReadWord s.fsel (fselIndex p) (asWord (s.peek 0)) :=
    memValue_fsel s (p / 10) (by omega)
  refine ⟨s.fsel.store (fselIndex p) (withField (s.memValue (fselOffset p)) p m),
    s.memValue (fselOffset p), withField (s.memValue (fselOffset p)) p m, ?run, fun q hq => ?fields,
    rfl, fun q hq hqp => extract_memValue s p q hq hqp⟩
  case run =>
    have hu' : (s.afterRead (fselOffset p)).Undisturbed (0 + 1) :=
      undisturbed_congr rfl rfl rfl rfl hu
    rw [exec_setFunction_goOn hm hp hmode, goOn_of_undisturbed _ _ hu',
      resume_writeBack_ok _ (by simpa using hm) hp, passed_afterRead, State.afterRead,
      passed_memValue]
    simp only [log_fsel, skip_fsel, passed_fsel]
    rfl
  case fields =>
    rw [hw]
    exact field_store_withField s.fsel p q m _ hp hq

/-- Settles O23: the mode, the pin and the mapping are tested in this order. -/
theorem setFunctionStops : Obligations.SetFunctionStops := fun s p m =>
  ⟨fun h => exec_setFunction_refused (if_pos h),
    fun h hp => exec_setFunction_raised (setFunctionRead_pinRange s p m h hp),
    fun h hp hm => exec_setFunction_raised (setFunctionRead_unmapped s p m h hp hm)⟩

/-- Settles O24: where the scheduler turns away after the read, the call waits at its write-back. -/
theorem setFunctionCanBeInterrupted : Obligations.SetFunctionCanBeInterrupted := by
  intro s p m ho hc hm hp hmode
  refine ⟨s.memValue (fselOffset p), ?_, fun q hq hqp => extract_memValue s p q hq hqp⟩
  have ho' : (s.afterRead (fselOffset p)).othersEnabled = true :=
    (othersEnabled_congr rfl rfl).trans ho
  rw [exec_setFunction_goOn hm hp hmode, goOn_of_turned _ _ ho' hc]
  rfl

/-- Settles O25: the step is the write-back of the word the task carries. -/
theorem writeBackLosesTheOtherWrite : Obligations.WriteBackLosesTheOtherWrite := by
  intro s a p m w ha ht hp
  refine ⟨fun hm => ⟨s.fsel.store (fselIndex p) (withField w p m), ?_,
    fun q hq => field_store_withField_any s.fsel p q m w hq⟩, fun hm => ?_⟩
  · rw [step_of_inCall ha ht, resume_writeBack_ok w hm hp]
    rfl
  · rw [step_of_inCall ha ht, resume_writeBack_unmapped w hm]
    rfl

/-! ### read_level, set_high and set_low (41_pin_control.md R151 to R153) -/

/-- A level is sensed by one read of LEV (41_pin_control.md R151). -/
theorem exec_readLevel_ok (s : State) (p : Nat) (hm : s.mapping ≠ none) (hp : p < 32) :
    exec (.readLevel p) s =
      .next ((s.afterRead 0x34).ret (.bool ((s.memValue 0x34).getLsbD p))) := by
  change execReadLevel p s = _
  rw [execReadLevel, readLevel_ok s p hm hp]
  rfl

/-- A read_level that raises a fault. -/
theorem exec_readLevel_raised {s : State} {p n : Nat} {f : FaultCode}
    (h : readLevel p s = .raise f n) : exec (.readLevel p) s = .next (s.raise f n) := by
  change execReadLevel p s = _
  rw [execReadLevel, h]
  rfl

/-- Settles O26: the one read of LEV, bit by bit. -/
theorem readLevelResult : Obligations.ReadLevelResult := fun s p hm hp =>
  ⟨s.memValue 0x34, exec_readLevel_ok s p hm hp, getLsbD_memValue_lev s⟩

/-- The write that drives a pin high or low, SET or CLR (41_pin_control.md R152, R153). -/
def driveOffset (high : Bool) : Nat := if high then 0x1C else 0x28

/-- The latch after a pin was driven high or low. -/
def drivenLatch (high : Bool) (l : Word) (p : Nat) : Word :=
  if high then l ||| pinBit p else l &&& ~~~ pinBit p

/-- A drive changes the latch bit of its pin alone (41_pin_control.md R152, R153). -/
theorem getLsbD_drivenLatch (high : Bool) (l : Word) (p q : Nat) (hq : q < 32) :
    (drivenLatch high l p).getLsbD q = if q = p then high else l.getLsbD q := by
  cases high with
  | true => simp [drivenLatch, getLsbD_pinBit p q hq, Bool.or_comm]
  | false => simp [drivenLatch, getLsbD_latch_andNot l _ q hq, getLsbD_pinBit p q hq]

/-- The state after the write of a drive. -/
def State.driven (s : State) (high : Bool) (p : Nat) : State :=
  ({ s with outlatch := drivenLatch high s.outlatch p } : State).log .write (driveOffset high)
    (pinBit p)

/-- A mapped output pin is driven by one write (41_pin_control.md R152, R153). -/
theorem drivePin_driven (s : State) (high : Bool) (p : Nat) (hm : s.mapping ≠ none)
    (hp : p < levelPins) (hf : s.fsel.field p = modeOutput) :
    drivePin (driveOffset high) p s = .ok () (s.driven high p) := by
  cases high
  · rw [drivePin_ok s _ p (by decide) hm hp hf]
    rfl
  · rw [drivePin_ok s _ p (by decide) hm hp hf]
    rfl

/-- The call that drives a pin high or low. -/
def driveCall (high : Bool) (p : Nat) : Instr := if high then .setHigh p else .setLow p

/-- What set_high and set_low make of the reply of their drive. -/
theorem exec_driveCall (high : Bool) (p : Nat) (s : State) :
    exec (driveCall high p) s =
      .next (finish s ((drivePin (driveOffset high) p s).map fun _ => Result.ok)) := by
  cases high <;> rfl

/-- A mapped output pin is driven by the one write of the call (41_pin_control.md R152, R153). -/
theorem exec_driveCall_ok (s : State) (high : Bool) (p : Nat) (hm : s.mapping ≠ none)
    (hp : p < 32) (hf : s.fsel.field p = 1) :
    exec (driveCall high p) s = .next ((s.driven high p).ret .ok) := by
  rw [exec_driveCall, drivePin_driven s high p hm hp hf]
  rfl

/-- A drive that raises a fault. -/
theorem exec_driveCall_raised {s : State} {high : Bool} {p n : Nat} {f : FaultCode}
    (h : drivePin (driveOffset high) p s = .raise f n) :
    exec (driveCall high p) s = .next (s.raise f n) := by
  rw [exec_driveCall, h]
  rfl

/-- Settles O27: the one write of SET. -/
theorem setHighResult : Obligations.SetHighResult := fun s p hm hp hf =>
  ⟨drivenLatch true s.outlatch p, exec_driveCall_ok s true p hm hp hf,
    getLsbD_drivenLatch true s.outlatch p⟩

/-- Settles O28: the one write of CLR. -/
theorem setLowResult : Obligations.SetLowResult := fun s p hm hp hf =>
  ⟨drivenLatch false s.outlatch p, exec_driveCall_ok s false p hm hp hf,
    getLsbD_drivenLatch false s.outlatch p⟩

/-- Settles O29: the pin, its function and the mapping are tested in this order. -/
theorem levelFaults : Obligations.LevelFaults := by
  intro s p
  refine ⟨fun hp => ⟨?readRange, ?highRange, ?lowRange⟩, fun hp hf => ⟨?highInput, ?lowInput⟩,
    fun hp hf hm => ⟨?highUnmapped, ?lowUnmapped⟩, fun hp hm => ?readUnmapped⟩
  case readRange => exact exec_readLevel_raised (if_pos hp)
  case highRange => exact exec_driveCall_raised (high := true) (drivePin_pinRange s _ p hp)
  case lowRange => exact exec_driveCall_raised (high := false) (drivePin_pinRange s _ p hp)
  case highInput => exact exec_driveCall_raised (high := true) (drivePin_notOutput s _ p hp hf)
  case lowInput => exact exec_driveCall_raised (high := false) (drivePin_notOutput s _ p hp hf)
  case highUnmapped => exact exec_driveCall_raised (high := true) (drivePin_unmapped s _ p hp hf hm)
  case lowUnmapped => exact exec_driveCall_raised (high := false) (drivePin_unmapped s _ p hp hf hm)
  case readUnmapped =>
    have hp' : ¬ levelPins ≤ p := not_le.mpr hp
    exact exec_readLevel_raised (by rw [readLevel_eq, if_neg hp', if_pos hm])

/-- With loopback, an output pin just driven is driven so and reads so (10_state.md R42, R43). -/
theorem driven_reads_back (s : State) (high : Bool) (p : Nat) (hl : s.cfg.levelLoopback = true)
    (hm : s.mapping ≠ none) (hp : p < 32) (hf : s.fsel.field p = 1) :
    ∃ (t : State) (w : Word), exec (driveCall high p) s = .next t ∧
      pinDrive t.fsel t.outlatch p = (if high then .high else .low) ∧ w.getLsbD p = high ∧
      exec (.readLevel p) t = .next (((t.skip 1).log .read 0x34 w).ret (.bool high)) := by
  have hbit : (drivenLatch high s.outlatch p).getLsbD p = high := by
    rw [getLsbD_drivenLatch high _ p p hp, if_pos rfl]
  have hw : (((s.driven high p).ret .ok).memValue 0x34).getLsbD p = high := by
    rw [getLsbD_memValue_lev _ p hp, if_pos ⟨hl, hf⟩]
    exact hbit
  refine ⟨(s.driven high p).ret .ok, ((s.driven high p).ret .ok).memValue 0x34,
    exec_driveCall_ok s high p hm hp hf, ?_, hw, ?_⟩
  · change pinDrive s.fsel (drivenLatch high s.outlatch p) p = _
    have hin : s.fsel.field p ≠ modeInput := by
      rw [hf]
      decide
    rw [pinDrive, if_neg hin, if_pos ⟨hf, hp⟩, hbit]
  · rw [exec_readLevel_ok _ p (by simpa [State.driven] using hm) hp, hw]
    rfl

/-- Settles O30: both drives, each read back. -/
theorem drivenLevelReadsBack : Obligations.DrivenLevelReadsBack := fun s p hl hm hp hf =>
  ⟨driven_reads_back s true p hl hm hp hf, driven_reads_back s false p hl hm hp hf⟩

end Sys2Proof.Machine
end

section
/-!
The calls of the signal endpoint (43_signal_endpoint.md R195 to R200).
-/

namespace Sys2Proof.Machine

/-! ### Opens of both endpoints (43_signal_endpoint.md R195, 44_led_endpoint.md R225) -/

/-- The host's denial comes first (60_exceptions.md R317). -/
theorem openSession_denied (s : State) (k : Endpoint) (h : asBool (s.peek 0) = true) :
    openSession k s = .error .accessDenied (s.skip 1) := by
  rw [openSession, if_pos h]

/-- Then the registration test. -/
theorem openSession_noDevice (s : State) (k : Endpoint) (h : asBool (s.peek 0) = false)
    (hr : s.registered k = false) : openSession k s = .error .noDevice (s.skip 1) := by
  simp [openSession, h, hr]

/-- An open that passes both adds a session under a fresh identifier. -/
theorem openSession_ok (s : State) (k : Endpoint) (h : asBool (s.peek 0) = false)
    (hr : s.registered k = true) :
    openSession k s = .ok (s.skip 1).freshId { s.skip 2 with
      fresh := (s.skip 1).freshId + 1
      sessions := tableSet s.sessions (s.skip 1).freshId k } := by
  simp [openSession, h, hr, State.addSession, State.takeFresh]

/-- Settles O32: the three ends of an open, the last of which keeps an offset. -/
theorem sigOpenResult : Obligations.SigOpenResult := by
  intro s
  change (_ → execSigOpen s = _) ∧ (_ → _ → execSigOpen s = _) ∧
    (_ → _ → ∃ id, s.fresh ≤ id ∧ (s.WF → tableGet s.sessions id = none) ∧ execSigOpen s = _)
  unfold execSigOpen sigOpen
  refine ⟨fun h => ?denied, fun h hr => ?noDevice, fun h hr => ?opened⟩
  case denied =>
    rw [openSession_denied s .sig h]
    rfl
  case noDevice =>
    rw [openSession_noDevice s .sig h hr]
    rfl
  case opened =>
    have hid : s.fresh ≤ (s.skip 1).freshId := Nat.le_add_right _ _
    refine ⟨(s.skip 1).freshId, hid, fun hs => hs.get_fresh hid, ?_⟩
    rw [openSession_ok s .sig h hr]
    rfl

/-! ### sig.read (43_signal_endpoint.md R196) -/

/-- A read returns as many bytes as it counts (43_signal_endpoint.md R196). -/
theorem length_readBytes (level : Bool) (m off : Nat) :
    (readBytes level m off).length = readCount m off := by
  simp only [readBytes, readCount, levelText, List.length_take, List.length_drop, List.length_cons,
    List.length_nil]
  split <;> omega

section sigRead
variable {s : State} {id m off p : Nat}

/-- A sig.read of a signal session goes on with its sample of the selected pin. -/
theorem exec_sigRead_goOn (hs : tableGet s.sessions id = some .sig)
    (ho : tableGet s.offsets id = some off) :
    exec (.sigRead id m) s =
      .next (s.goOn (.sigRead (.sample id m off (currentPin s.cfg s.sel)))) := by
  have hoff : s.offset id = off := by rw [State.offset, ho]; rfl
  change execSigRead id m s = _
  rw [execSigRead, sigReadStart, hasSession_of_get hs, hoff]
  exact congrArg _ (sigRead_goOn s s _)

/-- A sample that leaves no byte to return is the read's last step. -/
theorem resume_sample_done (hm : s.mapping ≠ none) (hp : p < levelPins) (hn : readCount m off = 0) :
    resume (.sigRead (.sample id m off p)) s = (s.afterRead 0x34).ret (.count 0 []) := by
  rw [resume, sigReadAdvance, sigReadSample, readLevel_ok s p hm hp]
  simp only [hn, if_true]
  rw [runCall_done]

/-- A sample that leaves bytes to return goes on with their transfer. -/
theorem resume_sample_goOn (hm : s.mapping ≠ none) (hp : p < levelPins) (hn : readCount m off ≠ 0) :
    resume (.sigRead (.sample id m off p)) s = (s.afterRead 0x34).goOn
      (.sigRead (.copyOut id (readBytes ((s.memValue 0x34).getLsbD p) m off))) := by
  rw [resume, sigReadAdvance, sigReadSample, readLevel_ok s p hm hp]
  simp only [hn, if_false]
  rw [sigRead_goOn]

/-- A sample that raises a fault. -/
theorem resume_sample_raised {f : FaultCode} {n : Nat} (h : readLevel p s = .raise f n) :
    resume (.sigRead (.sample id m off p)) s = s.raise f n := by
  rw [resume, sigReadAdvance, sigReadSample, h]
  exact runCall_raise ..

/-- Without a mapping a level in range raises F_UNMAPPED (41_pin_control.md R151). -/
theorem readLevel_unmapped (hm : s.mapping = none) (hp : p < levelPins) :
    readLevel p s = .raise .unmapped 0x34 := by
  rw [readLevel_eq, if_neg (not_le.mpr hp), if_pos hm]

/-- A transfer of no bytes takes no draw; any other goes by one (20_memory.md R78). -/
theorem copyOk_of_ne {n : Nat} (hn : n ≠ 0) : s.copyOk n = asBool (s.peek 0) := by
  simp [State.copyOk, hn]

theorem afterCopy_of_ne {n : Nat} (hn : n ≠ 0) : s.afterCopy n = s.skip 1 := if_neg hn

/-- A transfer of bytes that succeeds returns them, and the host adds their count to the offset. -/
theorem resume_copyOut_ok {d : List Byte} (hd : d.length ≠ 0) (h : asBool (s.peek 0) = true) :
    resume (.sigRead (.copyOut id d)) s =
      ((s.skip 1).advanceOffset id d.length).ret (.count d.length d) := by
  rw [resume, sigReadAdvance, sigReadCopy, copyOk_of_ne hd, afterCopy_of_ne hd, if_pos h, runCall_done]

/-- A transfer of bytes that fails is CopyFault. -/
theorem resume_copyOut_failed {d : List Byte} (hd : d.length ≠ 0) (h : asBool (s.peek 0) = false) :
    resume (.sigRead (.copyOut id d)) s = (s.skip 1).ret (.error .copyFault) := by
  rw [resume, sigReadAdvance, sigReadCopy, copyOk_of_ne hd, afterCopy_of_ne hd, h]
  exact runCall_error ..

/-- The host adds to the offset it keeps (10_state.md R53). -/
theorem advanceOffset_some {n : Nat} (ho : tableGet s.offsets id = some off) :
    s.advanceOffset id n = { s with offsets := tableSet s.offsets id (off + n) } := by
  rw [State.advanceOffset, ho]

/-- A session closed meanwhile has no offset to add to (10_state.md R53). -/
theorem advanceOffset_none {n : Nat} (ho : tableGet s.offsets id = none) :
    s.advanceOffset id n = s := by
  rw [State.advanceOffset, ho]

end sigRead

/-- The first draw after a MemRead is the second one. -/
theorem peek_afterRead (s : State) (off : Nat) : (s.afterRead off).peek 0 = s.peek 1 :=
  (peek_congr rfl rfl 0).trans (peek_skip s 1 0)

/-- The selected pin of a valid configuration can be sensed (00_scope.md R9). -/
theorem currentPin_lt {s : State} (h : s.cfg.valid = true) : currentPin s.cfg s.sel < levelPins :=
  input_lt h (currentPin_input s.cfg s.sel)

/-- Settles O33: current, sample and transfer, one after the other, with a place to wait after each of
the first two. -/
theorem sigReadResult : Obligations.SigReadResult := by
  refine ⟨fun s id m off hv hm hs ho => ?mapped, fun s id m off hu hv hm hs ho => ?unmapped⟩
  case unmapped =>
    rw [exec_sigRead_goOn hs ho, goOn_of_undisturbed s _ (n := 0) hu]
    exact congrArg _ (resume_sample_raised
      (readLevel_unmapped (by simpa using hm) (currentPin_lt hv)))
  case mapped =>
    refine ⟨s.memValue 0x34, s.afterRead 0x34, rfl, getLsbD_memValue_lev s, ?_⟩
    have hp := currentPin_lt hv
    have hm' : (s.passed 1).mapping ≠ none := by simpa using hm
    have sample : ∀ n, s.Undisturbed (n + 1) → readCount m off ≠ 0 → exec (.sigRead id m) s =
        .next (((s.afterRead 0x34).passed 1).goOn (.sigRead (.copyOut id
          (readBytes ((s.memValue 0x34).getLsbD (currentPin s.cfg s.sel)) m off)))) := by
      intro n hu hn
      rw [exec_sigRead_goOn hs ho, goOn_of_undisturbed s _ hu, resume_sample_goOn hm' hp hn,
        passed_memValue, passed_afterRead]
    have further : s.Undisturbed 2 → ((s.afterRead 0x34).passed 1).Undisturbed (0 + 1) := fun hu =>
      undisturbed_passed _ (undisturbed_congr rfl rfl rfl rfl hu)
    have hdraw : (((s.afterRead 0x34).passed 1).passed 1).peek 0 = s.peek 1 := by
      rw [passed_peek, passed_peek, peek_afterRead]
    refine ⟨fun hn hu => ?none, fun hn hu hd => ?copied, fun hn hu hd => ?failed,
      fun hn hu hothers hc => ?waits⟩
    case none =>
      rw [exec_sigRead_goOn hs ho, goOn_of_undisturbed s _ (n := 0) hu, resume_sample_done hm' hp hn,
        passed_afterRead]
    case copied =>
      have hlen := length_readBytes ((s.memValue 0x34).getLsbD (currentPin s.cfg s.sel)) m off
      have hkept : tableGet ((((s.afterRead 0x34).passed 1).passed 1).skip 1).offsets id = some off :=
        by simpa using ho
      rw [sample 1 hu hn, goOn_of_undisturbed _ _ (further hu),
        resume_copyOut_ok (hlen.trans_ne hn) (by rw [hdraw, hd]), advanceOffset_some hkept, hlen,
        passed_passed]
      simp only [skip_offsets, passed_offsets, afterRead_offsets]
      rfl
    case failed =>
      have hlen := length_readBytes ((s.memValue 0x34).getLsbD (currentPin s.cfg s.sel)) m off
      rw [sample 1 hu hn, goOn_of_undisturbed _ _ (further hu),
        resume_copyOut_failed (hlen.trans_ne hn) (by rw [hdraw, hd]), passed_passed]
    case waits =>
      have hothers' : (s.afterRead 0x34).othersEnabled = true :=
        (othersEnabled_congr rfl rfl).trans hothers
      rw [sample 0 hu hn, goOn_of_turned _ _ (by rw [passed_othersEnabled, hothers'])
        (by rw [choice_passed _ hothers']; exact hc), passed_passed]
      rfl

/-- Settles O34: what is left of a read carries the pin and the offset its current step saw. -/
theorem interruptedReadKeepsItsPin : Obligations.InterruptedReadKeepsItsPin := by
  refine ⟨fun s id m off hothers hc hs ho => ?parked, fun s a id m off p ha ht hm hp => ?sampled,
    fun s a id m off p ha ht => ⟨fun hp => ?pinRange, fun hp hm => ?unmapped⟩⟩
  case parked =>
    rw [exec_sigRead_goOn hs ho, goOn_of_turned s _ hothers hc]
    rfl
  case pinRange => rw [step_of_inCall ha ht, resume_sample_raised (if_pos hp)]
  case unmapped => rw [step_of_inCall ha ht, resume_sample_raised (readLevel_unmapped hm hp)]
  case sampled =>
    refine ⟨s.memValue 0x34, s.afterRead 0x34, rfl, getLsbD_memValue_lev s, ?_⟩
    rw [step_of_inCall ha ht]
    have hlen := length_readBytes ((s.memValue 0x34).getLsbD p) m off
    have undisturbed : s.Undisturbed 1 → (s.afterRead 0x34).Undisturbed (0 + 1) :=
      undisturbed_congr rfl rfl rfl rfl
    have hdraw : ((s.afterRead 0x34).passed 1).peek 0 = s.peek 1 := by
      rw [passed_peek, peek_afterRead]
    refine ⟨fun hn => ?none, fun hn hu hd => ?failed, fun kept hn hu hd hk => ?copied,
      fun hn hu hd hk => ?closed, fun hn hothers hc => ?waits⟩
    case none => rw [resume_sample_done hm hp hn]
    case failed =>
      rw [resume_sample_goOn hm hp hn, goOn_of_undisturbed _ _ (undisturbed hu),
        resume_copyOut_failed (hlen.trans_ne hn) (by rw [hdraw, hd])]
    case copied =>
      have hkept : tableGet (((s.afterRead 0x34).passed 1).skip 1).offsets id = some kept := by
        simpa using hk
      rw [resume_sample_goOn hm hp hn, goOn_of_undisturbed _ _ (undisturbed hu),
        resume_copyOut_ok (hlen.trans_ne hn) (by rw [hdraw, hd]), advanceOffset_some hkept, hlen]
      simp only [skip_offsets, passed_offsets, afterRead_offsets]
      rfl
    case closed =>
      have hkept : tableGet (((s.afterRead 0x34).passed 1).skip 1).offsets id = none := by
        simpa using hk
      rw [resume_sample_goOn hm hp hn, goOn_of_undisturbed _ _ (undisturbed hu),
        resume_copyOut_ok (hlen.trans_ne hn) (by rw [hdraw, hd]), advanceOffset_none hkept, hlen]
      rfl
    case waits =>
      rw [resume_sample_goOn hm hp hn,
        goOn_of_turned (s.afterRead 0x34) _ ((othersEnabled_congr rfl rfl).trans hothers) hc]
      rfl

/-! ### sig.write (43_signal_endpoint.md R197) -/

section sigWrite
variable {s : State} {id : Nat} {b : Byte}

/-- A sig.write of no data has no byte to transfer. -/
theorem exec_sigWrite_nil (hs : tableGet s.sessions id = some .sig) :
    exec (.sigWrite id []) s = .next (s.ret (.error .invalidSelector)) := by
  change execSigWrite id [] s = _
  rw [execSigWrite, sigWriteStart, hasSession_of_get hs]
  rfl

/-- A sig.write whose transfer fails is CopyFault. -/
theorem exec_sigWrite_failed (rest : List Byte) (hs : tableGet s.sessions id = some .sig)
    (hd : asBool (s.peek 0) = false) :
    exec (.sigWrite id (b :: rest)) s = .next ((s.skip 1).ret (.error .copyFault)) := by
  have hc : s.copyOk 1 = false := (copyOk_of_ne Nat.one_ne_zero).trans hd
  change execSigWrite id (b :: rest) s = _
  rw [execSigWrite, sigWriteStart, hasSession_of_get hs, hc]
  rfl

/-- A sig.write whose transfer succeeds goes on with its select. -/
theorem exec_sigWrite_goOn (rest : List Byte) (hs : tableGet s.sessions id = some .sig)
    (hd : asBool (s.peek 0) = true) :
    exec (.sigWrite id (b :: rest)) s = .next ((s.skip 1).goOn (.sigWrite (.select b))) := by
  have hc : s.copyOk 1 = true := (copyOk_of_ne Nat.one_ne_zero).trans hd
  change execSigWrite id (b :: rest) s = _
  rw [execSigWrite, sigWriteStart, hasSession_of_get hs, hc]
  exact congrArg _ (sigWrite_goOn s (s.skip 1) (.select b))

/-- The select of a sig.write moves the selection where its byte names a channel. -/
theorem resume_select_channel {c : Channel} (hb : selectorChannel b = some c) :
    resume (.sigWrite (.select b)) s = { s with sel := c }.ret (.count 1 []) := by
  rw [resume, sigWriteAdvance, selectChannel, hb]
  exact runCall_done ..

/-- The select of a sig.write is InvalidSelector where its byte names no channel. -/
theorem resume_select_none (h1 : b ≠ 0x31) (h2 : b ≠ 0x32) :
    resume (.sigWrite (.select b)) s = s.ret (.error .invalidSelector) := by
  rw [resume, sigWriteAdvance, selectChannel, selectorChannel_eq_none h1 h2]
  exact runCall_error ..

end sigWrite

/-- Settles O35: the transfer, and the select of the byte transferred. -/
theorem sigWriteResult : Obligations.SigWriteResult := by
  intro s id b rest hs
  refine ⟨exec_sigWrite_nil hs, exec_sigWrite_failed rest hs, fun hd hothers hc => ?waits,
    fun hd hu => ?selects⟩
  case waits =>
    rw [exec_sigWrite_goOn rest hs hd,
      goOn_of_turned (s.skip 1) _ ((othersEnabled_congr rfl rfl).trans hothers) hc, passed_skip]
  case selects =>
    have hu' : (s.skip 1).Undisturbed (0 + 1) := undisturbed_congr rfl rfl rfl rfl hu
    rw [exec_sigWrite_goOn rest hs hd, goOn_of_undisturbed _ _ hu', passed_skip]
    refine ⟨?_, ?_, fun h1 h2 => congrArg _ (resume_select_none h1 h2)⟩
    · rintro rfl
      exact congrArg _ (resume_select_channel rfl)
    · rintro rfl
      exact congrArg _ (resume_select_channel rfl)

/-! ### Sessions of no or of the other endpoint (43_signal_endpoint.md R199) -/

/-- Settles O37: each of the four calls tests its session first. -/
theorem wrongSessionRefused : Obligations.WrongSessionRefused := by
  intro s id n d
  refine ⟨fun h => ?sig, fun h => ?led⟩
  case sig =>
    have hs := hasSession_of_get_ne h
    constructor
    · change execSigRead id n s = _
      rw [execSigRead, sigReadStart, hs]
      rfl
    · change execSigWrite id d s = _
      unfold execSigWrite sigWriteStart
      rw [hs]
      rfl
  case led =>
    have hs := hasSession_of_get_ne h
    constructor
    · change execLedRead id n s = _
      rw [execLedRead, ledRead, hs]
      rfl
    · change execLedWrite id d s = _
      rw [execLedWrite, ledWriteStart, hs]
      rfl

/-! ### Reading to end of data (43_signal_endpoint.md R200) -/

/-- Undisturbed at the next place, a call is undisturbed there after a return and a selection. -/
theorem undisturbed_ret_select {s : State} {n : Nat} (h : s.Undisturbed n) (r : Result)
    (c : Channel) : ({ s.ret r with sel := c } : State).Undisturbed n := by
  intro ho k hk
  have hothers : ({ s.ret r with sel := c } : State).othersEnabled = s.othersEnabled :=
    (othersEnabled_congr rfl rfl).trans (othersEnabled_ret s r)
  exact h (hothers ▸ ho) k hk

/-- Settles O38: the first read gives both bytes and leaves offset 2, at which the second gives
none. -/
theorem endOfDataAfterOneRead : Obligations.EndOfDataAfterOneRead := by
  intro s id m m' c hu hv hm hs ho h2 hd
  obtain ⟨w, u, hw, -, hread⟩ := sigReadResult.1 s id m 0 hv hm hs ho
  obtain ⟨-, hcopied, -⟩ := hread
  have hn : (if 0 ≥ 2 then 0 else min m (2 - 0)) = 2 := by
    rw [if_neg (by decide)]
    omega
  rw [hn] at hcopied
  generalize hp : currentPin s.cfg s.sel = p
  generalize ht : ({ (u.passed 2).skip 1 with offsets := tableSet s.offsets id (0 + 2) } : State) = t
    at hcopied
  have hagents : t.agents = s.agents := by rw [← ht, hw]; simp
  have hoffs : t.offsets = tableSet s.offsets id 2 := by rw [← ht]
  have hoff : tableGet t.offsets id = some 2 := by rw [hoffs, tableGet_set_same]
  have hut : t.Undisturbed 1 := by
    have : (u.passed 2).Undisturbed 1 :=
      undisturbed_passed _ (undisturbed_congr (by rw [hw]; rfl) (by rw [hw]; rfl) (by rw [hw]; rfl)
        (by rw [hw]; rfl) hu)
    rw [← ht]
    exact undisturbed_congr rfl rfl rfl rfl this
  refine ⟨t, if w.getLsbD p then 0x31 else 0x30, ?bit, ?read, hoff, hagents, ?next⟩
  case bit => split <;> simp
  case read =>
    subst hp
    exact hcopied (by decide) (undisturbed_mono s hu (by decide)) hd
  case next =>
    generalize ht' : ({ t.ret (.count 2 [if w.getLsbD p then 0x31 else 0x30, 0x0A]) with
      sel := c } : State) = t'
    have hcfg : t'.cfg = s.cfg := by rw [← ht', ← ht, hw]; simp
    have hmap : t'.mapping = s.mapping := by rw [← ht', ← ht, hw]; simp
    have hses : t'.sessions = s.sessions := by rw [← ht', ← ht, hw]; simp
    have hoff' : tableGet t'.offsets id = some 2 := by rw [← ht']; exact hoff
    have hut' : t'.Undisturbed 1 := ht' ▸ undisturbed_ret_select hut _ c
    obtain ⟨w', u', hw', -, hread'⟩ :=
      sigReadResult.1 t' id m' 2 (hcfg ▸ hv) (hmap ▸ hm) (hses ▸ hs) hoff'
    obtain ⟨hnone, -⟩ := hread'
    refine ⟨u'.passed 1, hnone (if_pos (le_refl 2)) hut', ?_, ?_⟩
    · rw [hw']
      simpa using hoff'
    · rw [hw', ← ht']
      simp

end Sys2Proof.Machine
end

section
/-!
The values of an LED write (30_encoding.md R102, R103) and the calls of the LED endpoint
(44_led_endpoint.md R225 to R229).
-/

namespace Sys2Proof.Machine

/-! ### The Text decoder (30_encoding.md R102) -/

/-- The byte of a character. -/
def charByte (c : Char) : Byte := BitVec.ofNat 8 c.toNat

/-- The byte of a digit is a digit and keeps its number. -/
theorem charByte_digit {c : Char} (h : c.isDigit = true) :
    (charByte c).toNat = c.toNat ∧ Sys2Proof.isDigit (charByte c) = true := by
  have hc : 48 ≤ c.toNat ∧ c.toNat ≤ 57 := Char.isDigit_iff_toNat.mp h
  have hn : (charByte c).toNat = c.toNat := by
    rw [charByte, BitVec.toNat_ofNat]
    omega
  refine ⟨hn, ?_⟩
  simp only [Sys2Proof.isDigit, hn, Bool.and_eq_true, decide_eq_true_eq]
  exact hc

/-- The decimal value of a digit string is the number its characters spell. -/
theorem decimalValue_map {l : List Char} (h : ∀ c ∈ l, c.isDigit = true) :
    decimalValue (l.map charByte) = Nat.ofDigitChars 10 l 0 := by
  rw [decimalValue, List.foldl_map, Nat.ofDigitChars_eq_foldl]
  refine List.foldl_ext _ _ _ fun a c hc => ?_
  rw [(charByte_digit (h c hc)).1]
  rfl

/-- A number's digits, with zeros before them. -/
def paddedDigits (z n : Nat) : List Char := List.replicate z '0' ++ Nat.toDigits 10 n

theorem paddedDigits_digit (z n : Nat) : ∀ c ∈ paddedDigits z n, c.isDigit = true := by
  intro c hc
  rcases List.mem_append.mp hc with hz | hn
  · obtain rfl := List.eq_of_mem_replicate hz
    rfl
  · exact Nat.isDigit_of_mem_toDigits (by decide) (by decide) hn

theorem decimalValue_paddedDigits (z n : Nat) :
    decimalValue ((paddedDigits z n).map charByte) = n := by
  rw [decimalValue_map (paddedDigits_digit z n), paddedDigits, Nat.ofDigitChars_append,
    Nat.ofDigitChars_replicate_zero, Nat.mul_zero, Nat.ofDigitChars_ten_toDigits]

theorem map_paddedDigits (z n : Nat) :
    (paddedDigits z n).map charByte =
      List.replicate z 0x30 ++ (Nat.toDigits 10 n).map charByte := by
  rw [paddedDigits, List.map_append, List.map_replicate]
  rfl

/-- A newline at the end is removed. -/
theorem stripNewline_newline (t : List Byte) : stripNewline (t ++ [0x0A]) = t := by
  simp [stripNewline]

/-- Any other last byte stays. -/
theorem stripNewline_other (t : List Byte) {b : Byte} (h : b ≠ 0x0A) :
    stripNewline (t ++ [b]) = t ++ [b] := by
  rw [stripNewline, List.getLast?_concat, if_neg fun he => h (Option.some.inj he)]

/-- A digit string has no newline to remove. -/
theorem stripNewline_digits {t : List Byte} (h : t.all Sys2Proof.isDigit = true) :
    stripNewline t = t := by
  rcases List.eq_nil_or_concat t with rfl | ⟨u, b, rfl⟩
  · rfl
  · have hb : Sys2Proof.isDigit b = true := by simp_all
    rw [List.concat_eq_append]
    refine stripNewline_other u fun he => ?_
    rw [he] at hb
    exact absurd hb (by decide)

/-- What the decoder makes of data whose digits, without the newline, are all there is. -/
theorem ledTextValue_of_strip {data t : List Byte} (hs : stripNewline data = t) (hne : t ≠ [])
    (h : t.all Sys2Proof.isDigit = true) :
    ledValue .text data = if decimalValue t ≤ ledTextMax then some (decimalValue t) else none := by
  simp [ledValue, ledTextValue, hs, hne, h]

/-- A byte that is no digit and stays is rejected. -/
theorem ledTextValue_reject {data : List Byte} {b : Byte} (hb : b ∈ stripNewline data)
    (h : ¬ (0x30 ≤ b.toNat ∧ b.toNat ≤ 0x39)) : ledValue .text data = none := by
  have hall : ¬ (stripNewline data).all Sys2Proof.isDigit = true := by
    intro hall
    have := List.all_eq_true.mp hall b hb
    simp only [Sys2Proof.isDigit, Bool.and_eq_true, decide_eq_true_eq] at this
    exact h this
  exact if_neg fun hc => hall hc.2.1

/-- A byte before the last one stays. -/
theorem mem_stripNewline (t u : List Byte) (b c : Byte) : b ∈ stripNewline (t ++ b :: u ++ [c]) := by
  unfold stripNewline
  split
  · rw [List.dropLast_concat]
    simp
  · simp

/-- Settles O42: a digit string is its own strip and spells its number, and a byte that is no digit
survives the strip unless it is the newline at the end. -/
theorem ledTextGrammar : Obligations.LedTextGrammar := by
  refine ⟨?accepted, fun t u b c hb => ledTextValue_reject (mem_stripNewline t u b c) hb,
    fun t b hne hb => ledTextValue_reject (b := b) ?last hb, rfl, rfl⟩
  case last => simp [stripNewline_other t hne]
  case accepted =>
    rintro n z t ht
    have ht' : t = (paddedDigits z n).map charByte := ht.trans (map_paddedDigits z n).symm
    subst ht'
    have hall : ((paddedDigits z n).map charByte).all Sys2Proof.isDigit = true := by
      rw [List.all_map, List.all_eq_true]
      exact fun c hc => (charByte_digit (paddedDigits_digit z n c hc)).2
    have hne : (paddedDigits z n).map charByte ≠ [] := by simp [paddedDigits]
    constructor
    · rw [ledTextValue_of_strip (stripNewline_digits hall) hne hall, decimalValue_paddedDigits]
      rfl
    · rw [ledTextValue_of_strip (stripNewline_newline _) hne hall, decimalValue_paddedDigits]
      rfl

/-! ### The Binary decoder (30_encoding.md R103) -/

/-- A byte placed above all the bits of a word adds to its number. -/
theorem toNat_or_byte (x : Word) (b : Byte) {i : Nat} (hx : x.toNat < 2 ^ i) (hi : i ≤ 24) :
    (x ||| b.setWidth 32 <<< i).toNat = x.toNat + 2 ^ i * b.toNat := by
  have hb : b.toNat < 2 ^ 8 := b.isLt
  have hfit : b.toNat * 2 ^ i < 2 ^ 32 :=
    calc b.toNat * 2 ^ i < 2 ^ 8 * 2 ^ i := Nat.mul_lt_mul_of_pos_right hb (Nat.two_pow_pos i)
      _ = 2 ^ (8 + i) := (Nat.pow_add ..).symm
      _ ≤ 2 ^ 32 := Nat.pow_le_pow_right (by decide) (by omega)
  have hshift : (b.setWidth 32 <<< i).toNat = 2 ^ i * b.toNat := by
    rw [BitVec.toNat_shiftLeft, BitVec.toNat_setWidth, Nat.mod_eq_of_lt (a := b.toNat) (by omega),
      Nat.shiftLeft_eq, Nat.mod_eq_of_lt hfit, Nat.mul_comm]
  rw [BitVec.toNat_or, hshift, Nat.lor_comm, ← Nat.two_pow_add_eq_or_of_lt hx, Nat.add_comm]

/-- Settles O43: each byte is placed above the ones before it. -/
theorem ledBinaryValueIsLittleEndian : Obligations.LedBinaryValueIsLittleEndian := by
  refine ⟨fun b0 b1 b2 b3 rest => ?bytes, fun d hd => ?short⟩
  case bytes =>
    have h0 := b0.isLt
    have h1 := b1.isLt
    have h2 := b2.isLt
    have e0 : (b0.setWidth 32 : Word).toNat = b0.toNat := by
      rw [BitVec.toNat_setWidth, Nat.mod_eq_of_lt (by omega)]
    have e1 := toNat_or_byte (b0.setWidth 32) b1 (i := 8) (by omega) (by decide)
    have e2 := toNat_or_byte (b0.setWidth 32 ||| b1.setWidth 32 <<< 8) b2 (i := 16) (by omega)
      (by decide)
    have e3 := toNat_or_byte (b0.setWidth 32 ||| b1.setWidth 32 <<< 8 ||| b2.setWidth 32 <<< 16) b3
      (i := 24) (by omega) (by decide)
    simp only [ledValue, ledBinaryValue]
    rw [e3, e2, e1, e0]
    rfl
  case short =>
    match d, hd with
    | [], _ => rfl
    | [_], _ => rfl
    | [_, _], _ => rfl
    | [_, _, _], _ => rfl
    | _ :: _ :: _ :: _ :: _, hd =>
      simp only [List.length_cons] at hd
      omega

/-! ### Opens and reads (44_led_endpoint.md R225, R228) -/

/-- Settles O39: the three ends of an open. -/
theorem ledOpenResult : Obligations.LedOpenResult := by
  intro s
  change (_ → execLedOpen s = _) ∧ (_ → _ → execLedOpen s = _) ∧
    (_ → _ → ∃ id, s.fresh ≤ id ∧ (s.WF → tableGet s.sessions id = none) ∧ execLedOpen s = _)
  unfold execLedOpen ledOpen
  refine ⟨fun h => ?denied, fun h hr => ?noDevice, fun h hr => ?opened⟩
  case denied =>
    rw [openSession_denied s .led h]
    rfl
  case noDevice =>
    rw [openSession_noDevice s .led h hr]
    rfl
  case opened =>
    have hid : s.fresh ≤ (s.skip 1).freshId := Nat.le_add_right _ _
    refine ⟨(s.skip 1).freshId, hid, fun hs => hs.get_fresh hid, ?_⟩
    rw [openSession_ok s .led h hr]
    rfl

/-- Settles O44: the session check passes, and that is all a read does. -/
theorem ledReadNotSupported : Obligations.LedReadNotSupported := by
  intro s id n h
  change execLedRead id n s = _
  rw [execLedRead, ledRead, hasSession_of_get h]
  rfl

/-! ### led.write (44_led_endpoint.md R226) -/

section drive
variable {s : State} {v m : Nat}

/-- Zero drives low and any other value high (30_encoding.md R104). -/
theorem ledWriteAdvance_eq (v m : Nat) (s : State) :
    ledWriteAdvance (.drive v m) s =
      (drivePin (driveOffset (decide (v ≠ 0))) s.cfg.outputPin s).map fun _ =>
        .done (.count m []) := by
  by_cases hv : v = 0 <;> simp [ledWriteAdvance, hv, driveOffset, setHigh, setLow]

/-- The offset a value is written to, SET or CLR. -/
theorem driveOffset_decide (v : Nat) :
    driveOffset (decide (v ≠ 0)) = if v = 0 then 0x28 else 0x1C := by
  by_cases hv : v = 0 <;> simp [driveOffset, hv]

/-- The drive of a mapped output pin is the write's last step. -/
theorem resume_drive_ok (hp : s.cfg.outputPin < levelPins)
    (hf : s.fsel.field s.cfg.outputPin = modeOutput) (hm : s.mapping ≠ none) :
    resume (.ledWrite (.drive v m)) s =
      (s.driven (decide (v ≠ 0)) s.cfg.outputPin).ret (.count m []) := by
  rw [resume, ledWriteAdvance_eq, drivePin_driven s _ _ hm hp hf]
  exact runCall_done ..

/-- A drive that raises a fault. -/
theorem resume_drive_raised {f : FaultCode} {n : Nat}
    (h : drivePin (driveOffset (decide (v ≠ 0))) s.cfg.outputPin s = .raise f n) :
    resume (.ledWrite (.drive v m)) s = s.raise f n := by
  rw [resume, ledWriteAdvance_eq, h]
  exact runCall_raise ..

end drive

section ledWrite
variable {s : State} {id v : Nat} {d : List Byte}

/-- The first step of a led.write on a session of the endpoint: the transfer, then the value. -/
theorem ledWriteStart_eq (hs : tableGet s.sessions id = some .led) :
    ledWriteStart id d s =
      if s.copyOk (ledTaken s.cfg.ledEncoding d.length) = true then
        match ledValue s.cfg.ledEncoding (d.take (ledTaken s.cfg.ledEncoding d.length)) with
        | some v => .ok (.again (.drive v (ledTaken s.cfg.ledEncoding d.length)))
          (s.afterCopy (ledTaken s.cfg.ledEncoding d.length))
        | none => .error .invalidValue (s.afterCopy (ledTaken s.cfg.ledEncoding d.length))
      else .error .copyFault (s.afterCopy (ledTaken s.cfg.ledEncoding d.length)) := by
  rw [ledWriteStart, hasSession_of_get hs]
  rfl

/-- No data have no value (30_encoding.md R102, R103). -/
theorem ledValue_nil (enc : LedEncoding) : ledValue enc [] = none := by
  cases enc <;> rfl

/-- Data that have a value are not empty. -/
theorem taken_ne_zero {enc : LedEncoding} {n : Nat} (h : ledValue enc (d.take n) = some v) :
    n ≠ 0 := by
  rintro rfl
  rw [List.take_zero, ledValue_nil] at h
  cases h

/-- A led.write of an accepted value goes on with its drive. -/
theorem exec_ledWrite_goOn (hs : tableGet s.sessions id = some .led)
    (hd : asBool (s.peek 0) = true)
    (hv : ledValue s.cfg.ledEncoding (d.take (ledTaken s.cfg.ledEncoding d.length)) = some v) :
    exec (.ledWrite id d) s = .next ((s.skip 1).goOn
      (.ledWrite (.drive v (ledTaken s.cfg.ledEncoding d.length)))) := by
  have hn := taken_ne_zero hv
  change execLedWrite id d s = _
  rw [execLedWrite, ledWriteStart_eq hs, copyOk_of_ne hn, if_pos hd, hv, afterCopy_of_ne hn]
  exact congrArg _ (ledWrite_goOn s (s.skip 1) _)

/-- A led.write whose transfer fails is CopyFault, whatever the data. -/
theorem exec_ledWrite_failed (hs : tableGet s.sessions id = some .led)
    (hn : ledTaken s.cfg.ledEncoding d.length ≠ 0) (hd : asBool (s.peek 0) = false) :
    exec (.ledWrite id d) s = .next ((s.skip 1).ret (.error .copyFault)) := by
  change execLedWrite id d s = _
  rw [execLedWrite, ledWriteStart_eq hs, copyOk_of_ne hn, if_neg (by rw [hd]; decide),
    afterCopy_of_ne hn, runCall_error]

/-- A led.write of rejected data is InvalidValue once they are transferred. -/
theorem exec_ledWrite_invalid (hs : tableGet s.sessions id = some .led)
    (hc : s.copyOk (ledTaken s.cfg.ledEncoding d.length) = true)
    (hv : ledValue s.cfg.ledEncoding (d.take (ledTaken s.cfg.ledEncoding d.length)) = none) :
    exec (.ledWrite id d) s = .next
      ((s.afterCopy (ledTaken s.cfg.ledEncoding d.length)).ret (.error .invalidValue)) := by
  change execLedWrite id d s = _
  rw [execLedWrite, ledWriteStart_eq hs, if_pos hc, hv]
  exact congrArg _ (runCall_error ..)

end ledWrite

/-- Settles O40: the transfer, and the drive of the value transferred. -/
theorem ledWriteDrives : Obligations.LedWriteDrives := by
  intro s id v d hs hd m hv
  have hm : m = ledTaken s.cfg.ledEncoding d.length := by
    cases he : s.cfg.ledEncoding <;> simp [m, he, ledTaken, ledBinWidth]
  clear_value m
  subst hm
  have hrun := exec_ledWrite_goOn hs hd hv
  have drives : s.Undisturbed 1 → exec (.ledWrite id d) s = .next
      (resume (.ledWrite (.drive v (ledTaken s.cfg.ledEncoding d.length)))
        ((s.passed 1).skip 1)) := by
    intro hu
    have hu' : (s.skip 1).Undisturbed (0 + 1) := undisturbed_congr rfl rfl rfl rfl hu
    rw [hrun, goOn_of_undisturbed _ _ hu', passed_skip]
  refine ⟨fun hothers hc => ?waits, drives, fun hu hvalid hmap hf =>
    ⟨drivenLatch (decide (v ≠ 0)) s.outlatch s.cfg.outputPin, ?driven,
      getLsbD_drivenLatch _ s.outlatch _⟩⟩
  case waits =>
    rw [hrun, goOn_of_turned (s.skip 1) _ ((othersEnabled_congr rfl rfl).trans hothers) hc,
      passed_skip]
  case driven =>
    have hf' : ((s.passed 1).skip 1).fsel.field ((s.passed 1).skip 1).cfg.outputPin = modeOutput := by
      simp only [skip_fsel, skip_cfg, passed_fsel, passed_cfg]
      exact hf
    rw [drives hu, resume_drive_ok (by simpa using outputPin_lt hvalid) hf' (by simpa using hmap),
      State.driven, driveOffset_decide]
    simp only [skip_cfg, passed_cfg, skip_outlatch, passed_outlatch]
    rfl

/-- Settles O41: the transfer's failure comes first, then the value's, and no data transfer
nothing. -/
theorem ledWriteErrors : Obligations.LedWriteErrors := by
  intro s id d hs m
  have hm : m = ledTaken s.cfg.ledEncoding d.length := by
    cases he : s.cfg.ledEncoding <;> simp [m, he, ledTaken, ledBinWidth]
  clear_value m
  subst hm
  refine ⟨fun hn hd => exec_ledWrite_failed hs hn hd, fun hn hd hv => ?rejected, fun hn => ?empty⟩
  case rejected =>
    rw [exec_ledWrite_invalid hs ((copyOk_of_ne hn).trans hd) hv, afterCopy_of_ne hn]
  case empty =>
    rw [exec_ledWrite_invalid hs (by rw [hn]; rfl) (by rw [hn, List.take_zero, ledValue_nil]), hn]
    rfl

end Sys2Proof.Machine
end

section
/-!
Calls gone on with, and the calls of the lifecycle agent (46_lifecycle.md R270 to R274): each atomic
step of a startup and of a teardown, and their runs to the end.
-/

namespace Sys2Proof.Machine

/-! ### One atomic step of a lifecycle call that is gone on with -/

section steps
variable {s s' : State}

/-- A startup goes on after a step that went through. -/
theorem resume_startup_again {t u : StartupTask} (h : startupAdvance t s = .ok (.again u) s') :
    resume (.startup t) s = s'.goOn (.startup u) := by
  rw [resume, h, startup_goOn]

theorem resume_startup_refused {t : StartupTask} {r : RefusalReason}
    (h : startupAdvance t s = .refuse r) : resume (.startup t) s = s.refuse r := by
  rw [resume, h, runCall_refuse]

theorem resume_startup_raised {t : StartupTask} {f : FaultCode} {n : Nat}
    (h : startupAdvance t s = .raise f n) : resume (.startup t) s = s.raise f n := by
  rw [resume, h, runCall_raise]

/-- A teardown goes on after a step that went through. -/
theorem resume_teardown_again {t u : TeardownTask} (h : teardownAdvance t s = .ok (.again u) s') :
    resume (.teardown t) s = s'.goOn (.teardown u) := by
  rw [resume, h, teardown_goOn]

theorem resume_teardown_refused {t : TeardownTask} {r : RefusalReason}
    (h : teardownAdvance t s = .refuse r) : resume (.teardown t) s = s.refuse r := by
  rw [resume, h, runCall_refuse]

theorem resume_teardown_raised {t : TeardownTask} {f : FaultCode} {n : Nat}
    (h : teardownAdvance t s = .raise f n) : resume (.teardown t) s = s.raise f n := by
  rw [resume, h, runCall_raise]

end steps

/-! ### The configuration of a pin (46_lifecycle.md R270) -/

/-- The read of a pin's word by startup gives the field of every pin of the word. -/
theorem resume_readFsel (s : State) (c : ConfigSlot) (hm : s.mapping ≠ none)
    (hp : slotPin s.cfg c < 54) :
    ∃ w : Word, resume (.startup (.readFsel c)) s =
        ((s.skip 1).log .read (4 * (slotPin s.cfg c / 10)) w).goOn (.startup (.writeFsel c w)) ∧
      ∀ q, q < 54 → q / 10 = slotPin s.cfg c / 10 →
        w.extractLsb' (3 * (q % 10)) 3 = s.fsel.field q :=
  ⟨s.memValue (fselOffset (slotPin s.cfg c)),
    resume_startup_again (startupAdvance_readFsel_ok s c hm hp),
    fun q hq h => extract_memValue s _ q hq h⟩

/-- The write-back of a word by startup sets the pin's field. -/
theorem resume_writeFsel (s : State) (c : ConfigSlot) (w : Word) (hm : s.mapping ≠ none)
    (hp : slotPin s.cfg c < 54) :
    ∃ f : Fsel, resume (.startup (.writeFsel c w)) s =
        ({ s with fsel := f }.log .write (4 * (slotPin s.cfg c / 10))
          (withField w (slotPin s.cfg c) (slotMode c))).goOn (.startup (afterSlot c)) ∧
      ∀ q, q < 54 → f.field q =
        if q = slotPin s.cfg c then slotMode c
        else if q / 10 = slotPin s.cfg c / 10 then w.extractLsb' (3 * (q % 10)) 3
        else s.fsel.field q := by
  refine ⟨s.fsel.store (fselIndex (slotPin s.cfg c)) (withField w (slotPin s.cfg c) (slotMode c)),
    ?_, fun q hq => field_store_withField_any s.fsel _ q _ w hq⟩
  rw [resume_startup_again (startupAdvance_writeFsel_ok s c w hm hp), afterWrite_fselOffset s _ _ hp]
  rfl

/-! ### Undisturbed runs

A run is followed as a change G of the block's own state, past k places where it might have waited. -/

section runs
variable {s b : State} {G : State → State} {k : Nat}

/-- Undisturbed at one more place, a startup takes its next step there. -/
theorem resume_startup_next {t u : StartupTask} (hG : Unscheduled G) (hu : s.Undisturbed (k + 1))
    (h : startupAdvance t b = .ok (.again u) (G (s.passed k))) :
    resume (.startup t) b = resume (.startup u) (G (s.passed (k + 1))) := by
  rw [resume_startup_again h,
    goOn_of_undisturbed _ _ (hG.undisturbed _ (undisturbed_passed _ hu)), hG.passed, passed_passed]

/-- Undisturbed at one more place, a teardown takes its next step there. -/
theorem resume_teardown_next {t u : TeardownTask} (hG : Unscheduled G) (hu : s.Undisturbed (k + 1))
    (h : teardownAdvance t b = .ok (.again u) (G (s.passed k))) :
    resume (.teardown t) b = resume (.teardown u) (G (s.passed (k + 1))) := by
  rw [resume_teardown_again h,
    goOn_of_undisturbed _ _ (hG.undisturbed _ (undisturbed_passed _ hu)), hG.passed, passed_passed]

end runs

/-- Undisturbed from its unmapping on, a teardown ends Absent. -/
theorem resume_unmap_run (s : State) (hu : s.Undisturbed 3) (hm : s.mapping ≠ none)
    (hsig : s.sigReg = true) (hled : s.ledReg = true) :
    resume (.teardown .unmap) s = { s.passed 3 with
      mapping := none, sigReg := false, ledReg := false, phase := .absent }.ret .ok := by
  rw [resume_teardown_next (G := fun x => { x with mapping := none }) (k := 0) (fun _ _ _ => rfl)
      (undisturbed_mono _ hu (by decide)) (by rw [passed_zero]; exact teardownAdvance_unmap_ok s hm),
    resume_teardown_next (G := fun x => { x with mapping := none, sigReg := false }) (k := 1)
      (fun _ _ _ => rfl) (undisturbed_mono _ hu (by decide))
      (teardownAdvance_deregisterSig_ok _ (by simpa using hsig)),
    resume_teardown_next (G := fun x => { x with mapping := none, sigReg := false, ledReg := false })
      (k := 2) (fun _ _ _ => rfl) hu (teardownAdvance_deregisterLed_ok _ (by simpa using hled))]
  rfl

/-! ### The ends of a startup (46_lifecycle.md R270, R274) -/

section registrations
variable {s : State}

theorem startupAdvance_registerSig_ok (h : s.sigReg = false) (hd : asBool (s.peek 0) = true) :
    startupAdvance .registerSig s = .ok (.again .registerLed) { s.skip 1 with sigReg := true } := by
  rw [startupAdvance_registerSig s h, if_pos hd]

theorem startupAdvance_registerSig_failed (h : s.sigReg = false) (hd : asBool (s.peek 0) = false) :
    startupAdvance .registerSig s = .ok (.again .rollbackMap) (s.skip 1) := by
  rw [startupAdvance_registerSig s h, if_neg (by rw [hd]; decide)]

theorem startupAdvance_registerLed_ok (h : s.ledReg = false) (hd : asBool (s.peek 0) = true) :
    startupAdvance .registerLed s = .ok (.again .enterRunning) { s.skip 1 with ledReg := true } := by
  rw [startupAdvance_registerLed s h, if_pos hd]

theorem startupAdvance_registerLed_failed (h : s.ledReg = false) (hd : asBool (s.peek 0) = false) :
    startupAdvance .registerLed s = .ok (.again .rollbackSig) (s.skip 1) := by
  rw [startupAdvance_registerLed s h, if_neg (by rw [hd]; decide)]

end registrations

/-- The state of a startup whose registrations were taken back. -/
def State.rolledBack (s : State) : State :=
  { s with sel := .ch1, mapping := none, sigReg := false, phase := .absent }

section ends
variable (s : State)

/-- Undisturbed, a startup selects CH1 and comes to its registrations. -/
theorem resume_selectFirst_registerSig (hu : s.Undisturbed 1) :
    resume (.startup .selectFirst) s =
      resume (.startup .registerSig) { s.passed 1 with sel := .ch1 } :=
  resume_startup_next (s := s) (k := 0) (G := fun x => { x with sel := .ch1 }) (fun _ _ _ => rfl) hu
    (by rw [passed_zero]; rfl)

/-- Undisturbed, a startup that registers the first endpoint comes to the second. -/
theorem resume_selectFirst_registerLed (hu : s.Undisturbed 2) (hsig : s.sigReg = false)
    (hd : asBool (s.peek 0) = true) :
    resume (.startup .selectFirst) s =
      resume (.startup .registerLed) { (s.passed 2).skip 1 with sel := .ch1, sigReg := true } := by
  have hd' : asBool (({ s.passed 1 with sel := .ch1 } : State).peek 0) = true :=
    (congrArg asBool (passed_peek s 1 0)).trans hd
  rw [resume_selectFirst_registerSig s (undisturbed_mono _ hu (by decide)),
    resume_startup_next (G := fun x => { x.skip 1 with sel := .ch1, sigReg := true })
      (fun _ _ _ => rfl) hu (startupAdvance_registerSig_ok (by simpa using hsig) hd')]

/-- Undisturbed, a startup whose registrations both succeed ends Running. -/
theorem resume_selectFirst_run (hu : s.Undisturbed 3) (hsig : s.sigReg = false)
    (hled : s.ledReg = false) (hd0 : asBool (s.peek 0) = true) (hd1 : asBool (s.peek 1) = true) :
    resume (.startup .selectFirst) s = { (s.passed 3).skip 2 with
      sel := .ch1, sigReg := true, ledReg := true, phase := .running }.ret .ok := by
  have hd : asBool (({ (s.passed 2).skip 1 with sel := .ch1, sigReg := true } : State).peek 0) =
      true := (congrArg asBool ((peek_skip (s.passed 2) 1 0).trans (passed_peek s 2 1))).trans hd1
  rw [resume_selectFirst_registerLed s (undisturbed_mono _ hu (by decide)) hsig hd0,
    resume_startup_next
      (G := fun x => { (x.skip 1).skip 1 with sel := .ch1, sigReg := true, ledReg := true })
      (fun _ _ _ => rfl) hu (startupAdvance_registerLed_ok (by simpa using hled) hd), skip_skip]
  rfl

/-- Undisturbed, a startup whose first registration fails ends Absent (46_lifecycle.md R274). -/
theorem resume_selectFirst_sigFails (hu : s.Undisturbed 3) (hm : s.mapping ≠ none)
    (hsig : s.sigReg = false) (hd : asBool (s.peek 0) = false) :
    resume (.startup .selectFirst) s =
      ((s.passed 3).skip 1).rolledBack.ret (.error .registrationFailure) := by
  have hback : ((s.passed 3).skip 1).sigReg = false := (passed_sigReg s 3).trans hsig
  have hd' : asBool (({ s.passed 1 with sel := .ch1 } : State).peek 0) = false :=
    (congrArg asBool (passed_peek s 1 0)).trans hd
  rw [resume_selectFirst_registerSig s (undisturbed_mono _ hu (by decide)),
    resume_startup_next (G := fun x => { x.skip 1 with sel := .ch1 }) (fun _ _ _ => rfl)
      (undisturbed_mono _ hu (by decide))
      (startupAdvance_registerSig_failed (by simpa using hsig) hd'),
    resume_startup_next (G := fun x => { x.skip 1 with sel := .ch1, mapping := none })
      (fun _ _ _ => rfl) hu (startupAdvance_rollbackMap_ok _ (by simpa using hm)), State.rolledBack,
    ← hback]
  rfl

/-- Undisturbed, a startup whose second registration fails takes the first one back and ends Absent
(46_lifecycle.md R274). -/
theorem resume_selectFirst_ledFails (hu : s.Undisturbed 5) (hm : s.mapping ≠ none)
    (hsig : s.sigReg = false) (hled : s.ledReg = false) (hd0 : asBool (s.peek 0) = true)
    (hd1 : asBool (s.peek 1) = false) :
    resume (.startup .selectFirst) s =
      ((s.passed 5).skip 2).rolledBack.ret (.error .registrationFailure) := by
  have hd : asBool (({ (s.passed 2).skip 1 with sel := .ch1, sigReg := true } : State).peek 0) =
      false := (congrArg asBool ((peek_skip (s.passed 2) 1 0).trans (passed_peek s 2 1))).trans hd1
  rw [resume_selectFirst_registerLed s (undisturbed_mono _ hu (by decide)) hsig hd0,
    resume_startup_next (G := fun x => { (x.skip 1).skip 1 with sel := .ch1, sigReg := true })
      (fun _ _ _ => rfl) (undisturbed_mono _ hu (by decide))
      (startupAdvance_registerLed_failed (by simpa using hled) hd),
    resume_startup_next (G := fun x => { (x.skip 1).skip 1 with sel := .ch1, sigReg := false })
      (fun _ _ _ => rfl) (undisturbed_mono _ hu (by decide)) (startupAdvance_rollbackSig_ok _ rfl),
    resume_startup_next
      (G := fun x => { (x.skip 1).skip 1 with sel := .ch1, sigReg := false, mapping := none })
      (fun _ _ _ => rfl) hu (startupAdvance_rollbackMap_ok _ (by simpa using hm)), skip_skip]
  rfl

end ends

/-! ### The three configured pins (46_lifecycle.md R270) -/

/-- The word startup reads of a pin's register. -/
def State.slotWord (s : State) (c : ConfigSlot) : Word := s.memValue (fselOffset (slotPin s.cfg c))

/-- The word it writes back. -/
def State.slotWritten (s : State) (c : ConfigSlot) : Word :=
  withField (s.slotWord c) (slotPin s.cfg c) (slotMode c)

/-- The state after the configuration of one pin: one read and one write of its register. -/
def State.slotSet (s : State) (c : ConfigSlot) : State :=
  (({ s.skip 1 with fsel := s.fsel.store (fselIndex (slotPin s.cfg c)) (s.slotWritten c) } :
    State).log .read (fselOffset (slotPin s.cfg c)) (s.slotWord c)).log .write
      (fselOffset (slotPin s.cfg c)) (s.slotWritten c)

@[simp] theorem slotSet_cfg (s : State) (c : ConfigSlot) : (s.slotSet c).cfg = s.cfg := rfl
@[simp] theorem slotSet_mapping (s : State) (c : ConfigSlot) : (s.slotSet c).mapping = s.mapping := rfl

theorem unscheduled_slotSet (c : ConfigSlot) : Unscheduled fun s => s.slotSet c := fun _ _ _ => rfl

/-- Undisturbed, a startup configures a pin and goes on to what comes after it. -/
theorem resume_slot (s : State) (c : ConfigSlot) (hu : s.Undisturbed 2) (hm : s.mapping ≠ none)
    (hp : slotPin s.cfg c < numPins) :
    resume (.startup (.readFsel c)) s = resume (.startup (afterSlot c)) ((s.passed 2).slotSet c) := by
  have hword : s.memValue (fselOffset (slotPin s.cfg c)) = (s.passed 1).slotWord c := by
    rw [State.slotWord, passed_memValue, passed_cfg]
  rw [resume_startup_next (G := fun x => x.afterRead (fselOffset (slotPin x.cfg c))) (k := 0)
      (fun _ _ _ => rfl) (undisturbed_mono _ hu (by decide))
      (by rw [passed_zero]; exact startupAdvance_readFsel_ok s c hm hp),
    hword, resume_startup_next (unscheduled_slotSet c) hu ?write]
  case write =>
    rw [startupAdvance_writeFsel_ok _ c _ (by simpa using hm) (by simpa using hp),
      afterWrite_fselOffset _ _ _ (by simpa using hp)]
    rfl

/-- The state after the configuration of all three pins. -/
def State.slotsSet (s : State) : State :=
  ((s.slotSet .input1).slotSet .input2).slotSet .output

/-- Undisturbed, a startup configures the three pins one after the other. -/
theorem resume_slots (s : State) (hu : s.Undisturbed 6) (hv : s.cfg.valid = true)
    (hm : s.mapping ≠ none) :
    resume (.startup (.readFsel .input1)) s = resume (.startup .selectFirst) (s.passed 6).slotsSet := by
  have h1 := unscheduled_slotSet .input1
  have h2 := unscheduled_slotSet .input2
  have hu1 := h1.undisturbed _ (undisturbed_passed s (k := 2) (n := 4) hu)
  have hu2 := h2.undisturbed _ (undisturbed_passed _ (k := 2) (n := 2) hu1)
  rw [resume_slot s _ (undisturbed_mono _ hu (by decide)) hm (slotPin_lt hv _), afterSlot,
    resume_slot _ _ (undisturbed_mono _ hu1 (by decide)) (by simpa using hm)
      (slotPin_lt (by simpa using hv) _), afterSlot,
    resume_slot _ _ hu2 (by simpa using hm) (slotPin_lt (by simpa using hv) _), afterSlot,
    h2.passed, h1.passed, h1.passed, passed_passed, passed_passed, State.slotsSet]

/-- The word read gives the field of every pin of its register (10_state.md R44). -/
theorem extract_slotWord (s : State) (c : ConfigSlot) (q : Nat) (hq : q < 54)
    (h : q / 10 = slotPin s.cfg c / 10) :
    (s.slotWord c).extractLsb' (3 * (q % 10)) 3 = s.fsel.field q :=
  extract_memValue s _ q hq h

/-- A pin's configuration changes the field of that pin alone (41_pin_control.md R150). -/
theorem field_slotSet (s : State) (c : ConfigSlot) (q : Nat) (hv : s.cfg.valid = true)
    (hq : q < 54) :
    (s.slotSet c).fsel.field q = if q = slotPin s.cfg c then slotMode c else s.fsel.field q := by
  have hp := slotPin_lt hv c
  have hk : fselIndex (slotPin s.cfg c) < 6 := by
    unfold numPins at hp
    unfold fselIndex
    omega
  have hw : s.slotWord c = fselReadWord s.fsel (fselIndex (slotPin s.cfg c)) (asWord (s.peek 0)) :=
    memValue_fsel s _ hk
  change (s.fsel.store _ (withField (s.slotWord c) _ _)).field q = _
  rw [hw]
  exact field_store_withField s.fsel _ q _ _ hp hq

/-- The two events of a pin's configuration. -/
def State.slotEvents (s : State) (c : ConfigSlot) : List Event :=
  [⟨s.current, .read, fselOffset (slotPin s.cfg c), s.slotWord c⟩,
    ⟨s.current, .write, fselOffset (slotPin s.cfg c), s.slotWritten c⟩]

/-- The configuration of the three pins records six accesses. -/
theorem slotsSet_history (s : State) :
    s.slotsSet.history =
      s.history ++ (s.slotEvents .input1 ++ ((s.slotSet .input1).slotEvents .input2 ++
        ((s.slotSet .input1).slotSet .input2).slotEvents .output)) := by
  simp [State.slotsSet, State.slotSet, State.slotEvents, State.log]

/-- The configuration of the three pins takes three draws and changes the fields and the history. -/
theorem slotsSet_eq (s : State) : s.slotsSet =
    { s.skip 3 with fsel := s.slotsSet.fsel, history := s.slotsSet.history } := by
  have hskip : s.skip 3 = ((s.skip 1).skip 1).skip 1 := by rw [skip_skip, skip_skip]
  rw [hskip]
  rfl

/-- The fields once the two inputs are configured (46_lifecycle.md R270). -/
theorem field_inputsSet (s : State) (hv : s.cfg.valid = true) (q : Nat) (hq : q < 54) :
    ((s.slotSet .input1).slotSet .input2).fsel.field q =
      if q = s.cfg.inputPin1 ∨ q = s.cfg.inputPin2 then 0 else s.fsel.field q := by
  have h1 : (s.slotSet .input1).fsel.field q = if q = s.cfg.inputPin1 then 0 else s.fsel.field q :=
    field_slotSet s .input1 q hv hq
  refine (field_slotSet (s.slotSet .input1) .input2 q hv hq).trans ?_
  change (if q = s.cfg.inputPin2 then 0 else (s.slotSet .input1).fsel.field q) = _
  by_cases h2 : q = s.cfg.inputPin2
  · rw [if_pos h2, if_pos (.inr h2)]
  · rw [if_neg h2, h1]
    simp only [h2, or_false]

/-- The configured pins have their functions, and every other field is kept (46_lifecycle.md R270). -/
theorem field_slotsSet (s : State) (hv : s.cfg.valid = true) (q : Nat) (hq : q < 54) :
    s.slotsSet.fsel.field q =
      if q = s.cfg.inputPin1 ∨ q = s.cfg.inputPin2 then 0
      else if q = s.cfg.outputPin then 1 else s.fsel.field q := by
  obtain ⟨-, h1o, h2o, -⟩ := (valid_iff s.cfg).mp hv
  refine (field_slotSet ((s.slotSet .input1).slotSet .input2) .output q hv hq).trans ?_
  rw [field_inputsSet s hv q hq]
  change (if q = s.cfg.outputPin then 1 else _) = _
  by_cases ho : q = s.cfg.outputPin
  · rw [if_pos ho, if_neg (by omega), if_pos ho]
  · rw [if_neg ho, if_neg ho]

/-! ### startup (46_lifecycle.md R270, R274) -/

/-- A startup from Absent goes on with its map. -/
theorem exec_startup_goOn (s : State) (hp : s.phase = .absent) :
    exec .startup s = .next ({ s with phase := .starting }.goOn (.startup .map)) := by
  change execStartup s = _
  rw [execStartup, startupStart, if_neg (not_not.mpr hp)]
  exact congrArg _ (startup_goOn s _ .map)

/-- Undisturbed, a startup from Absent comes to its map. -/
theorem exec_startup_map (s : State) (hu : s.Undisturbed 1) (hp : s.phase = .absent) :
    exec .startup s = .next (resume (.startup .map) { s.passed 1 with phase := .starting }) := by
  have hF : Unscheduled fun s => { s with phase := .starting } := fun _ _ _ => rfl
  rw [exec_startup_goOn s hp, goOn_of_undisturbed _ _ (n := 0) (hF.undisturbed s hu), hF.passed]

/-- The state of a startup that has its mapping. -/
def State.mappedForStartup (s : State) : State :=
  { s.skip 2 with
    phase := .starting, mapping := some (s.skip 1).freshId, fresh := (s.skip 1).freshId + 1 }

/-- The state of a startup that has its mapping and its three pins. -/
def State.startupConfigured (s : State) : State := s.mappedForStartup.slotsSet

theorem unscheduled_slotsSet : Unscheduled State.slotsSet :=
  ((unscheduled_slotSet .output).comp (unscheduled_slotSet .input2)).comp (unscheduled_slotSet .input1)

theorem unscheduled_mappedForStartup : Unscheduled State.mappedForStartup := fun _ _ _ => rfl

theorem unscheduled_startupConfigured : Unscheduled State.startupConfigured :=
  unscheduled_slotsSet.comp unscheduled_mappedForStartup

/-- Undisturbed, a startup whose map succeeds comes to its selection with the pins configured. -/
theorem exec_startup_selectFirst (s : State) (hu : s.Undisturbed 8) (hv : s.cfg.valid = true)
    (hp : s.phase = .absent) (hm : s.mapping = none) (hd : asBool (s.peek 0) = true) :
    exec .startup s = .next (resume (.startup .selectFirst) (s.passed 8).startupConfigured) := by
  have hF := unscheduled_mappedForStartup
  have hd' : asBool (({ s.passed 1 with phase := .starting } : State).peek 0) = true :=
    (congrArg asBool (passed_peek s 1 0)).trans hd
  rw [exec_startup_map s (undisturbed_mono _ hu (by decide)) hp,
    resume_startup_next hF (k := 1) (undisturbed_mono _ hu (by decide))
      (startupAdvance_map_ok _ (by simpa using hm) hd'),
    resume_slots _ (hF.undisturbed _ (undisturbed_passed _ (n := 6) hu))
      (by simpa [State.mappedForStartup] using hv) nofun,
    hF.passed, passed_passed, State.startupConfigured]

/-- Undisturbed past its eight places, such a startup stays so. -/
theorem undisturbed_startupConfigured (s : State) {n : Nat} (hu : s.Undisturbed (8 + n)) :
    (s.passed 8).startupConfigured.Undisturbed n :=
  unscheduled_startupConfigured.undisturbed _ (undisturbed_passed _ hu)

/-- The draws behind those of the map and the three reads. -/
theorem peek_startupConfigured (s : State) (j : Nat) : s.startupConfigured.peek j = s.peek (5 + j) :=
  (peek_congr (t := (((s.skip 2).skip 1).skip 1).skip 1) rfl rfl j).trans (by simp)

/-- What a startup has done when it comes to its selection. -/
theorem startupConfigured_eq (s : State) :
    s.startupConfigured = { s.skip 5 with
      phase := .starting
      mapping := some (s.skip 1).freshId
      fresh := (s.skip 1).freshId + 1
      fsel := s.startupConfigured.fsel
      history := s.startupConfigured.history } := by
  have hskip : s.skip 5 = (s.skip 2).skip 3 := (skip_skip s 2 3).symm
  rw [hskip]
  exact slotsSet_eq s.mappedForStartup

/-- The six accesses of a startup. -/
theorem startupConfigured_history (s : State) :
    s.startupConfigured.history = s.history ++ (s.mappedForStartup.slotEvents .input1 ++
      ((s.mappedForStartup.slotSet .input1).slotEvents .input2 ++
        ((s.mappedForStartup.slotSet .input1).slotSet .input2).slotEvents .output)) :=
  slotsSet_history s.mappedForStartup

/-- The fields a startup has set when it comes to its selection. -/
theorem field_startupConfigured (s : State) (hv : s.cfg.valid = true) (q : Nat) (hq : q < 54) :
    s.startupConfigured.fsel.field q =
      if q = s.cfg.inputPin1 ∨ q = s.cfg.inputPin2 then 0
      else if q = s.cfg.outputPin then 1 else s.fsel.field q :=
  field_slotsSet s.mappedForStartup hv q hq

@[simp] theorem startupConfigured_sigReg (s : State) : s.startupConfigured.sigReg = s.sigReg := by
  rw [startupConfigured_eq, skip_sigReg]

@[simp] theorem startupConfigured_ledReg (s : State) : s.startupConfigured.ledReg = s.ledReg := by
  rw [startupConfigured_eq, skip_ledReg]

@[simp] theorem startupConfigured_mapping (s : State) :
    s.startupConfigured.mapping = some (s.skip 1).freshId := by
  rw [startupConfigured_eq]

/-- Settles O45: the map, the three configurations, the selection and the registrations, one after the
other. -/
theorem startupSucceeds : Obligations.StartupSucceeds := by
  refine ⟨exec_startup_goOn, fun s hu hv hp hm hsig hled hd0 hd5 hd6 => ?_⟩
  rw [exec_startup_selectFirst s (undisturbed_mono _ hu (by decide)) hv hp hm hd0,
    resume_selectFirst_run _ (undisturbed_startupConfigured s hu) ?sig ?led ?draw0 ?draw1,
    unscheduled_startupConfigured.passed, passed_passed, ← passed_cfg s 11, ← passed_fsel s 11,
    ← passed_history s 11, ← passed_current s 11, ← passed_fresh s 11]
  case sig => simpa using hsig
  case led => simpa using hled
  case draw0 => rw [peek_startupConfigured, passed_peek, hd5]
  case draw1 => rw [peek_startupConfigured, passed_peek, hd6]
  replace hv : (s.passed 11).cfg.valid = true := by rwa [passed_cfg]
  generalize s.passed 11 = u at hv ⊢
  refine ⟨u.startupConfigured.fsel, u.mappedForStartup.slotWord .input1,
    (u.mappedForStartup.slotSet .input1).slotWord .input2,
    ((u.mappedForStartup.slotSet .input1).slotSet .input2).slotWord .output, (u.skip 1).freshId, ?run,
    Nat.le_add_right _ _, ?word1, ?word2, ?word3, ?fields⟩
  case run =>
    have hskip : u.skip 7 = (u.skip 5).skip 2 := (skip_skip u 5 2).symm
    rw [hskip, startupConfigured_eq, startupConfigured_history]
    generalize u.startupConfigured.fsel = f
    rfl
  case fields => exact field_startupConfigured u hv
  case word1 => exact extract_slotWord u.mappedForStartup .input1
  case word2 =>
    intro q hq h
    exact (extract_slotWord (u.mappedForStartup.slotSet .input1) .input2 q hq h).trans
      (field_slotSet u.mappedForStartup .input1 q hv hq)
  case word3 =>
    intro q hq h
    exact (extract_slotWord ((u.mappedForStartup.slotSet .input1).slotSet .input2) .output q hq h).trans
      (field_inputsSet u.mappedForStartup hv q hq)

/-- What a startup that was rolled back leaves (46_lifecycle.md R274). -/
theorem failedStartup_fields (s : State) (hv : s.cfg.valid = true) (hled : s.ledReg = false)
    (n k : Nat) (h : exec .startup s = .next
      (((s.passed n).startupConfigured.skip k).rolledBack.ret (.error .registrationFailure))) :
    ∃ t : State, exec .startup s = .next (t.ret (.error .registrationFailure)) ∧
      t.phase = .absent ∧ t.mapping = none ∧ t.sigReg = false ∧ t.ledReg = false ∧
      t.sel = .ch1 ∧ t.outlatch = s.outlatch ∧ t.sessions = s.sessions ∧
      t.offsets = s.offsets ∧ t.cfg = s.cfg ∧ t.faults = s.faults ∧
      t.refusalMark = s.refusalMark ∧ t.agents = s.agents ∧ t.current = s.current ∧
      t.history.length = s.history.length + 6 ∧
      ∀ p, p < 54 → t.fsel.field p =
        if p = s.cfg.inputPin1 ∨ p = s.cfg.inputPin2 then 0
        else if p = s.cfg.outputPin then 1 else s.fsel.field p := by
  have hlength : (s.passed n).startupConfigured.history.length = s.history.length + 6 := by
    rw [startupConfigured_history, List.length_append, passed_history]
    rfl
  have hfields := field_startupConfigured (s.passed n) (by simpa using hv)
  rw [passed_cfg, passed_fsel] at hfields
  rw [startupConfigured_eq] at h
  generalize (s.passed n).startupConfigured.history = l at h hlength
  generalize (s.passed n).startupConfigured.fsel = f at h hfields
  refine ⟨_, h, rfl, rfl, rfl, (passed_ledReg s n).trans hled, rfl, passed_outlatch s n,
    passed_sessions s n, passed_offsets s n, passed_cfg s n, passed_faults s n,
    passed_refusalMark s n, passed_agents s n, passed_current s n, hlength, hfields⟩

/-- Settles O46: what is left at the selection is as after any configuration, and each rollback ends
Absent. -/
theorem failedStartupLeaksNothing : Obligations.FailedStartupLeaksNothing := by
  intro s hv hp hm hsig hled
  refine ⟨fun hu hd => ?map, fun hd h => ?registration⟩
  case map =>
    have hd' : asBool (({ s.passed 1 with phase := .starting } : State).peek 0) = false :=
      (congrArg asBool (passed_peek s 1 0)).trans hd
    rw [exec_startup_map s (undisturbed_mono _ hu (by decide)) hp,
      resume_startup_next (G := fun x => { x.skip 1 with phase := .starting }) (fun _ _ _ => rfl) hu
        (startupAdvance_map_failed _ (by simpa using hm) hd')]
    have hphase : ((s.passed 2).skip 1).phase = .absent := by simpa using hp
    change Host.Outcome.next ((({ (s.passed 2).skip 1 with phase := .absent } : State)).ret _) = _
    rw [← hphase]
  case registration =>
    have hF := unscheduled_startupConfigured
    rcases h with ⟨hu, hd5⟩ | ⟨hu, hd5, hd6⟩
    · refine failedStartup_fields s hv hled 11 1 ?_
      rw [exec_startup_selectFirst s (undisturbed_mono _ hu (by decide)) hv hp hm hd,
        resume_selectFirst_sigFails _ (undisturbed_startupConfigured s hu) (by simp)
          (by simpa using hsig) (by rw [peek_startupConfigured, passed_peek, hd5]), hF.passed,
        passed_passed]
    · refine failedStartup_fields s hv hled 13 2 ?_
      rw [exec_startup_selectFirst s (undisturbed_mono _ hu (by decide)) hv hp hm hd,
        resume_selectFirst_ledFails _ (undisturbed_startupConfigured s hu) (by simp)
          (by simpa using hsig) (by simpa using hled)
          (by rw [peek_startupConfigured, passed_peek, hd5])
          (by rw [peek_startupConfigured, passed_peek, hd6]), hF.passed, passed_passed]

/-! ### teardown (46_lifecycle.md R271) -/

/-- A teardown from Running goes on with its drive. -/
theorem exec_teardown_goOn (s : State) (hp : s.phase = .running) :
    exec .teardown s = .next ({ s with phase := .stopping }.goOn (.teardown .driveLow)) := by
  change execTeardown s = _
  rw [execTeardown, teardownStart, if_neg (not_not.mpr hp)]
  exact congrArg _ (teardown_goOn s _ .driveLow)

/-- A teardown in any phase but Running is refused (46_lifecycle.md R271). -/
theorem exec_teardown_refused {s : State} (h : s.phase ≠ .running) :
    exec .teardown s = .next (s.refuse .lifecycle) := by
  change execTeardown s = _
  rw [execTeardown, teardownStart, if_pos h, runCall_refuse]

/-- The drive of a teardown (46_lifecycle.md R271). -/
theorem teardownAdvance_driveLow_driven (s : State) (hm : s.mapping ≠ none)
    (hp : s.cfg.outputPin < levelPins) (hf : s.fsel.field s.cfg.outputPin = modeOutput) :
    teardownAdvance .driveLow s = .ok (.again .unmap) (s.driven false s.cfg.outputPin) :=
  teardownAdvance_driveLow_ok s hm hp hf

/-- Settles O47: the drive, the unmapping and the deregistrations, one after the other. -/
theorem teardownResult : Obligations.TeardownResult := by
  refine ⟨exec_teardown_goOn, fun s hu hp hm hsig hled hpin hf =>
    ⟨drivenLatch false s.outlatch s.cfg.outputPin, ?run, getLsbD_drivenLatch false s.outlatch _⟩⟩
  have hF : Unscheduled fun s => { s with phase := .stopping } := fun _ _ _ => rfl
  have hG : Unscheduled fun s => { s.driven false s.cfg.outputPin with phase := .stopping } :=
    fun _ _ _ => rfl
  rw [exec_teardown_goOn s hp,
    goOn_of_undisturbed _ _ (n := 0) (hF.undisturbed s (undisturbed_mono _ hu (by decide))), hF.passed,
    resume_teardown_next hG (k := 1) (undisturbed_mono _ hu (by decide))
      (teardownAdvance_driveLow_driven _ (by simpa using hm) (by simpa [levelPins] using hpin)
        (by simpa [modeOutput] using hf)),
    resume_unmap_run _ (hG.undisturbed _ (undisturbed_passed _ (n := 3) hu))
      (by simpa [State.driven] using hm) (by simpa [State.driven] using hsig)
      (by simpa [State.driven] using hled), hG.passed, passed_passed]
  simp only [State.driven, passed_outlatch, passed_cfg]
  rfl

/-! ### What is refused, and the operations a lifecycle call is made of -/

/-- Settles O48: each call tests its phase first. -/
theorem lifecycleOutOfPhaseRefused : Obligations.LifecycleOutOfPhaseRefused := fun _ =>
  ⟨exec_startup_refused, exec_teardown_refused⟩

/-- Settles O49: the flag's test, and the host's draw behind it. -/
theorem registrationResult : Obligations.RegistrationResult := by
  intro s k
  change (_ → execRegisterEndpoint k s = _ ∧ execDeregisterEndpoint k s = _) ∧
    (_ → execDeregisterEndpoint k s = _ ∧ (_ → execRegisterEndpoint k s = _) ∧
      (_ → execRegisterEndpoint k s = _))
  unfold execRegisterEndpoint execDeregisterEndpoint
  refine ⟨fun h => ?registered, fun h => ?free⟩
  case registered =>
    rw [registerEndpoint_refused s k h, deregisterEndpoint_ok s k h]
    cases k <;> exact ⟨rfl, rfl⟩
  case free =>
    rw [registerEndpoint_of_free s k h, deregisterEndpoint_refused s k h]
    refine ⟨rfl, fun hd => ?_, fun hd => ?_⟩
    · rw [if_pos hd]
      cases k <;> rfl
    · rw [if_neg (by rw [hd]; decide)]
      rfl

/-! ### Reset (10_state.md R57) -/

/-- The configuration the model ships is valid. -/
theorem default_valid : Config.default.valid = true := by decide

/-- Settles O50: the fields of the reset state, and the turn of its one agent. -/
theorem resetValues : Obligations.ResetValues := by
  refine ⟨rfl, rfl, rfl, rfl, rfl, rfl, rfl, rfl, ⟨_, rfl, rfl, rfl, rfl, rfl⟩, ?first⟩
  obtain ⟨t, ht⟩ := exec_is_next .startup State.reset
  refine ⟨t, ht, ?_⟩
  rw [step_of_issue_call (a := ⟨.lifecycle, .calls (encode .startup :: Config.lifecycleLater), [],
    .ready⟩) (i := .startup) rfl rfl ?issue, ht]
  · rfl
  · rw [issue_of_fetch default_valid (c := encode .startup) rfl, judge_encode]
    rfl

/-- Settles O52: there is nothing in the maps, and the one agent is at a call boundary. -/
theorem resetIsOrderly : Obligations.ResetIsOrderly := by
  have hstatus : ∀ a ∈ State.reset.agents, a.kind = .lifecycle ∧ a.status = .ready := by
    intro a ha
    obtain rfl := List.mem_singleton.mp ha
    exact ⟨rfl, rfl⟩
  constructor
  case left =>
    exact ⟨rfl, rfl, rfl, nofun, fun _ => ⟨nofun, nofun⟩, fun a ha k hk => by
      rw [(hstatus a ha).2] at hk
      cases hk⟩
  case right =>
    refine ⟨default_valid, fun a ha => ?_, ⟨rfl, rfl, rfl⟩, fun a ha => ?_⟩
    · obtain ⟨hk, hr⟩ := hstatus a ha
      exact ⟨by rw [hk]; exact nofun, by rw [hr]; exact nofun, by rw [hr]; exact nofun⟩
    · rw [Agent.noLifecycleTask, (hstatus a ha).2]
      exact ⟨nofun, nofun⟩

end Sys2Proof.Machine
end

section
/-!
The calls that wait between two atomic steps (20_memory.md R70, R71): what each makes of the turn it
gets.
-/

namespace Sys2Proof.Machine

section parked
variable (s : State)

/-- The drive of a led.write (44_led_endpoint.md R226). -/
theorem resume_ledDrive (v m : Nat) :
    let pin := s.cfg.outputPin
    let off := if v = 0 then 0x28 else 0x1C
    (pin < 32 → s.fsel.field pin = 1 → s.mapping ≠ none →
      ∃ l : Word, resume (.ledWrite (.drive v m)) s =
          (({ s with outlatch := l }.log .write off (1#32 <<< pin)).ret (.count m [])) ∧
        ∀ q, q < 32 → l.getLsbD q = if q = pin then decide (v ≠ 0) else s.outlatch.getLsbD q) ∧
    (32 ≤ pin → resume (.ledWrite (.drive v m)) s = s.raise .pinRange pin) ∧
    (pin < 32 → s.fsel.field pin ≠ 1 →
      resume (.ledWrite (.drive v m)) s = s.raise .driveNotOutput pin) ∧
    (pin < 32 → s.fsel.field pin = 1 → s.mapping = none →
      resume (.ledWrite (.drive v m)) s = s.raise .unmapped off) := by
  intro pin off
  have hoff : driveOffset (decide (v ≠ 0)) = off := driveOffset_decide v
  refine ⟨fun hp hf hm => ⟨drivenLatch (decide (v ≠ 0)) s.outlatch pin, ?_,
    getLsbD_drivenLatch _ s.outlatch pin⟩,
    fun hp => resume_drive_raised (drivePin_pinRange s _ pin hp),
    fun hp hf => resume_drive_raised (drivePin_notOutput s _ pin hp hf),
    fun hp hf hm => resume_drive_raised (hoff ▸ drivePin_unmapped s _ pin hp hf hm)⟩
  rw [resume_drive_ok hp hf hm, State.driven, hoff]
  rfl

/-- The drive of a teardown (46_lifecycle.md R271). -/
theorem resume_driveLow :
    s.cfg.outputPin < 32 → s.fsel.field s.cfg.outputPin = 1 → s.mapping ≠ none →
      ∃ l : Word, resume (.teardown .driveLow) s =
          ({ s with outlatch := l }.log .write 0x28 (1#32 <<< s.cfg.outputPin)).goOn
            (.teardown .unmap) ∧
        ∀ q, q < 32 → l.getLsbD q =
          if q = s.cfg.outputPin then false else s.outlatch.getLsbD q :=
  fun hp hf hm => ⟨drivenLatch false s.outlatch s.cfg.outputPin,
    resume_teardown_again (teardownAdvance_driveLow_driven s hm hp hf),
    getLsbD_drivenLatch false s.outlatch _⟩

/-- The map of a startup takes a fresh handle (46_lifecycle.md R270). -/
theorem resume_map (hm : s.mapping = none) (hd : asBool (s.peek 0) = true) :
    ∃ h, s.fresh ≤ h ∧ resume (.startup .map) s =
      { s.skip 2 with mapping := some h, fresh := h + 1 }.goOn (.startup (.readFsel .input1)) :=
  ⟨(s.skip 1).freshId, Nat.le_add_right _ _, resume_startup_again (startupAdvance_map_ok s hm hd)⟩

/-- The first registration of a startup goes by the host's draw (46_lifecycle.md R270). -/
theorem resume_registerSig (h : s.sigReg = false) :
    resume (.startup .registerSig) s = if asBool (s.peek 0) then
      { s.skip 1 with sigReg := true }.goOn (.startup .registerLed)
    else (s.skip 1).goOn (.startup .rollbackMap) := by
  cases hd : asBool (s.peek 0) with
  | true => exact resume_startup_again (startupAdvance_registerSig_ok h hd)
  | false => exact resume_startup_again (startupAdvance_registerSig_failed h hd)

/-- The second registration of a startup goes by the host's draw (46_lifecycle.md R270). -/
theorem resume_registerLed (h : s.ledReg = false) :
    resume (.startup .registerLed) s = if asBool (s.peek 0) then
      { s.skip 1 with ledReg := true }.goOn (.startup .enterRunning)
    else (s.skip 1).goOn (.startup .rollbackSig) := by
  cases hd : asBool (s.peek 0) with
  | true => exact resume_startup_again (startupAdvance_registerLed_ok h hd)
  | false => exact resume_startup_again (startupAdvance_registerLed_failed h hd)

end parked

/-- Settles O6: each task by the rule of its one atomic step. -/
theorem stepResumesParkedCall : Obligations.StepResumesParkedCall := by
  refine ⟨fun s a t => step_of_inCall, resume_ledDrive, fun s b => ⟨?ch1, ?ch2, ?noChannel⟩,
    fun s id d hd => ?transfer,
    fun s => ⟨resume_driveLow s,
      fun h => resume_teardown_again (teardownAdvance_unmap_ok s h),
      fun h => resume_teardown_again (teardownAdvance_deregisterSig_ok s h),
      fun h => resume_teardown_again (teardownAdvance_deregisterLed_ok s h)⟩,
    fun s => ⟨fun hp => resume_teardown_raised (teardownAdvance_driveLow_pinRange s hp),
      fun hp hf => resume_teardown_raised (teardownAdvance_driveLow_notOutput s hp hf),
      fun hp hf hm => resume_teardown_raised (teardownAdvance_driveLow_unmapped s hm hp hf),
      fun h => resume_teardown_refused (teardownAdvance_unmap_refused s h),
      fun h => resume_teardown_refused (teardownAdvance_deregisterSig_refused s h),
      fun h => resume_teardown_refused (teardownAdvance_deregisterLed_refused s h)⟩,
    fun s => rfl,
    fun s => ⟨resume_map s, fun hm hd => resume_startup_again (startupAdvance_map_failed s hm hd),
      fun c => ?slot, resume_startup_again rfl, resume_registerSig s, resume_registerLed s,
      fun h => resume_startup_again (startupAdvance_rollbackSig_ok s h),
      fun h => resume_startup_again (startupAdvance_rollbackMap_ok s h)⟩,
    fun s => ⟨fun h => resume_startup_refused (startupAdvance_map_refused s h), fun c w => ?slotFaults,
      fun h => resume_startup_refused (startupAdvance_registerSig_refused s h),
      fun h => resume_startup_refused (startupAdvance_registerLed_refused s h),
      fun h => resume_startup_refused (startupAdvance_rollbackSig_refused s h),
      fun h => resume_startup_refused (startupAdvance_rollbackMap_refused s h)⟩,
    fun s => rfl, fun s e => rfl, resume_unmap_run, resume_selectFirst_run⟩
  case ch1 =>
    rintro rfl
    exact resume_select_channel rfl
  case ch2 =>
    rintro rfl
    exact resume_select_channel rfl
  case noChannel => exact resume_select_none
  case transfer =>
    have hn : d.length ≠ 0 := fun h => hd (List.length_eq_zero_iff.mp h)
    refine ⟨resume_copyOut_failed hn, fun off h ho => ?_, fun h ho => ?_⟩
    · rw [resume_copyOut_ok hn h, advanceOffset_some (s := s.skip 1) ho]
      rfl
    · rw [resume_copyOut_ok hn h, advanceOffset_none (s := s.skip 1) ho]
  case slot =>
    intro pin hm hp
    cases c <;> exact ⟨resume_readFsel s _ hm hp, fun w => resume_writeFsel s _ w hm hp⟩
  case slotFaults =>
    cases c <;> exact ⟨fun hp => resume_startup_raised (startupAdvance_readFsel_pinRange s _ hp),
      fun hp hm => ⟨resume_startup_raised (startupAdvance_readFsel_unmapped s _ hm hp),
        resume_startup_raised (startupAdvance_writeFsel_unmapped s _ w hm)⟩⟩

end Sys2Proof.Machine
end
